-- ==== Sys2Proof/Word.lean ====
section
/-! DEFINITION. The word types of the U256 engine: bytes, limbs, quarter-limbs and the 256-bit value as a pair of limbs
(spec R6, R7, R30, R33). Nothing here computes an instruction's result. -/

namespace Sys2Proof

/-- One byte of a packet's payload or of a response's data (R51, R52). -/
abbrev Byte := BitVec 8

/-- A limb, `bits(128)` (R6, R7). -/
abbrev Limb := BitVec 128

/-- A quarter-limb, `bits(64)`, the multiplier's unit (R6). -/
abbrev Quarter := BitVec 64

/-- A 256-bit value: the ordered pair of its limbs. Every bit pattern is a legal value (R7, R30). -/
structure U256 where
  upper : Limb
  lower : Limb
  deriving DecidableEq, Repr

/-- `val(a) = a.upper * 2^128 + a.lower` (R7, R30). -/
def U256.val (a : U256) : Nat := a.upper.toNat * 2 ^ 128 + a.lower.toNat

/-- The constant `ZERO` (R7, R33). -/
def U256.ZERO : U256 := ⟨0, 0⟩

/-- The constant `ONE` (R7, R33). -/
def U256.ONE : U256 := ⟨0, 1⟩

/-- The constant `MAX`, both limbs `2^128 - 1` (R7, R33). -/
def U256.MAX : U256 := ⟨BitVec.allOnes 128, BitVec.allOnes 128⟩

end Sys2Proof
end

