-- ==== Sys2Proof/Machine/Bytes.lean ====
section
/-! DEFINITION. Byte order and the constructors from integers (spec R7, R8, R53): everything multi-byte is big-endian. -/

namespace Sys2Proof

/-- `be(bytes)`: the unsigned integer whose most significant byte comes first; 0 for no bytes (R8). -/
def be (bytes : List Byte) : Nat := bytes.foldl (fun n b => n * 256 + b.toNat) 0

/-- `bytes_be(v, n)`: `v mod 256^n` as `n` bytes, most significant first (R8). -/
def bytesBE (v : Nat) : Nat → List Byte
  | 0 => []
  | n + 1 => BitVec.ofNat 8 (v / 256 ^ n) :: bytesBE v n

/-- `from_int(n)` for a natural number: `U256(trunc_128(n >> 128), trunc_128(n))` (R7). -/
def U256.fromNat (n : Nat) : U256 := ⟨BitVec.ofNat 128 (n >>> 128), BitVec.ofNat 128 n⟩

/-- `from_int(n)` for any integer: the value with `val = n mod 2^256` (R7). -/
def U256.fromInt (n : Int) : U256 := U256.fromNat (n % 2 ^ 256).toNat

/-- `vbit(a, i)`: bit `i` of a value (R7). -/
def U256.vbit (a : U256) (i : Nat) : Bool :=
  if i < 128 then a.lower.getLsbD i else a.upper.getLsbD (i - 128)

end Sys2Proof
end

