-- ==== Sys2Proof/Syntax.lean ====
section
/-! DEFINITION. The command packet and the 38 commands as syntax: one constructor of `Instr` for each row of
spec/opcode_table.json, with the operands R70 to R76 give it. -/

namespace Sys2Proof

/-- A command packet: the 32-bit command word and the payload bytes in arrival order (R51). -/
structure Packet where
  word : BitVec 32
  payload : List Byte
  deriving DecidableEq, Repr

/-- A value register `V0` to `V7`; as an operand, a legal destination (R32, R33). -/
abbrev Reg := Fin 8

/-- A legal source: a value register or one of the three constants (R33). -/
inductive Src where
  | v (r : Reg)
  | zero
  | one
  | max
  deriving DecidableEq, Repr

/-- Operand b of a binary command: a source (`N = 0`), or the narrow form's 128-bit payload (`N = 1`) (R76). -/
inductive OperandB where
  | src (r : Src)
  | narrow (h : Limb)
  deriving DecidableEq, Repr

/-- A native integer operand of `LDU` or `LDS`, by its width (R73 (a), R74). -/
inductive Native where
  | w8 (n : BitVec 8)
  | w16 (n : BitVec 16)
  | w32 (n : BitVec 32)
  | w64 (n : BitVec 64)
  deriving DecidableEq, Repr

/-- The width of a `CVT` (R73 (b), R186). -/
inductive CvtWidth where
  | w8
  | w16
  | w32
  | w64
  | w128
  deriving DecidableEq, Repr

/-- The commands of U256-CMD version 1, in the order of R72. -/
inductive Instr where
  /-- `LDU.w rd, #n` (R101). -/
  | ldu (rd : Reg) (n : Native)
  /-- `LDS.w rd, #n` (R102). -/
  | lds (rd : Reg) (n : Native)
  /-- `LDB rd, #t` (R103). -/
  | ldb (rd : Reg) (t : Bool)
  /-- `LDH rd, #h` (R104). -/
  | ldh (rd : Reg) (h : Limb)
  /-- `LDP rd, #u, #l` (R105). -/
  | ldp (rd : Reg) (u l : Limb)
  /-- `LDQ rd, #q3, #q2, #q1, #q0` (R106). -/
  | ldq (rd : Reg) (q3 q2 q1 q0 : Quarter)
  /-- `PARSE rd, "text", base` (R107). -/
  | parse (rd : Reg) (text : List Byte) (base : Nat)
  /-- `EQ ra, b` (R121). -/
  | eq (ra : Src) (b : OperandB)
  /-- `NE ra, b` (R122). -/
  | ne (ra : Src) (b : OperandB)
  /-- `LT ra, b` (R123). -/
  | lt (ra : Src) (b : OperandB)
  /-- `GT ra, b` (R124). -/
  | gt (ra : Src) (b : OperandB)
  /-- `LE ra, b` (R125). -/
  | le (ra : Src) (b : OperandB)
  /-- `GE ra, b` (R126). -/
  | ge (ra : Src) (b : OperandB)
  /-- `LAND ra, b` (R127). -/
  | land (ra : Src) (b : OperandB)
  /-- `LOR ra, b` (R128). -/
  | lor (ra : Src) (b : OperandB)
  /-- `LNOT ra` (R129). -/
  | lnot (ra : Src)
  /-- `AND rd, ra, b` (R141). -/
  | and (rd : Reg) (ra : Src) (b : OperandB)
  /-- `OR rd, ra, b` (R142). -/
  | or (rd : Reg) (ra : Src) (b : OperandB)
  /-- `XOR rd, ra, b` (R143). -/
  | xor (rd : Reg) (ra : Src) (b : OperandB)
  /-- `NOT rd, ra` (R144). -/
  | not (rd : Reg) (ra : Src)
  /-- `SHL rd, ra, b` (R153). -/
  | shl (rd : Reg) (ra : Src) (b : OperandB)
  /-- `SHR rd, ra, b` (R154). -/
  | shr (rd : Reg) (ra : Src) (b : OperandB)
  /-- `ADD rd, ra, b` (R161). -/
  | add (rd : Reg) (ra : Src) (b : OperandB)
  /-- `SUB rd, ra, b` (R162). -/
  | sub (rd : Reg) (ra : Src) (b : OperandB)
  /-- `INC rd, ra` (R163). -/
  | inc (rd : Reg) (ra : Src)
  /-- `DEC rd, ra` (R164). -/
  | dec (rd : Reg) (ra : Src)
  /-- `NEG rd, ra` (R165). -/
  | neg (rd : Reg) (ra : Src)
  /-- `POS rd, ra` (R166). -/
  | pos (rd : Reg) (ra : Src)
  /-- `MUL rd, ra, b` (R171). -/
  | mul (rd : Reg) (ra : Src) (b : OperandB)
  /-- `DIVMOD rd, re, ra, b`: quotient to `rd`, remainder to `re` (R177). -/
  | divmod (rd re : Reg) (ra : Src) (b : OperandB)
  /-- `DIV rd, ra, b` (R178). -/
  | div (rd : Reg) (ra : Src) (b : OperandB)
  /-- `MOD rd, ra, b` (R179). -/
  | mod (rd : Reg) (ra : Src) (b : OperandB)
  /-- `CVT.w ra` (R186). -/
  | cvt (w : CvtWidth) (ra : Src)
  /-- `TST ra` (R187). -/
  | tst (ra : Src)
  /-- `BITS ra` (R188). -/
  | bits (ra : Src)
  /-- `STR ra, base, min_length` (R189, R75). -/
  | str (ra : Src) (base : Nat) (minLength : BitVec 16)
  /-- `EXPORT ra` (R190). -/
  | exportBits (ra : Src)
  /-- `EXPORTT ra` (R191). -/
  | exportTrunc (ra : Src)
  deriving DecidableEq, Repr

end Sys2Proof
end

