-- ==== Sys2Proof/Config.lean ====
section
/-! DEFINITION. The parameters of spec R6 and the one point R6 leaves open. -/

namespace Sys2Proof

/-- `NREG`: the number of value registers (R6, R32, D2). -/
def Config.nReg : Nat := 8

/-- `TEXT_MAX`: the largest payload of a command packet, in bytes (R6, R51, D9). -/
def Config.textMax : Nat := 65535

/-- `BASE_MIN` (R6, R73). -/
def Config.baseMin : Nat := 2

/-- `BASE_MAX` (R6, R73). -/
def Config.baseMax : Nat := 36

/-- `TRUNC_ZERO_LEN`, 0 or 1: how many zero bytes `EXPORTT` returns for the zero value (R6, R191, U1). The spec leaves it
open as a parameter of the model, so it has no body here: whatever is proved holds for both settings (log entry 6). -/
opaque Config.truncZeroLen : Fin 2

end Sys2Proof
end

