-- ==== Sys2Proof/WellFormed.lean ====
section
/-! DEFINITION. Which terms of `Instr` stand for a legal command. The operand types already hold register specifiers,
widths, booleans and payload lengths in range (R33, R73, R74); what is left are the base of `PARSE` and `STR`, the length of a
text and the two destinations of `DIVMOD`. -/

namespace Sys2Proof

/-- The base is legal: 2 to 36 (R73 (d)). -/
abbrev baseLegal (base : Nat) : Prop := Config.baseMin ≤ base ∧ base ≤ Config.baseMax

/-- The text fits a packet's payload (R51, R55). -/
abbrev textFits (text : List Byte) : Prop := text.length ≤ Config.textMax

/-- The two destinations of `DIVMOD` differ (R80 (8), R225). -/
abbrev destinationsDiffer (rd re : Reg) : Prop := rd ≠ re

/-- The term stands for a legal command (R80). -/
def Instr.wf : Instr → Bool
  | .parse _ text base => decide (baseLegal base ∧ textFits text)
  | .divmod rd re _ _ => decide (destinationsDiffer rd re)
  | .str _ base _ => decide (baseLegal base)
  | .ldu _ _ | .lds _ _ | .ldb _ _ | .ldh _ _ | .ldp _ _ _ | .ldq _ _ _ _ _ => true
  | .eq _ _ | .ne _ _ | .lt _ _ | .gt _ _ | .le _ _ | .ge _ _ | .land _ _ | .lor _ _ | .lnot _ => true
  | .and _ _ _ | .or _ _ _ | .xor _ _ _ | .not _ _ | .shl _ _ _ | .shr _ _ _ => true
  | .add _ _ _ | .sub _ _ _ | .inc _ _ | .dec _ _ | .neg _ _ | .pos _ _ => true
  | .mul _ _ _ | .div _ _ _ | .mod _ _ _ => true
  | .cvt _ _ | .tst _ | .bits _ | .exportBits _ | .exportTrunc _ => true

end Sys2Proof
end

