-- ==== Sys2Proof/Decode.lean ====
section
/-! DEFINITION. The command word, the decoder (total, rejecting by name), the encoder, and the opcode table as data
(spec R33, R55, R70 to R81, R84, R85). -/

namespace Sys2Proof

/-- The eight fields of a command word, most significant first (R70). -/
structure Fields where
  op : BitVec 6
  n : BitVec 1
  z : BitVec 1
  rd : BitVec 4
  re : BitVec 4
  ra : BitVec 4
  rb : BitVec 4
  aux : BitVec 8
  deriving DecidableEq, Repr

/-- The fields of a command word at the bit positions of R70. -/
def unpack (w : BitVec 32) : Fields where
  op := w.extractLsb' 26 6
  n := w.extractLsb' 25 1
  z := w.extractLsb' 24 1
  rd := w.extractLsb' 20 4
  re := w.extractLsb' 16 4
  ra := w.extractLsb' 12 4
  rb := w.extractLsb' 8 4
  aux := w.extractLsb' 0 8

/-- The command word of eight fields, `op` in the most significant bits (R70). -/
def pack (f : Fields) : BitVec 32 := f.op ++ f.n ++ f.z ++ f.rd ++ f.re ++ f.ra ++ f.rb ++ f.aux

/-- The 38 assigned opcodes, in the order of R72. -/
inductive Opcode where
  | ldu
  | lds
  | ldb
  | ldh
  | ldp
  | ldq
  | parse
  | eq
  | ne
  | lt
  | gt
  | le
  | ge
  | land
  | lor
  | lnot
  | and
  | or
  | xor
  | not
  | shl
  | shr
  | add
  | sub
  | inc
  | dec
  | neg
  | pos
  | mul
  | divmod
  | div
  | mod
  | cvt
  | tst
  | bits
  | str
  | exportBits
  | exportTrunc
  deriving DecidableEq, Repr

/-- The opcode numbers of R72. -/
def Opcode.code : Opcode → BitVec 6
  | .ldu => 0x01
  | .lds => 0x02
  | .ldb => 0x03
  | .ldh => 0x04
  | .ldp => 0x05
  | .ldq => 0x06
  | .parse => 0x07
  | .eq => 0x08
  | .ne => 0x09
  | .lt => 0x0A
  | .gt => 0x0B
  | .le => 0x0C
  | .ge => 0x0D
  | .land => 0x10
  | .lor => 0x11
  | .lnot => 0x12
  | .and => 0x18
  | .or => 0x19
  | .xor => 0x1A
  | .not => 0x1B
  | .shl => 0x20
  | .shr => 0x21
  | .add => 0x28
  | .sub => 0x29
  | .inc => 0x2A
  | .dec => 0x2B
  | .neg => 0x2C
  | .pos => 0x2D
  | .mul => 0x30
  | .divmod => 0x31
  | .div => 0x32
  | .mod => 0x33
  | .cvt => 0x38
  | .tst => 0x39
  | .bits => 0x3A
  | .str => 0x3B
  | .exportBits => 0x3C
  | .exportTrunc => 0x3D

/-- Every assigned opcode (R72). -/
def Opcode.all : List Opcode :=
  [.ldu, .lds, .ldb, .ldh, .ldp, .ldq, .parse, .eq, .ne, .lt,
   .gt, .le, .ge, .land, .lor, .lnot, .and, .or, .xor, .not,
   .shl, .shr, .add, .sub, .inc, .dec, .neg, .pos, .mul, .divmod,
   .div, .mod, .cvt, .tst, .bits, .str, .exportBits, .exportTrunc]

/-- The command an opcode number stands for; none for an unassigned number (R78). -/
def Opcode.ofCode? (c : BitVec 6) : Option Opcode := Opcode.all.find? fun o => o.code == c

/-- The opcode of a command (R72). -/
def Instr.opcode : Instr → Opcode
  | .ldu _ _ => .ldu
  | .lds _ _ => .lds
  | .ldb _ _ => .ldb
  | .ldh _ _ => .ldh
  | .ldp _ _ _ => .ldp
  | .ldq _ _ _ _ _ => .ldq
  | .parse _ _ _ => .parse
  | .eq _ _ => .eq
  | .ne _ _ => .ne
  | .lt _ _ => .lt
  | .gt _ _ => .gt
  | .le _ _ => .le
  | .ge _ _ => .ge
  | .land _ _ => .land
  | .lor _ _ => .lor
  | .lnot _ => .lnot
  | .and _ _ _ => .and
  | .or _ _ _ => .or
  | .xor _ _ _ => .xor
  | .not _ _ => .not
  | .shl _ _ _ => .shl
  | .shr _ _ _ => .shr
  | .add _ _ _ => .add
  | .sub _ _ _ => .sub
  | .inc _ _ => .inc
  | .dec _ _ => .dec
  | .neg _ _ => .neg
  | .pos _ _ => .pos
  | .mul _ _ _ => .mul
  | .divmod _ _ _ _ => .divmod
  | .div _ _ _ => .div
  | .mod _ _ _ => .mod
  | .cvt _ _ => .cvt
  | .tst _ => .tst
  | .bits _ => .bits
  | .str _ _ _ => .str
  | .exportBits _ => .exportBits
  | .exportTrunc _ => .exportTrunc

/-- Why a packet is no legal command: the eight conditions of R80, in its order. -/
inductive Illegal where
  /-- (1) the opcode is unassigned -/
  | unassignedOpcode
  /-- (2) bit 24 is set -/
  | reservedBit
  /-- (3) `N` is set on a command with no narrow form -/
  | noNarrowForm
  /-- (4) a field the format does not use is not 0 -/
  | unusedField
  /-- (5) a used register specifier is out of range -/
  | badSpecifier
  /-- (6) `aux` is outside the legal set -/
  | badAux
  /-- (7) the payload has the wrong length -/
  | payloadLength
  /-- (8) `DIVMOD` names one register twice -/
  | sameDestination
  deriving DecidableEq, Repr

/-- What decoding answers: a command, or the reason the packet is illegal. -/
abbrev Decoded (α : Type) := Except Illegal α

/-- Go on when the condition holds, otherwise reject by name. -/
def require (c : Bool) (e : Illegal) : Decoded Unit := if c then .ok () else .error e

/-- A destination specifier: 0 to 7 (R33, R80 (5)). -/
def destination (r : BitVec 4) : Decoded Reg :=
  if h : r.toNat < 8 then .ok ⟨r.toNat, h⟩ else .error .badSpecifier

/-- A source specifier: 0 to 7 a register, 8 `ZERO`, 9 `ONE`, 10 `MAX` (R33, R80 (5)). -/
def source (r : BitVec 4) : Decoded Src :=
  if h : r.toNat < 8 then .ok (.v ⟨r.toNat, h⟩)
  else if r = 8 then .ok .zero
  else if r = 9 then .ok .one
  else if r = 10 then .ok .max
  else .error .badSpecifier

/-- A payload of exactly `len` bytes as a big-endian number (R53, R55, R74). -/
def payloadBits (w len : Nat) (pl : List Byte) : Decoded (BitVec w) := do
  require (pl.length == len) .payloadLength
  pure (BitVec.ofNat w (be pl))

/-- No payload at all (R55). -/
def noPayload (pl : List Byte) : Decoded Unit := require (pl.length == 0) .payloadLength

/-- Operand b: `src(rb)` when `N = 0`, the 16-byte payload when `N = 1` (R76, R80 (4)). -/
def operandB (f : Fields) (pl : List Byte) : Decoded OperandB :=
  if f.n = 1 then do
    require (f.rb == 0) .unusedField
    let h ← payloadBits 128 16 pl
    pure (.narrow h)
  else do
    let r ← source f.rb
    noPayload pl
    pure (.src r)

/-- Format `L`: `rd` and `aux` (R71). -/
def formatL (f : Fields) : Decoded Reg := do
  require (f.n == 0) .noNarrowForm
  require (f.re == 0 && f.ra == 0 && f.rb == 0) .unusedField
  destination f.rd

/-- Format `R3`: `N`, `rd`, `ra`, `rb` (R71). -/
def formatR3 (f : Fields) (pl : List Byte) : Decoded (Reg × Src × OperandB) := do
  require (f.re == 0 && f.aux == 0) .unusedField
  let rd ← destination f.rd
  let ra ← source f.ra
  let b ← operandB f pl
  pure (rd, ra, b)

/-- Format `R2`: `rd`, `ra` (R71). -/
def formatR2 (f : Fields) (pl : List Byte) : Decoded (Reg × Src) := do
  require (f.n == 0) .noNarrowForm
  require (f.re == 0 && f.rb == 0 && f.aux == 0) .unusedField
  let rd ← destination f.rd
  let ra ← source f.ra
  noPayload pl
  pure (rd, ra)

/-- Format `R4`: `N`, `rd`, `re`, `ra`, `rb`, the destinations different (R71, R80 (8)). -/
def formatR4 (f : Fields) (pl : List Byte) : Decoded (Reg × Reg × Src × OperandB) := do
  require (f.aux == 0) .unusedField
  let rd ← destination f.rd
  let re ← destination f.re
  let ra ← source f.ra
  let b ← operandB f pl
  require (decide (destinationsDiffer rd re)) .sameDestination
  pure (rd, re, ra, b)

/-- Format `C2`: `N`, `ra`, `rb` (R71). -/
def formatC2 (f : Fields) (pl : List Byte) : Decoded (Src × OperandB) := do
  require (f.rd == 0 && f.re == 0 && f.aux == 0) .unusedField
  let ra ← source f.ra
  let b ← operandB f pl
  pure (ra, b)

/-- Format `C1`: `ra` and `aux` (R71). -/
def formatC1 (f : Fields) : Decoded Src := do
  require (f.n == 0) .noNarrowForm
  require (f.rd == 0 && f.re == 0 && f.rb == 0) .unusedField
  source f.ra

/-- Format `C1` with `aux = 0` and no payload: `LNOT`, `TST`, `BITS`, `EXPORT`, `EXPORTT` (R71, R73 (e)). -/
def formatC1Plain (f : Fields) (pl : List Byte) : Decoded Src := do
  let ra ← formatC1 f
  require (f.aux == 0) .unusedField
  noPayload pl
  pure ra

/-- The native integer of `LDU` and `LDS`: `aux` gives the width, the payload the value (R73 (a), R74). -/
def nativeOperand (aux : BitVec 8) (pl : List Byte) : Decoded Native :=
  if aux = 0 then do let n ← payloadBits 8 1 pl; pure (.w8 n)
  else if aux = 1 then do let n ← payloadBits 16 2 pl; pure (.w16 n)
  else if aux = 2 then do let n ← payloadBits 32 4 pl; pure (.w32 n)
  else if aux = 3 then do let n ← payloadBits 64 8 pl; pure (.w64 n)
  else .error .badAux

/-- The width code of `CVT` (R73 (b)). -/
def cvtWidth (aux : BitVec 8) : Decoded CvtWidth :=
  if aux = 0 then .ok .w8
  else if aux = 1 then .ok .w16
  else if aux = 2 then .ok .w32
  else if aux = 3 then .ok .w64
  else if aux = 4 then .ok .w128
  else .error .badAux

/-- The boolean of `LDB` (R73 (c)). -/
def booleanAux (aux : BitVec 8) : Decoded Bool :=
  if aux = 0 then .ok false else if aux = 1 then .ok true else .error .badAux

/-- The base of `PARSE` and `STR` (R73 (d)). -/
def baseAux (aux : BitVec 8) : Decoded Nat := do
  require (decide (baseLegal aux.toNat)) .badAux
  pure aux.toNat

/-- `aux` of the loads that do not use it (R73 (e)). -/
def noAux (aux : BitVec 8) : Decoded Unit := require (aux == 0) .unusedField

/-- Byte `k` of a payload and the seven after it, one quarter-limb (R74, `LDQ`). -/
def quarterAt (pl : List Byte) (k : Nat) : Quarter := BitVec.ofNat 64 (be ((pl.drop k).take 8))

/-- Byte `k` of a payload and the fifteen after it, one limb (R74, `LDP`). -/
def limbAt (pl : List Byte) (k : Nat) : Limb := BitVec.ofNat 128 (be ((pl.drop k).take 16))

/-- Decode the operands of one opcode, in the format R71 and R72 give it. -/
def decodeOperands (op : Opcode) (f : Fields) (pl : List Byte) : Decoded Instr :=
  match op with
  | .ldu => do let rd ← formatL f; let n ← nativeOperand f.aux pl; pure (.ldu rd n)
  | .lds => do let rd ← formatL f; let n ← nativeOperand f.aux pl; pure (.lds rd n)
  | .ldb => do let rd ← formatL f; let t ← booleanAux f.aux; noPayload pl; pure (.ldb rd t)
  | .ldh => do let rd ← formatL f; noAux f.aux; let h ← payloadBits 128 16 pl; pure (.ldh rd h)
  | .ldp => do
    let rd ← formatL f
    noAux f.aux
    require (pl.length == 32) .payloadLength
    pure (.ldp rd (limbAt pl 0) (limbAt pl 16))
  | .ldq => do
    let rd ← formatL f
    noAux f.aux
    require (pl.length == 32) .payloadLength
    pure (.ldq rd (quarterAt pl 0) (quarterAt pl 8) (quarterAt pl 16) (quarterAt pl 24))
  | .parse => do
    let rd ← formatL f
    let base ← baseAux f.aux
    require (decide (textFits pl)) .payloadLength
    pure (.parse rd pl base)
  | .eq => do let (ra, b) ← formatC2 f pl; pure (.eq ra b)
  | .ne => do let (ra, b) ← formatC2 f pl; pure (.ne ra b)
  | .lt => do let (ra, b) ← formatC2 f pl; pure (.lt ra b)
  | .gt => do let (ra, b) ← formatC2 f pl; pure (.gt ra b)
  | .le => do let (ra, b) ← formatC2 f pl; pure (.le ra b)
  | .ge => do let (ra, b) ← formatC2 f pl; pure (.ge ra b)
  | .land => do let (ra, b) ← formatC2 f pl; pure (.land ra b)
  | .lor => do let (ra, b) ← formatC2 f pl; pure (.lor ra b)
  | .lnot => do let ra ← formatC1Plain f pl; pure (.lnot ra)
  | .and => do let (rd, ra, b) ← formatR3 f pl; pure (.and rd ra b)
  | .or => do let (rd, ra, b) ← formatR3 f pl; pure (.or rd ra b)
  | .xor => do let (rd, ra, b) ← formatR3 f pl; pure (.xor rd ra b)
  | .not => do let (rd, ra) ← formatR2 f pl; pure (.not rd ra)
  | .shl => do let (rd, ra, b) ← formatR3 f pl; pure (.shl rd ra b)
  | .shr => do let (rd, ra, b) ← formatR3 f pl; pure (.shr rd ra b)
  | .add => do let (rd, ra, b) ← formatR3 f pl; pure (.add rd ra b)
  | .sub => do let (rd, ra, b) ← formatR3 f pl; pure (.sub rd ra b)
  | .inc => do let (rd, ra) ← formatR2 f pl; pure (.inc rd ra)
  | .dec => do let (rd, ra) ← formatR2 f pl; pure (.dec rd ra)
  | .neg => do let (rd, ra) ← formatR2 f pl; pure (.neg rd ra)
  | .pos => do let (rd, ra) ← formatR2 f pl; pure (.pos rd ra)
  | .mul => do let (rd, ra, b) ← formatR3 f pl; pure (.mul rd ra b)
  | .divmod => do let (rd, re, ra, b) ← formatR4 f pl; pure (.divmod rd re ra b)
  | .div => do let (rd, ra, b) ← formatR3 f pl; pure (.div rd ra b)
  | .mod => do let (rd, ra, b) ← formatR3 f pl; pure (.mod rd ra b)
  | .cvt => do let ra ← formatC1 f; let w ← cvtWidth f.aux; noPayload pl; pure (.cvt w ra)
  | .tst => do let ra ← formatC1Plain f pl; pure (.tst ra)
  | .bits => do let ra ← formatC1Plain f pl; pure (.bits ra)
  | .str => do
    let ra ← formatC1 f
    let base ← baseAux f.aux
    let m ← payloadBits 16 2 pl
    pure (.str ra base m)
  | .exportBits => do let ra ← formatC1Plain f pl; pure (.exportBits ra)
  | .exportTrunc => do let ra ← formatC1Plain f pl; pure (.exportTrunc ra)

/-- Decode the fields and the payload of a packet (R70 to R80). -/
def decodeFields (f : Fields) (pl : List Byte) : Decoded Instr :=
  match Opcode.ofCode? f.op with
  | none => .error .unassignedOpcode
  | some op => do
    require (f.z == 0) .reservedBit
    decodeOperands op f pl

/-- Decode a command packet: its command, or the condition of R80 that makes it illegal. Total on every word and every
payload; made before any operand is read (R80, R207). -/
def decode (p : Packet) : Decoded Instr := decodeFields (unpack p.word) p.payload

/-! ### The encoder -/

/-- The specifier of a destination (R33). -/
def Reg.spec (r : Reg) : BitVec 4 := BitVec.ofNat 4 r.val

/-- The specifier of a source (R33). -/
def Src.spec : Src → BitVec 4
  | .v r => BitVec.ofNat 4 r.val
  | .zero => 8
  | .one => 9
  | .max => 10

/-- The `N` bit of operand b (R76). -/
def OperandB.n : OperandB → BitVec 1
  | .src _ => 0
  | .narrow _ => 1

/-- The `rb` field of operand b: 0 in the narrow form (R76). -/
def OperandB.spec : OperandB → BitVec 4
  | .src r => r.spec
  | .narrow _ => 0

/-- The payload of operand b (R76). -/
def OperandB.payload : OperandB → List Byte
  | .src _ => []
  | .narrow h => bytesBE h.toNat 16

/-- The width code of a native integer (R73 (a)). -/
def Native.aux : Native → BitVec 8
  | .w8 _ => 0
  | .w16 _ => 1
  | .w32 _ => 2
  | .w64 _ => 3

/-- The payload of a native integer (R74). -/
def Native.payload : Native → List Byte
  | .w8 n => bytesBE n.toNat 1
  | .w16 n => bytesBE n.toNat 2
  | .w32 n => bytesBE n.toNat 4
  | .w64 n => bytesBE n.toNat 8

/-- The width code of a `CVT` (R73 (b)). -/
def CvtWidth.aux : CvtWidth → BitVec 8
  | .w8 => 0
  | .w16 => 1
  | .w32 => 2
  | .w64 => 3
  | .w128 => 4

/-- The fields of a format `L` command (R71). -/
def fieldsL (op : Opcode) (rd : Reg) (aux : BitVec 8) : Fields := ⟨op.code, 0, 0, rd.spec, 0, 0, 0, aux⟩

/-- The fields of a format `R3` command (R71). -/
def fieldsR3 (op : Opcode) (rd : Reg) (ra : Src) (b : OperandB) : Fields :=
  ⟨op.code, b.n, 0, rd.spec, 0, ra.spec, b.spec, 0⟩

/-- The fields of a format `R2` command (R71). -/
def fieldsR2 (op : Opcode) (rd : Reg) (ra : Src) : Fields := ⟨op.code, 0, 0, rd.spec, 0, ra.spec, 0, 0⟩

/-- The fields of a format `C2` command (R71). -/
def fieldsC2 (op : Opcode) (ra : Src) (b : OperandB) : Fields := ⟨op.code, b.n, 0, 0, 0, ra.spec, b.spec, 0⟩

/-- The fields of a format `C1` command (R71). -/
def fieldsC1 (op : Opcode) (ra : Src) (aux : BitVec 8) : Fields := ⟨op.code, 0, 0, 0, 0, ra.spec, 0, aux⟩

/-- The fields of a command's word (R70 to R73). -/
def encodeFields (i : Instr) : Fields :=
  match i with
  | .ldu rd n | .lds rd n => fieldsL i.opcode rd n.aux
  | .ldb rd t => fieldsL i.opcode rd (if t then 1 else 0)
  | .ldh rd _ | .ldp rd _ _ | .ldq rd _ _ _ _ => fieldsL i.opcode rd 0
  | .parse rd _ base => fieldsL i.opcode rd (BitVec.ofNat 8 base)
  | .eq ra b | .ne ra b | .lt ra b | .gt ra b | .le ra b | .ge ra b | .land ra b | .lor ra b => fieldsC2 i.opcode ra b
  | .and rd ra b | .or rd ra b | .xor rd ra b | .shl rd ra b | .shr rd ra b => fieldsR3 i.opcode rd ra b
  | .add rd ra b | .sub rd ra b | .mul rd ra b | .div rd ra b | .mod rd ra b => fieldsR3 i.opcode rd ra b
  | .not rd ra | .inc rd ra | .dec rd ra | .neg rd ra | .pos rd ra => fieldsR2 i.opcode rd ra
  | .divmod rd re ra b => ⟨i.opcode.code, b.n, 0, rd.spec, re.spec, ra.spec, b.spec, 0⟩
  | .cvt w ra => fieldsC1 i.opcode ra w.aux
  | .str ra base _ => fieldsC1 i.opcode ra (BitVec.ofNat 8 base)
  | .lnot ra | .tst ra | .bits ra | .exportBits ra | .exportTrunc ra => fieldsC1 i.opcode ra 0

/-- The payload of a command (R55, R74 to R76). -/
def encodePayload : Instr → List Byte
  | .ldu _ n | .lds _ n => n.payload
  | .ldh _ h => bytesBE h.toNat 16
  | .ldp _ u l => bytesBE u.toNat 16 ++ bytesBE l.toNat 16
  | .ldq _ q3 q2 q1 q0 => bytesBE q3.toNat 8 ++ bytesBE q2.toNat 8 ++ bytesBE q1.toNat 8 ++ bytesBE q0.toNat 8
  | .parse _ text _ => text
  | .eq _ b | .ne _ b | .lt _ b | .gt _ b | .le _ b | .ge _ b | .land _ b | .lor _ b => b.payload
  | .and _ _ b | .or _ _ b | .xor _ _ b | .shl _ _ b | .shr _ _ b => b.payload
  | .add _ _ b | .sub _ _ b | .mul _ _ b | .divmod _ _ _ b | .div _ _ b | .mod _ _ b => b.payload
  | .str _ _ m => bytesBE m.toNat 2
  | .ldb _ _ | .lnot _ | .not _ _ | .inc _ _ | .dec _ _ | .neg _ _ | .pos _ _ => []
  | .cvt _ _ | .tst _ | .bits _ | .exportBits _ | .exportTrunc _ => []

/-- The one packet that spells a well-formed command (R79). -/
def encode (i : Instr) : Packet := ⟨pack (encodeFields i), encodePayload i⟩

/-! ### The opcode table as data -/

/-- The payload length a row of opcode_table.json asks for (R55, R85). -/
inductive PayloadRule where
  /-- `exact`: this many bytes. -/
  | exact (len : Nat)
  /-- `by_aux`: `2^aux` bytes, for `aux` 0 to 3. -/
  | byAux
  /-- `N0` and `N1`: none, or 16 bytes in the narrow form. -/
  | byForm
  /-- `min` and `max`: 0 up to this many bytes. -/
  | upTo (len : Nat)
  deriving DecidableEq, Repr

/-- A row of opcode_table.json: `match`, `mask`, the upper end of each register field's range, the range of `aux`, the
payload length, and whether `rd != re` is among its constraints (R85). -/
structure OpRow where
  opcode : Opcode
  pattern : BitVec 32
  mask : BitVec 32
  rdMax : Nat
  reMax : Nat
  raMax : Nat
  rbMax : Nat
  auxMin : Nat
  auxMax : Nat
  payload : PayloadRule
  distinct : Bool
  deriving DecidableEq, Repr

/-- The rows of opcode_table.json, construction (R85). -/
def opcodeTableConstruction : List OpRow :=
  [⟨.ldu, 0x04000000, 0xFF8FFFFC, 7, 0, 0, 0, 0, 3, .byAux, false⟩,
   ⟨.lds, 0x08000000, 0xFF8FFFFC, 7, 0, 0, 0, 0, 3, .byAux, false⟩,
   ⟨.ldb, 0x0C000000, 0xFF8FFFFE, 7, 0, 0, 0, 0, 1, .exact 0, false⟩,
   ⟨.ldh, 0x10000000, 0xFF8FFFFF, 7, 0, 0, 0, 0, 0, .exact 16, false⟩,
   ⟨.ldp, 0x14000000, 0xFF8FFFFF, 7, 0, 0, 0, 0, 0, .exact 32, false⟩,
   ⟨.ldq, 0x18000000, 0xFF8FFFFF, 7, 0, 0, 0, 0, 0, .exact 32, false⟩,
   ⟨.parse, 0x1C000000, 0xFF8FFFC0, 7, 0, 0, 0, 2, 36, .upTo 65535, false⟩]

/-- The rows of opcode_table.json, comparison and logical (R85). -/
def opcodeTableComparison : List OpRow :=
  [⟨.eq, 0x20000000, 0xFDFF00FF, 0, 0, 10, 10, 0, 0, .byForm, false⟩,
   ⟨.ne, 0x24000000, 0xFDFF00FF, 0, 0, 10, 10, 0, 0, .byForm, false⟩,
   ⟨.lt, 0x28000000, 0xFDFF00FF, 0, 0, 10, 10, 0, 0, .byForm, false⟩,
   ⟨.gt, 0x2C000000, 0xFDFF00FF, 0, 0, 10, 10, 0, 0, .byForm, false⟩,
   ⟨.le, 0x30000000, 0xFDFF00FF, 0, 0, 10, 10, 0, 0, .byForm, false⟩,
   ⟨.ge, 0x34000000, 0xFDFF00FF, 0, 0, 10, 10, 0, 0, .byForm, false⟩,
   ⟨.land, 0x40000000, 0xFDFF00FF, 0, 0, 10, 10, 0, 0, .byForm, false⟩,
   ⟨.lor, 0x44000000, 0xFDFF00FF, 0, 0, 10, 10, 0, 0, .byForm, false⟩,
   ⟨.lnot, 0x48000000, 0xFFFF0FFF, 0, 0, 10, 0, 0, 0, .exact 0, false⟩]

/-- The rows of opcode_table.json, bitwise, shift and additive (R85). -/
def opcodeTableData : List OpRow :=
  [⟨.and, 0x60000000, 0xFD8F00FF, 7, 0, 10, 10, 0, 0, .byForm, false⟩,
   ⟨.or, 0x64000000, 0xFD8F00FF, 7, 0, 10, 10, 0, 0, .byForm, false⟩,
   ⟨.xor, 0x68000000, 0xFD8F00FF, 7, 0, 10, 10, 0, 0, .byForm, false⟩,
   ⟨.not, 0x6C000000, 0xFF8F0FFF, 7, 0, 10, 0, 0, 0, .exact 0, false⟩,
   ⟨.shl, 0x80000000, 0xFD8F00FF, 7, 0, 10, 10, 0, 0, .byForm, false⟩,
   ⟨.shr, 0x84000000, 0xFD8F00FF, 7, 0, 10, 10, 0, 0, .byForm, false⟩,
   ⟨.add, 0xA0000000, 0xFD8F00FF, 7, 0, 10, 10, 0, 0, .byForm, false⟩,
   ⟨.sub, 0xA4000000, 0xFD8F00FF, 7, 0, 10, 10, 0, 0, .byForm, false⟩,
   ⟨.inc, 0xA8000000, 0xFF8F0FFF, 7, 0, 10, 0, 0, 0, .exact 0, false⟩,
   ⟨.dec, 0xAC000000, 0xFF8F0FFF, 7, 0, 10, 0, 0, 0, .exact 0, false⟩,
   ⟨.neg, 0xB0000000, 0xFF8F0FFF, 7, 0, 10, 0, 0, 0, .exact 0, false⟩,
   ⟨.pos, 0xB4000000, 0xFF8F0FFF, 7, 0, 10, 0, 0, 0, .exact 0, false⟩]

/-- The rows of opcode_table.json, multiply, divide and conversion (R85). -/
def opcodeTableLong : List OpRow :=
  [⟨.mul, 0xC0000000, 0xFD8F00FF, 7, 0, 10, 10, 0, 0, .byForm, false⟩,
   ⟨.divmod, 0xC4000000, 0xFD8800FF, 7, 7, 10, 10, 0, 0, .byForm, true⟩,
   ⟨.div, 0xC8000000, 0xFD8F00FF, 7, 0, 10, 10, 0, 0, .byForm, false⟩,
   ⟨.mod, 0xCC000000, 0xFD8F00FF, 7, 0, 10, 10, 0, 0, .byForm, false⟩,
   ⟨.cvt, 0xE0000000, 0xFFFF0FF8, 0, 0, 10, 0, 0, 4, .exact 0, false⟩,
   ⟨.tst, 0xE4000000, 0xFFFF0FFF, 0, 0, 10, 0, 0, 0, .exact 0, false⟩,
   ⟨.bits, 0xE8000000, 0xFFFF0FFF, 0, 0, 10, 0, 0, 0, .exact 0, false⟩,
   ⟨.str, 0xEC000000, 0xFFFF0FC0, 0, 0, 10, 0, 2, 36, .exact 2, false⟩,
   ⟨.exportBits, 0xF0000000, 0xFFFF0FFF, 0, 0, 10, 0, 0, 0, .exact 0, false⟩,
   ⟨.exportTrunc, 0xF4000000, 0xFFFF0FFF, 0, 0, 10, 0, 0, 0, .exact 0, false⟩]

/-- The 38 rows of opcode_table.json (R85). -/
def opcodeTable : List OpRow :=
  opcodeTableConstruction ++ opcodeTableComparison ++ opcodeTableData ++ opcodeTableLong

/-- The payload length holds (R55, R85). -/
def PayloadRule.admits (r : PayloadRule) (f : Fields) (len : Nat) : Bool :=
  match r with
  | .exact k => len == k
  | .byAux => len == 2 ^ f.aux.toNat
  | .byForm => len == (if f.n = 1 then 16 else 0)
  | .upTo k => decide (len ≤ k)

/-- The row's `match` and `mask`, field ranges, payload length and constraints all hold; the range of `rb` applies when
`N = 0`, and with `N = 1` it is 0 (R85). -/
def OpRow.admits (row : OpRow) (p : Packet) : Bool :=
  let f := unpack p.word
  (p.word &&& row.mask) == row.pattern
    && decide (f.rd.toNat ≤ row.rdMax) && decide (f.re.toNat ≤ row.reMax) && decide (f.ra.toNat ≤ row.raMax)
    && (if f.n = 1 then f.rb == 0 else decide (f.rb.toNat ≤ row.rbMax))
    && decide (row.auxMin ≤ f.aux.toNat) && decide (f.aux.toNat ≤ row.auxMax)
    && row.payload.admits f p.payload.length
    && (!row.distinct || f.rd != f.re)

/-! ### Words of the table as packets -/

/-- How many payload bytes a word calls for; `text` for `PARSE`, which takes any number (R55). -/
def payloadLengthOf (f : Fields) (text : Nat) : Nat :=
  match Opcode.ofCode? f.op with
  | some .ldu | some .lds => 2 ^ f.aux.toNat % 16
  | some .ldh => 16
  | some .ldp | some .ldq => 32
  | some .parse => text
  | some .str => 2
  | _ => if f.n = 1 then 16 else 0

/-- The packet of an instruction whose `nbits` bits are `w`, bit 0 the least significant bit of the command word and byte `k` of
the payload at bit `32 + 8 * k`; every bit above `nbits` is 0 (log entry 10). -/
def tablePacket (nbits w : Nat) : Packet :=
  let bits := w % 2 ^ nbits
  let word := BitVec.ofNat 32 bits
  let len := payloadLengthOf (unpack word) ((nbits - 32) / 8)
  ⟨word, (List.range len).map fun k => BitVec.ofNat 8 (bits >>> (32 + 8 * k))⟩

/-- The instruction the decoder reads from an instruction whose bits are `w`, numbered as spec/opcode_table.json numbers them;
none where the decoder rejects it. -/
def decodeTableWord (nbits w : Nat) : Option Instr :=
  match decode (tablePacket nbits w) with
  | .ok i => some i
  | .error _ => none

end Sys2Proof
end

