-- ==== Sys2Proof/Machine/Limb.lean ====
section
/-! DEFINITION. The limb primitives: the contract of the 128-bit datapath (spec R3, R10 to R19), exact mathematics on
128-bit unsigned integers and nothing else of the limb type (U5). -/

namespace Sys2Proof.Machine

/-- `l_add(x, y) = (x + y) mod 2^128` (R10). -/
def lAdd (x y : Limb) : Limb := x + y

/-- The addition of R10 overflowed: the wrapped sum is less than the first operand. -/
def lAddCarry (x y : Limb) : Bool := (lAdd x y).ult x

/-- `l_sub(x, y) = (x - y) mod 2^128` (R11). -/
def lSub (x y : Limb) : Limb := x - y

/-- The subtraction of R11 borrowed: `x < y`. -/
def lSubBorrow (x y : Limb) : Bool := x.ult y

/-- `l_mul64(p, q)`: the exact 128-bit product of two quarter-limbs (R12). -/
def lMul64 (p q : Quarter) : Limb := p.setWidth 128 * q.setWidth 128

/-- `lo64(x) = x[63:0]` (R12). -/
def lo64 (x : Limb) : Quarter := x.extractLsb' 0 64

/-- `hi64(x) = x[127:64]` (R12). -/
def hi64 (x : Limb) : Quarter := x.extractLsb' 64 64

/-- `l_shl(x, n)` for `0 <= n <= 127` only: the amount's type rules out a shift by 128 (R13, R152, U3). -/
def lShl (x : Limb) (n : Fin 128) : Limb := x <<< n.val

/-- `l_shr(x, n)` for `0 <= n <= 127` only (R13, R152, U3). -/
def lShr (x : Limb) (n : Fin 128) : Limb := x >>> n.val

/-- `l_and` (R14). -/
def lAnd (x y : Limb) : Limb := x &&& y

/-- `l_or` (R14). -/
def lOr (x y : Limb) : Limb := x ||| y

/-- `l_xor` (R14). -/
def lXor (x y : Limb) : Limb := x ^^^ y

/-- `l_not(x)` flips every bit, `2^128 - 1 - x` (R14). -/
def lNot (x : Limb) : Limb := ~~~x

/-- `x < y` on limbs, unsigned (R15). -/
def lLt (x y : Limb) : Bool := x.ult y

/-- The position of the highest set bit among bits `n-1 .. 0`, plus one; 0 when none is set (R16). -/
def highestBit (x : Limb) : Nat → Nat
  | 0 => 0
  | n + 1 => if x.getLsbD n then n + 1 else highestBit x n

/-- `l_bits(x)`: the bit-length of a limb, 0 to 128 (R16). -/
def lBits (x : Limb) : Nat := highestBit x 128

/-- `l_from_halves(h, l) = {h, l}` (R17). -/
def lFromHalves (h l : Quarter) : Limb := h ++ l

/-- `l_bytes(x)`: the 16 bytes of a limb, most significant first (R18). -/
def lBytes (x : Limb) : List Byte := bytesBE x.toNat 16

end Sys2Proof.Machine
end

