-- ==== Sys2Proof/Machine/Datapath.lean ====
section
/-! DEFINITION. The 256-bit datapath as functions of values, each built from the limb primitives the way spec R141 to R188
build it. No state here: a command's meaning is one of these between its operands and its response (R9). -/

namespace Sys2Proof.Machine

/-- Equality of values: both limbs equal (R121). -/
def uEq (a b : U256) : Bool := a.upper == b.upper && a.lower == b.lower

/-- Unsigned less-than, upper limb first (R120, R123). -/
def uLt (a b : U256) : Bool := lLt a.upper b.upper || (a.upper == b.upper && lLt a.lower b.lower)

/-- Unsigned greater-than: `LT` with the operands exchanged (R124). -/
def uGt (a b : U256) : Bool := lLt b.upper a.upper || (b.upper == a.upper && lLt b.lower a.lower)

/-- Unsigned less-or-equal: not `GT` (R125). -/
def uLe (a b : U256) : Bool := !uGt a b

/-- Unsigned greater-or-equal: not `LT` (R126). -/
def uGe (a b : U256) : Bool := !uLt a b

/-- `a != ZERO`: some limb is not 0 (R127, R187). -/
def uNonzero (a : U256) : Bool := a.upper != 0 || a.lower != 0

/-- Bitwise and, limb by limb (R141). -/
def uAnd (a b : U256) : U256 := ⟨lAnd a.upper b.upper, lAnd a.lower b.lower⟩

/-- Bitwise or, limb by limb (R142). -/
def uOr (a b : U256) : U256 := ⟨lOr a.upper b.upper, lOr a.lower b.lower⟩

/-- Bitwise exclusive or, limb by limb (R143). -/
def uXor (a b : U256) : U256 := ⟨lXor a.upper b.upper, lXor a.lower b.lower⟩

/-- Bitwise complement of both limbs (R144). -/
def uNot (a : U256) : U256 := ⟨lNot a.upper, lNot a.lower⟩

/-- `big`: the whole 256-bit shift amount is at least 256 (R150, C6). -/
def shiftBig (b : U256) : Bool := b.upper != 0 || decide (256 ≤ b.lower.toNat)

/-- `s = b.lower[7:0]`, the amount once it is known to be below 256 (R150). -/
def shiftAmount (b : U256) : Nat := (b.lower.extractLsb' 0 8).toNat

/-- Shift left: the five arms of R153. -/
def uShl (a b : U256) : U256 :=
  let s := shiftAmount b
  if shiftBig b then ⟨0, 0⟩
  else if h0 : s = 0 then a
  else if s = 128 then ⟨a.lower, 0⟩
  else if h : s < 128 then
    ⟨lOr (lShl a.upper ⟨s, h⟩) (lShr a.lower ⟨128 - s, by omega⟩), lShl a.lower ⟨s, h⟩⟩
  else ⟨lShl a.lower ⟨s - 128, by have : s < 256 := (b.lower.extractLsb' 0 8).isLt; omega⟩, 0⟩

/-- Logical shift right: the five arms of R154; the bits carried down come from the upper limb (C2). -/
def uShr (a b : U256) : U256 :=
  let s := shiftAmount b
  if shiftBig b then ⟨0, 0⟩
  else if h0 : s = 0 then a
  else if s = 128 then ⟨0, a.upper⟩
  else if h : s < 128 then
    ⟨lShr a.upper ⟨s, h⟩, lOr (lShr a.lower ⟨s, h⟩) (lShl a.upper ⟨128 - s, by omega⟩)⟩
  else ⟨0, lShr a.upper ⟨s - 128, by have : s < 256 := (b.lower.extractLsb' 0 8).isLt; omega⟩⟩

/-- A carry or borrow bit as a limb (R161, R162). -/
def carryLimb (c : Bool) : Limb := if c then 1 else 0

/-- `add(a, b)`: the carry of the lower limbs goes into the upper; the carry out of the upper is dropped (R160, R161). -/
def uAdd (a b : U256) : U256 :=
  let lo := lAdd a.lower b.lower
  let carry := carryLimb (lAddCarry a.lower b.lower)
  ⟨lAdd (lAdd a.upper b.upper) carry, lo⟩

/-- `sub(a, b)`: the borrow of the lower limbs comes out of the upper (R160, R162). -/
def uSub (a b : U256) : U256 :=
  let lo := lSub a.lower b.lower
  let borrow := carryLimb (lSubBorrow a.lower b.lower)
  ⟨lSub (lSub a.upper b.upper) borrow, lo⟩

/-- A quarter-limb in an accumulation slot, a 128-bit sum (R172). -/
def slotTerm (q : Quarter) : Limb := q.setWidth 128

/-- `mul(a, b)`: the ten kept partial products summed into four slots, carries propagated from slot to slot, everything of
weight `2^256` and above discarded (R172, R173). -/
def uMul (a b : U256) : U256 :=
  let a3 := hi64 a.upper
  let a2 := lo64 a.upper
  let a1 := hi64 a.lower
  let a0 := lo64 a.lower
  let b3 := hi64 b.upper
  let b2 := lo64 b.upper
  let b1 := hi64 b.lower
  let b0 := lo64 b.lower
  let lo := fun (p q : Quarter) => slotTerm (lo64 (lMul64 p q))
  let hi := fun (p q : Quarter) => slotTerm (hi64 (lMul64 p q))
  let slot0 := lo a0 b0
  let slot1 := hi a0 b0 + lo a0 b1 + lo a1 b0
  let slot2 := hi a0 b1 + hi a1 b0 + lo a0 b2 + lo a1 b1 + lo a2 b0
  let slot3 := hi a0 b2 + hi a1 b1 + hi a2 b0 + lo a0 b3 + lo a1 b2 + lo a2 b1 + lo a3 b0
  let r0 := lo64 slot0
  let r1 := lo64 slot1
  let t2 := slot2 + slotTerm (hi64 slot1)
  let r2 := lo64 t2
  let t3 := slot3 + slotTerm (hi64 t2)
  let r3 := lo64 t3
  ⟨lFromHalves r3 r2, lFromHalves r1 r0⟩

/-- `bits(a)`: the position of the highest set bit plus one, 0 for zero (R188, C1). -/
def uBits (a : U256) : Nat := if a.upper != 0 then 128 + lBits a.upper else lBits a.lower

/-- Set bit `i` of a quotient (R176). -/
def setBit (q : U256) (i : Nat) : U256 :=
  if i < 128 then ⟨q.upper, lOr q.lower (1#128 <<< i)⟩ else ⟨lOr q.upper (1#128 <<< (i - 128)), q.lower⟩

/-- One step of the long division at dividend bit `i`: shift the remainder left, bring the bit down, subtract when the
remainder is not less than the divisor (R176). -/
def divStep (a b : U256) (i : Nat) (q r : U256) : U256 × U256 :=
  let r := uShl r .ONE
  let r : U256 := ⟨r.upper, lOr r.lower (carryLimb (a.vbit i))⟩
  if uGe r b then (setBit q i, uSub r b) else (q, r)

/-- The loop `for i = n - 1 down to 0` of R176. -/
def divLoop (a b : U256) : Nat → U256 → U256 → U256 × U256
  | 0, q, r => (q, r)
  | i + 1, q, r => let qr := divStep a b i q r; divLoop a b i qr.1 qr.2

/-- `divmod(a, b)`: quotient and remainder, or none where R176 raises `DIVISION_BY_ZERO` (R175, R176, C7). -/
def uDivmod (a b : U256) : Option (U256 × U256) :=
  if uEq b .ZERO then none
  else if uLt a b then some (.ZERO, a)
  else if uEq a b then some (.ONE, .ZERO)
  else some (divLoop a b (uBits a) .ZERO .ZERO)

end Sys2Proof.Machine
end

