-- ==== Sys2Proof/Machine/State.lean ====
section
/-! DEFINITION. The state of the engine as plain data, what the host can do to it, the response packet, and the reset state
(spec R30 to R43, R50 to R52, R64, R200, R220, R221). -/

namespace Sys2Proof.Machine

/-- The status of a response: four codes, no other is ever produced (R200, U6). -/
inductive Status where
  /-- code 0: the command completed -/
  | ok
  /-- code 1: a character is not a digit of the base (R201) -/
  | invalidCharacter
  /-- code 2: operand b of a division is zero (R202) -/
  | divisionByZero
  /-- code 3: the packet is no legal command (R203) -/
  | illegalCommand
  deriving DecidableEq, Repr

/-- A response packet: status, flag, data bytes (R52). -/
structure Response where
  status : Status
  flag : Bool
  data : List Byte
  deriving DecidableEq, Repr

/-- What the host does at the engine's ports, one event at a time (R50, R63, R64, R220, R221; log entries 1 and 4). -/
inductive HostEvent where
  /-- present a command packet, which the engine accepts and carries out whole (R41, R56) -/
  | command (p : Packet)
  /-- present a command packet, which the engine accepts and has in execution until its next step (R41, R221) -/
  | accept (p : Packet)
  /-- take the pending response (R64) -/
  | take
  /-- apply the reset input `rst` (R220, R221) -/
  | reset
  /-- two masters interleave the parts of two packets (R63, U2) -/
  | interleaved
  deriving DecidableEq, Repr

/-- The state. `regs`, `inExec` and `rsp` are what the spec gives the machine (R32, R41, R42, R43); `port` and `taken` are the
model's own: what the host does next, and the responses it has taken, oldest first (log entries 1 and 3). -/
structure State where
  /-- the value registers `V0` to `V7` (R32) -/
  regs : Vector U256 8
  /-- the command in execution, if any (R41, R43) -/
  inExec : Option Packet
  /-- the response issued and not yet taken, if any (R43, R64) -/
  rsp : Option Response
  /-- what the host does next, first event first -/
  port : List HostEvent
  /-- the responses the host has taken, oldest first -/
  taken : List Response
  deriving DecidableEq, Repr

/-- The ways the model stops at an input the spec says does not exist. The engine itself has no fault: its errors are responses
(R204). -/
inductive Fault where
  /-- The host presents more than `TEXT_MAX` payload bytes: no such packet exists (R51, D9). Raised by a step at the port, by no
  command's meaning. Safe: the model claims nothing about it (log entry 7). -/
  | payloadTooLong
  deriving DecidableEq, Repr

/-- What the model gives no meaning to. -/
inductive Refusal where
  /-- An arm of `exec` that has no meaning yet; no arm is left in this state. Safe. -/
  | notModelled (mnemonic : String)
  /-- Two masters interleave the parts of two packets: outside the spec, which asks for a refusal (R63, U2). Raised by a step at
  the port, by no command's meaning. Safe: the model picks no outcome (log entry 8). -/
  | interleavedPackets
  deriving DecidableEq, Repr

/-- The machine right after reset: every value register `ZERO`, no command in execution, no response pending (R43, R220); the
host has presented and taken nothing (log entries 1, 3 and 9). -/
def State.reset : State where
  regs := Vector.replicate 8 U256.ZERO
  inExec := none
  rsp := none
  port := []
  taken := []

end Sys2Proof.Machine
end

