-- ==== Sys2Proof/Machine/Ops.lean ====
section
/-! DEFINITION. The named operations over the state: reading and writing a value register, ending a command with a response,
raising an error, and what the host's events do at the ports (spec R8, R32, R41, R51, R52, R56, R64, R200 to R207, R220, R221). -/

namespace Sys2Proof.Machine

/-- The status codes of R200. -/
def Status.code : Status → BitVec 4
  | .ok => 0
  | .invalidCharacter => 1
  | .divisionByZero => 2
  | .illegalCommand => 3

/-- `V[i]` (R8, R32). -/
def State.readReg (s : State) (r : Reg) : U256 := s.regs[r]

/-- `V[i] <- v`: the whole register, no other (R8, R32, R77). -/
def State.writeReg (s : State) (r : Reg) (v : U256) : State := { s with regs := s.regs.set r v }

/-- `respond`: the command ends with this response, which is now pending; nothing is in execution any more (R8, R52, R56). -/
def State.respond (s : State) (r : Response) : State := { s with rsp := some r, inExec := none }

/-- End a command that returns a flag and data (R8, R52). -/
def answer (flag : Bool) (data : List Byte) (s : State) : Host.Outcome State Fault Refusal :=
  .next (s.respond ⟨.ok, flag, data⟩)

/-- End a command that writes its destination and returns nothing else (R8, R52, R77). -/
def writeResult (rd : Reg) (v : U256) (s : State) : Host.Outcome State Fault Refusal :=
  answer false [] (s.writeReg rd v)

/-- `raise`: taking an error. The command ends with the error's status, flag 0 and empty data; no register is written, nothing
is saved, no mode changes, and the engine goes on (R8, R204, R205). There is no return from an error: control never leaves the host
(R205). -/
def raise (e : Status) (s : State) : Host.Outcome State Fault Refusal := .next (s.respond ⟨e, false, []⟩)

/-- A command whose term is no legal command ends with `ILLEGAL_COMMAND` before any operand is read (R80, R207). A decoded
command is always legal, so in a step the first case is the only one (log entry 12). -/
def whenLegal (legal : Bool) (k : State → Host.Outcome State Fault Refusal) (s : State) : Host.Outcome State Fault Refusal :=
  if legal then k s else raise .illegalCommand s

/-! ### The ports -/

/-- A packet the host can present: at most `TEXT_MAX` payload bytes (R51). -/
def presentable (p : Packet) : Bool := decide (p.payload.length ≤ Config.textMax)

/-- The host takes the pending response, if there is one (R64). -/
def State.takeResponse (s : State) : State :=
  match s.rsp with
  | none => s
  | some r => { s with rsp := none, taken := s.taken ++ [r] }

/-- The state in which the engine has accepted the command at the head of the port: the previous response has been taken (R64),
the packet is consumed whole (R57), `rest` is what the host does after it. -/
def State.accepted (s : State) (rest : List HostEvent) : State := { s.takeResponse with port := rest }

/-- Accept a packet and have it in execution until the next step (R41, R221). -/
def acceptPacket (p : Packet) (rest : List HostEvent) (s : State) : Host.Outcome State Fault Refusal :=
  if presentable p then .next { s.accepted rest with inExec := some p } else .fault .payloadTooLong

/-- The reset input: the reset state of R43; a command in execution and a response not yet taken are discarded (R220, R221).
What the host does next and what it has taken are the host's, not the engine's (log entry 15). -/
def State.applyReset (s : State) (rest : List HostEvent) : State := { State.reset with port := rest, taken := s.taken }

end Sys2Proof.Machine
end

