-- ==== Sys2Proof/Machine/Operands.lean ====
section
/-! DEFINITION. Every operand form: sources and constants (spec R8, R33), operand b (R76), native integers (R19, R101, R102),
limbs and quarter-limbs (R104 to R106), widths of a cast (R186). -/

namespace Sys2Proof.Machine

/-- `src(r)`: a value register or a constant (R8, R33). -/
def State.src (s : State) : Src → U256
  | .v r => s.readReg r
  | .zero => .ZERO
  | .one => .ONE
  | .max => .MAX

/-- Operand b: a source, or the narrow payload with upper = 0 (R76). -/
def State.operandB (s : State) : OperandB → U256
  | .src r => s.src r
  | .narrow h => ⟨0, h⟩

/-- A native unsigned integer: upper = 0, lower widened with zeros (R19, R101). -/
def nativeUnsigned : Native → U256
  | .w8 n => ⟨0, n.setWidth 128⟩
  | .w16 n => ⟨0, n.setWidth 128⟩
  | .w32 n => ⟨0, n.setWidth 128⟩
  | .w64 n => ⟨0, n.setWidth 128⟩

/-- The upper limb of a native signed integer: all ones if its top bit is set (R102). -/
def signLimb (negative : Bool) : Limb := if negative then BitVec.allOnes 128 else 0

/-- A native signed integer: the lower limb sign-extended, the upper limb all its sign (R19, R102, C4). -/
def nativeSigned : Native → U256
  | .w8 n => ⟨signLimb n.msb, n.signExtend 128⟩
  | .w16 n => ⟨signLimb n.msb, n.signExtend 128⟩
  | .w32 n => ⟨signLimb n.msb, n.signExtend 128⟩
  | .w64 n => ⟨signLimb n.msb, n.signExtend 128⟩

/-- A boolean as a value, 0 or 1 (R103). -/
def booleanValue (t : Bool) : U256 := ⟨0, if t then 1 else 0⟩

/-- Four quarter-limbs as a value, most significant first (R106). -/
def quarterValue (q3 q2 q1 q0 : Quarter) : U256 := ⟨lFromHalves q3 q2, lFromHalves q1 q0⟩

/-- The bytes of a cast: `w / 8` for the widths of R186. -/
def cvtBytes : CvtWidth → Nat
  | .w8 => 1
  | .w16 => 2
  | .w32 => 4
  | .w64 => 8
  | .w128 => 16

/-- The data of a cast: the low `w` bits of the lower limb, big-endian (R186). -/
def cvtData (w : CvtWidth) (a : U256) : List Byte :=
  bytesBE (a.lower.toNat % 2 ^ (8 * cvtBytes w)) (cvtBytes w)

/-- The data of an export: upper's bytes, then lower's bytes (R190). -/
def exportData (a : U256) : List Byte := lBytes a.upper ++ lBytes a.lower

/-- The data of a truncated export: the 32 bytes without their leading zero bytes; for the zero value, `zeroLen` zero bytes
(R191). -/
def exportTruncData (zeroLen : Nat) (a : U256) : List Byte :=
  if a = .ZERO then List.replicate zeroLen 0
  else (bytesBE a.val 32).dropWhile fun b => b == 0

end Sys2Proof.Machine
end

