-- ==== Sys2Proof/Machine/Additive.lean ====
section
/-! DEFINITION. The additive commands (spec R160 to R166). -/

namespace Sys2Proof.Machine

/-- `ADD rd, ra, b`: add (R161). -/
def execAdd (rd : Reg) (ra : Src) (b : OperandB) (s : State) : Host.Outcome State Fault Refusal :=
  writeResult rd (uAdd (s.src ra) (s.operandB b)) s

/-- `SUB rd, ra, b`: subtract (R162). -/
def execSub (rd : Reg) (ra : Src) (b : OperandB) (s : State) : Host.Outcome State Fault Refusal :=
  writeResult rd (uSub (s.src ra) (s.operandB b)) s

/-- `INC rd, ra`: increment (R163). -/
def execInc (rd : Reg) (ra : Src) (s : State) : Host.Outcome State Fault Refusal :=
  writeResult rd (uAdd (s.src ra) .ONE) s

/-- `DEC rd, ra`: decrement (R164). -/
def execDec (rd : Reg) (ra : Src) (s : State) : Host.Outcome State Fault Refusal :=
  writeResult rd (uSub (s.src ra) .ONE) s

/-- `NEG rd, ra`: negate, `0 - a` (R165). -/
def execNeg (rd : Reg) (ra : Src) (s : State) : Host.Outcome State Fault Refusal :=
  writeResult rd (uSub .ZERO (s.src ra)) s

/-- `POS rd, ra`: unary plus, also the register copy (R166). -/
def execPos (rd : Reg) (ra : Src) (s : State) : Host.Outcome State Fault Refusal :=
  writeResult rd (s.src ra) s

end Sys2Proof.Machine
end

