-- ==== Sys2Proof/Machine/Bitwise.lean ====
section
/-! DEFINITION. The bitwise commands (spec R140 to R144). -/

namespace Sys2Proof.Machine

/-- `AND rd, ra, b`: bitwise and (R141). -/
def execAnd (rd : Reg) (ra : Src) (b : OperandB) (s : State) : Host.Outcome State Fault Refusal :=
  writeResult rd (uAnd (s.src ra) (s.operandB b)) s

/-- `OR rd, ra, b`: bitwise or (R142). -/
def execOr (rd : Reg) (ra : Src) (b : OperandB) (s : State) : Host.Outcome State Fault Refusal :=
  writeResult rd (uOr (s.src ra) (s.operandB b)) s

/-- `XOR rd, ra, b`: bitwise exclusive or (R143). -/
def execXor (rd : Reg) (ra : Src) (b : OperandB) (s : State) : Host.Outcome State Fault Refusal :=
  writeResult rd (uXor (s.src ra) (s.operandB b)) s

/-- `NOT rd, ra`: bitwise complement (R144). -/
def execNot (rd : Reg) (ra : Src) (s : State) : Host.Outcome State Fault Refusal :=
  writeResult rd (uNot (s.src ra)) s

end Sys2Proof.Machine
end

