-- ==== Sys2Proof/Machine/Flags.lean ====
section
/-! DEFINITION. The response flag of every command that returns a boolean (spec R37, R52, R121 to R129, R187). The engine has
no flag register: the flag goes into the response and is stored nowhere. -/

namespace Sys2Proof.Machine

/-- `EQ` (R121). -/
def flagEq (a b : U256) : Bool := uEq a b

/-- `NE` (R122). -/
def flagNe (a b : U256) : Bool := !uEq a b

/-- `LT` (R123). -/
def flagLt (a b : U256) : Bool := uLt a b

/-- `GT` (R124). -/
def flagGt (a b : U256) : Bool := uGt a b

/-- `LE` (R125). -/
def flagLe (a b : U256) : Bool := uLe a b

/-- `GE` (R126). -/
def flagGe (a b : U256) : Bool := uGe a b

/-- `LAND`: both operands are nonzero (R127). -/
def flagLand (a b : U256) : Bool := uNonzero a && uNonzero b

/-- `LOR`: some operand is nonzero (R128). -/
def flagLor (a b : U256) : Bool := uNonzero a || uNonzero b

/-- `LNOT`: both limbs are 0 (R129). -/
def flagLnot (a : U256) : Bool := a.upper == 0 && a.lower == 0

/-- `TST`: some limb is not 0 (R187). -/
def flagTst (a : U256) : Bool := a.upper != 0 || a.lower != 0

end Sys2Proof.Machine
end

