-- ==== Sys2Proof/Machine/Comparison.lean ====
section
/-! DEFINITION. The comparison and logical commands: they write no register and return one boolean in the response flag
(spec R120 to R131). -/

namespace Sys2Proof.Machine

/-- `EQ ra, b`: equal (R121, R120). -/
def execEq (ra : Src) (b : OperandB) (s : State) : Host.Outcome State Fault Refusal :=
  answer (flagEq (s.src ra) (s.operandB b)) [] s

/-- `NE ra, b`: not equal (R122, R120). -/
def execNe (ra : Src) (b : OperandB) (s : State) : Host.Outcome State Fault Refusal :=
  answer (flagNe (s.src ra) (s.operandB b)) [] s

/-- `LT ra, b`: unsigned less than (R123, R120). -/
def execLt (ra : Src) (b : OperandB) (s : State) : Host.Outcome State Fault Refusal :=
  answer (flagLt (s.src ra) (s.operandB b)) [] s

/-- `GT ra, b`: unsigned greater than (R124, R120). -/
def execGt (ra : Src) (b : OperandB) (s : State) : Host.Outcome State Fault Refusal :=
  answer (flagGt (s.src ra) (s.operandB b)) [] s

/-- `LE ra, b`: unsigned less than or equal (R125, R120). -/
def execLe (ra : Src) (b : OperandB) (s : State) : Host.Outcome State Fault Refusal :=
  answer (flagLe (s.src ra) (s.operandB b)) [] s

/-- `GE ra, b`: unsigned greater than or equal (R126, R120). -/
def execGe (ra : Src) (b : OperandB) (s : State) : Host.Outcome State Fault Refusal :=
  answer (flagGe (s.src ra) (s.operandB b)) [] s

/-- `LAND ra, b`: logical and (R127, R120). -/
def execLand (ra : Src) (b : OperandB) (s : State) : Host.Outcome State Fault Refusal :=
  answer (flagLand (s.src ra) (s.operandB b)) [] s

/-- `LOR ra, b`: logical or (R128, R120). -/
def execLor (ra : Src) (b : OperandB) (s : State) : Host.Outcome State Fault Refusal :=
  answer (flagLor (s.src ra) (s.operandB b)) [] s

/-- `LNOT ra`: logical not (R129). -/
def execLnot (ra : Src) (s : State) : Host.Outcome State Fault Refusal :=
  answer (flagLnot (s.src ra)) [] s

end Sys2Proof.Machine
end

