-- ==== Sys2Proof/Machine/Radix.lean ====
section
/-! DEFINITION. The radix converter: digits of a text, Horner evaluation (spec R107, R108) and formatting (R189). -/

namespace Sys2Proof.Machine

/-- `digit(c)`: the digit value of a byte, none for a byte that is not alphanumeric (R108). -/
def digit (c : Byte) : Option Nat :=
  let n := c.toNat
  if 0x30 ≤ n ∧ n ≤ 0x39 then some (n - 0x30)
  else if 0x41 ≤ n ∧ n ≤ 0x5A then some (n - 0x41 + 10)
  else if 0x61 ≤ n ∧ n ≤ 0x7A then some (n - 0x61 + 10)
  else none

/-- `dchar(d)`: the character of a digit, lower-case letters (R189). -/
def dchar (d : Nat) : Byte := if d < 10 then BitVec.ofNat 8 (0x30 + d) else BitVec.ofNat 8 (0x61 + (d - 10))

/-- The character `0` (R189). -/
def zeroChar : Byte := 0x30

/-- One Horner step: the character's digit below the base, or none where R107 raises `INVALID_CHARACTER`. -/
def hornerStep (base : Nat) (v : U256) (c : Byte) : Option U256 :=
  match digit c with
  | none => none
  | some d => if base ≤ d then none else some (uAdd (uMul v (.fromNat base)) (.fromNat d))

/-- The loop of R107 over the characters from the most significant on. -/
def horner (base : Nat) : U256 → List Byte → Option U256
  | v, [] => some v
  | v, c :: text => match hornerStep base v c with
    | none => none
    | some v' => horner base v' text

/-- The value of a text in a base, none for an invalid character (R107). -/
def parseText (base : Nat) (text : List Byte) : Option U256 := horner base .ZERO text

/-- The loop `while v != ZERO` of R189, least significant digit first. `fuel` bounds it: a base of at least 2 halves `v`
in each pass, so 256 passes are enough for every value (R229). -/
def digitsLoop (base : Nat) : Nat → U256 → List Byte
  | 0, _ => []
  | fuel + 1, v =>
    if uNonzero v then
      match uDivmod v (.fromNat base) with
      | some (q, r) => dchar r.lower.toNat :: digitsLoop base fuel q
      | none => []
    else []

/-- The digits of a value, most significant first; the single digit `0` for zero (R189, D16). -/
def digitsOf (base : Nat) (a : U256) : List Byte :=
  if uNonzero a then (digitsLoop base 256 a).reverse else [zeroChar]

/-- `str(base, min_length)`: the digits, left-padded with `0` to the minimum length, never cut (R189). -/
def formatText (base minLength : Nat) (a : U256) : List Byte :=
  let out := digitsOf base a
  List.replicate (minLength - out.length) zeroChar ++ out

end Sys2Proof.Machine
end

