-- ==== Sys2Proof/Machine/Construction.lean ====
section
/-! DEFINITION. The load commands (spec R100 to R109). -/

namespace Sys2Proof.Machine

/-- `LDU.w rd, #n`: a native unsigned integer (R101). -/
def execLdu (rd : Reg) (n : Native) (s : State) : Host.Outcome State Fault Refusal :=
  writeResult rd (nativeUnsigned n) s

/-- `LDS.w rd, #n`: a native signed integer (R102). -/
def execLds (rd : Reg) (n : Native) (s : State) : Host.Outcome State Fault Refusal :=
  writeResult rd (nativeSigned n) s

/-- `LDB rd, #t`: a boolean (R103). -/
def execLdb (rd : Reg) (t : Bool) (s : State) : Host.Outcome State Fault Refusal :=
  writeResult rd (booleanValue t) s

/-- `LDH rd, #h`: a half-width value, upper = 0 (R104). -/
def execLdh (rd : Reg) (h : Limb) (s : State) : Host.Outcome State Fault Refusal :=
  writeResult rd ⟨0, h⟩ s

/-- `LDP rd, #u, #l`: upper part and lower part (R105). -/
def execLdp (rd : Reg) (u l : Limb) (s : State) : Host.Outcome State Fault Refusal :=
  writeResult rd ⟨u, l⟩ s

/-- `LDQ rd, #q3, #q2, #q1, #q0`: four quarter-limbs (R106). -/
def execLdq (rd : Reg) (q3 q2 q1 q0 : Quarter) (s : State) : Host.Outcome State Fault Refusal :=
  writeResult rd (quarterValue q3 q2 q1 q0) s

/-- `PARSE rd, "text", base` for a legal base and a text that fits: the value of the text, or `INVALID_CHARACTER` with `rd` not
written (R107, R201, D29). -/
def execParseLegal (rd : Reg) (text : List Byte) (base : Nat) (s : State) : Host.Outcome State Fault Refusal :=
  match parseText base text with
  | some v => writeResult rd v s
  | none => raise .invalidCharacter s

/-- `PARSE rd, "text", base` (R107); a base outside 2..36 is an illegal command, checked before any character (R80 (6)). -/
def execParse (rd : Reg) (text : List Byte) (base : Nat) (s : State) : Host.Outcome State Fault Refusal :=
  whenLegal (Instr.parse rd text base).wf (execParseLegal rd text base) s

end Sys2Proof.Machine
end

