-- ==== Sys2Proof/Machine/Conversion.lean ====
section
/-! DEFINITION. The conversion, size query and export commands: they write no register and return data or a flag
(spec R185 to R192). -/

namespace Sys2Proof.Machine

/-- `CVT.w ra`: narrowing cast (R186). -/
def execCvt (w : CvtWidth) (ra : Src) (s : State) : Host.Outcome State Fault Refusal :=
  answer false (cvtData w (s.src ra)) s

/-- `TST ra`: boolean cast (R187). -/
def execTst (ra : Src) (s : State) : Host.Outcome State Fault Refusal :=
  answer (flagTst (s.src ra)) [] s

/-- `BITS ra`: bit-length, as 2 bytes (R188). -/
def execBits (ra : Src) (s : State) : Host.Outcome State Fault Refusal :=
  answer false (bytesBE (uBits (s.src ra)) 2) s

/-- `STR ra, base, min_length` (R189, R75); a base outside 2..36 is an illegal command (R80 (6), C8). -/
def execStr (ra : Src) (base : Nat) (minLength : BitVec 16) (s : State) : Host.Outcome State Fault Refusal :=
  whenLegal (Instr.str ra base minLength).wf
    (fun s => answer false (formatText base minLength.toNat (s.src ra)) s) s

/-- `EXPORT ra`: the 32 bytes of the value (R190). -/
def execExportBits (ra : Src) (s : State) : Host.Outcome State Fault Refusal :=
  answer false (exportData (s.src ra)) s

/-- `EXPORTT ra`: the bytes without leading zero bytes; the zero value gives `TRUNC_ZERO_LEN` zero bytes (R191, U1). -/
def execExportTrunc (ra : Src) (s : State) : Host.Outcome State Fault Refusal :=
  answer false (exportTruncData Config.truncZeroLen.val (s.src ra)) s

end Sys2Proof.Machine
end

