-- ==== Sys2Proof/Machine/Divide.lean ====
section
/-! DEFINITION. The divide commands, the only arithmetic commands that raise an error (spec R175 to R182). -/

namespace Sys2Proof.Machine

/-- `DIVMOD rd, re, ra, b` with different destinations: both sources are read, then the quotient goes to `rd` and the remainder
to `re`; a zero divisor raises and writes neither (R177, R202, R226). -/
def execDivmodLegal (rd re : Reg) (ra : Src) (b : OperandB) (s : State) : Host.Outcome State Fault Refusal :=
  match uDivmod (s.src ra) (s.operandB b) with
  | some (q, r) => writeResult re r (s.writeReg rd q)
  | none => raise .divisionByZero s

/-- `DIVMOD rd, re, ra, b` (R177); `rd = re` is an illegal command, whatever the divisor (R80 (8), D23). -/
def execDivmod (rd re : Reg) (ra : Src) (b : OperandB) (s : State) : Host.Outcome State Fault Refusal :=
  whenLegal (Instr.divmod rd re ra b).wf (execDivmodLegal rd re ra b) s

/-- `DIV rd, ra, b`: the quotient (R178). -/
def execDiv (rd : Reg) (ra : Src) (b : OperandB) (s : State) : Host.Outcome State Fault Refusal :=
  match uDivmod (s.src ra) (s.operandB b) with
  | some (q, _) => writeResult rd q s
  | none => raise .divisionByZero s

/-- `MOD rd, ra, b`: the remainder (R179). -/
def execMod (rd : Reg) (ra : Src) (b : OperandB) (s : State) : Host.Outcome State Fault Refusal :=
  match uDivmod (s.src ra) (s.operandB b) with
  | some (_, r) => writeResult rd r s
  | none => raise .divisionByZero s

end Sys2Proof.Machine
end

