-- ==== Sys2Proof/Machine/Multiply.lean ====
section
/-! DEFINITION. The multiply command (spec R170 to R174). -/

namespace Sys2Proof.Machine

/-- `MUL rd, ra, b`: multiply, the low 256 bits (R171). -/
def execMul (rd : Reg) (ra : Src) (b : OperandB) (s : State) : Host.Outcome State Fault Refusal :=
  writeResult rd (uMul (s.src ra) (s.operandB b)) s

end Sys2Proof.Machine
end

