-- ==== Sys2Proof/Machine/Shift.lean ====
section
/-! DEFINITION. The shift commands: operand b is the whole 256-bit amount (spec R150 to R156). -/

namespace Sys2Proof.Machine

/-- `SHL rd, ra, b`: shift left (R153). -/
def execShl (rd : Reg) (ra : Src) (b : OperandB) (s : State) : Host.Outcome State Fault Refusal :=
  writeResult rd (uShl (s.src ra) (s.operandB b)) s

/-- `SHR rd, ra, b`: logical shift right (R154). -/
def execShr (rd : Reg) (ra : Src) (b : OperandB) (s : State) : Host.Outcome State Fault Refusal :=
  writeResult rd (uShr (s.src ra) (s.operandB b)) s

end Sys2Proof.Machine
end

