-- ==== Sys2Proof/Machine/Dispatch.lean ====
section
/-! DEFINITION. One arm for each command: the meaning of its family's file. -/

namespace Sys2Proof.Machine

def exec (i : Instr) (s : State) : Host.Outcome State Fault Refusal :=
  match i with
  | .ldu rd n => Sys2Proof.Machine.execLdu rd n s
  | .lds rd n => Sys2Proof.Machine.execLds rd n s
  | .ldb rd t => Sys2Proof.Machine.execLdb rd t s
  | .ldh rd h => Sys2Proof.Machine.execLdh rd h s
  | .ldp rd u l => Sys2Proof.Machine.execLdp rd u l s
  | .ldq rd q3 q2 q1 q0 => Sys2Proof.Machine.execLdq rd q3 q2 q1 q0 s
  | .parse rd text base => Sys2Proof.Machine.execParse rd text base s
  | .eq ra b => Sys2Proof.Machine.execEq ra b s
  | .ne ra b => Sys2Proof.Machine.execNe ra b s
  | .lt ra b => Sys2Proof.Machine.execLt ra b s
  | .gt ra b => Sys2Proof.Machine.execGt ra b s
  | .le ra b => Sys2Proof.Machine.execLe ra b s
  | .ge ra b => Sys2Proof.Machine.execGe ra b s
  | .land ra b => Sys2Proof.Machine.execLand ra b s
  | .lor ra b => Sys2Proof.Machine.execLor ra b s
  | .lnot ra => Sys2Proof.Machine.execLnot ra s
  | .and rd ra b => Sys2Proof.Machine.execAnd rd ra b s
  | .or rd ra b => Sys2Proof.Machine.execOr rd ra b s
  | .xor rd ra b => Sys2Proof.Machine.execXor rd ra b s
  | .not rd ra => Sys2Proof.Machine.execNot rd ra s
  | .shl rd ra b => Sys2Proof.Machine.execShl rd ra b s
  | .shr rd ra b => Sys2Proof.Machine.execShr rd ra b s
  | .add rd ra b => Sys2Proof.Machine.execAdd rd ra b s
  | .sub rd ra b => Sys2Proof.Machine.execSub rd ra b s
  | .inc rd ra => Sys2Proof.Machine.execInc rd ra s
  | .dec rd ra => Sys2Proof.Machine.execDec rd ra s
  | .neg rd ra => Sys2Proof.Machine.execNeg rd ra s
  | .pos rd ra => Sys2Proof.Machine.execPos rd ra s
  | .mul rd ra b => Sys2Proof.Machine.execMul rd ra b s
  | .divmod rd re ra b => Sys2Proof.Machine.execDivmod rd re ra b s
  | .div rd ra b => Sys2Proof.Machine.execDiv rd ra b s
  | .mod rd ra b => Sys2Proof.Machine.execMod rd ra b s
  | .cvt w ra => Sys2Proof.Machine.execCvt w ra s
  | .tst ra => Sys2Proof.Machine.execTst ra s
  | .bits ra => Sys2Proof.Machine.execBits ra s
  | .str ra base m => Sys2Proof.Machine.execStr ra base m s
  | .exportBits ra => Sys2Proof.Machine.execExportBits ra s
  | .exportTrunc ra => Sys2Proof.Machine.execExportTrunc ra s

end Sys2Proof.Machine
end

