-- ==== Sys2Proof/Machine/Command.lean ====
section
/-! DEFINITION. Carrying out one command packet: decode it, then run its meaning or answer `ILLEGAL_COMMAND` (spec R56, R80,
R203, R207). -/

namespace Sys2Proof.Machine

/-- Carry out a packet the engine has accepted. Decoding comes first, from the word and the payload length alone; an illegal
packet is answered with `ILLEGAL_COMMAND` and changes nothing (R203, R207). -/
def completePacket (p : Packet) (s : State) : Host.Outcome State Fault Refusal :=
  if presentable p then
    match decode p with
    | .ok i => exec i s
    | .error _ => raise .illegalCommand s
  else .fault .payloadTooLong

/-- Put a packet at the head of the port, with no command in execution before it (log entry 9). -/
def State.present (s : State) (p : Packet) : State := { s with port := .command p :: s.port, inExec := none }

end Sys2Proof.Machine
end

