-- ==== Sys2Proof/Machine/Step.lean ====
section
/-! DEFINITION. One step of the engine (spec R41, R56, R59, R64, R211, R220, R221): one whole command, or one other thing the host
does at the ports. -/

namespace Sys2Proof.Machine

/-- One step. A reset comes before everything else and discards what is under way (R220, R221). A command in execution is
completed before anything more is accepted (R56). Otherwise the next host event happens: a command is accepted and carried out
whole; with no event the engine is idle and holds its state (R211). -/
def step (s : State) : Host.Outcome State Fault Refusal :=
  match s.port, s.inExec with
  | .reset :: rest, _ => .next (s.applyReset rest)
  | _, some p => completePacket p s
  | [], none => .next s
  | .command p :: rest, none => completePacket p (s.accepted rest)
  | .accept p :: rest, none => acceptPacket p rest s
  | .take :: rest, none => .next { s.takeResponse with port := rest }
  | .interleaved :: _, none => .refused .interleavedPackets

/-- The state in which the very next step runs the instruction whose bits are `w`: its packet is the first thing the host
presents. -/
def State.withFetchWord (s : State) (nbits w : Nat) : State := s.present (tablePacket nbits w)

end Sys2Proof.Machine
end

