-- ==== Sys2Proof/Machine/Assembler.lean ====
section
/-! DEFINITION. The assembler level: the pseudo-instructions of spec R83 as the commands they stand for, the number operands
of R82, and the spelling of a command in the forms of R82. The machine never reads any of it: a host sends words. -/

namespace Sys2Proof

/-- The pseudo-instructions of R83; each `...A` form takes a register, a constant or `#h` as its last operand. `strDefault` is
`STR ra` with both defaults left out (R82). -/
inductive Pseudo where
  | mov (rd : Reg) (ra : Src)
  | clr (rd : Reg)
  | anda (rd : Reg) (b : OperandB)
  | ora (rd : Reg) (b : OperandB)
  | xora (rd : Reg) (b : OperandB)
  | shla (rd : Reg) (b : OperandB)
  | shra (rd : Reg) (b : OperandB)
  | adda (rd : Reg) (b : OperandB)
  | suba (rd : Reg) (b : OperandB)
  | mula (rd : Reg) (b : OperandB)
  | diva (rd : Reg) (b : OperandB)
  | moda (rd : Reg) (b : OperandB)
  | incr (rd : Reg)
  | decr (rd : Reg)
  | out (ra : Src)
  | strDefault (ra : Src)
  deriving DecidableEq, Repr

/-- The expansions of R83, and the defaults of `STR` (R82: base 10, minimum length 0). -/
def Pseudo.expand : Pseudo → Instr
  | .mov rd ra => .pos rd ra
  | .clr rd => .pos rd .zero
  | .anda rd b => .and rd (.v rd) b
  | .ora rd b => .or rd (.v rd) b
  | .xora rd b => .xor rd (.v rd) b
  | .shla rd b => .shl rd (.v rd) b
  | .shra rd b => .shr rd (.v rd) b
  | .adda rd b => .add rd (.v rd) b
  | .suba rd b => .sub rd (.v rd) b
  | .mula rd b => .mul rd (.v rd) b
  | .diva rd b => .div rd (.v rd) b
  | .moda rd b => .mod rd (.v rd) b
  | .incr rd => .inc rd (.v rd)
  | .decr rd => .dec rd (.v rd)
  | .out ra => .str ra 10 0
  | .strDefault ra => .str ra 10 0

/-- The number operand of `LDU.w` and `LDS.w`: `n mod 2^w` at the width's index `wc` (R82: 0 is 8 bits, 1 is 16, 2 is 32, 3 is
64); `n` may be negative. -/
def Native.ofInt (wc : Fin 4) (n : Int) : Native :=
  match wc with
  | 0 => .w8 (BitVec.ofInt 8 n)
  | 1 => .w16 (BitVec.ofInt 16 n)
  | 2 => .w32 (BitVec.ofInt 32 n)
  | 3 => .w64 (BitVec.ofInt 64 n)

/-! ### Spellings -/

/-- `V0` to `V7` (R82). -/
def Reg.spelling (r : Reg) : String := "V" ++ toString r.val

/-- A source (R82). -/
def Src.spelling : Src → String
  | .v r => Reg.spelling r
  | .zero => "ZERO"
  | .one => "ONE"
  | .max => "MAX"

/-- A payload operand as `#` and a decimal number (R82; log entry 19). -/
def numberSpelling (n : Int) : String := "#" ++ toString n

/-- Operand b: a source, or `#h` (R82). -/
def OperandB.spelling : OperandB → String
  | .src r => r.spelling
  | .narrow h => numberSpelling h.toNat

/-- The width and the unsigned number of a native operand (R82). -/
def Native.unsignedSpelling : Native → String × String
  | .w8 n => (".8", numberSpelling n.toNat)
  | .w16 n => (".16", numberSpelling n.toNat)
  | .w32 n => (".32", numberSpelling n.toNat)
  | .w64 n => (".64", numberSpelling n.toNat)

/-- The width and the signed number of a native operand (R82). -/
def Native.signedSpelling : Native → String × String
  | .w8 n => (".8", numberSpelling n.toInt)
  | .w16 n => (".16", numberSpelling n.toInt)
  | .w32 n => (".32", numberSpelling n.toInt)
  | .w64 n => (".64", numberSpelling n.toInt)

/-- The width of a `CVT` (R82). -/
def CvtWidth.spelling : CvtWidth → String
  | .w8 => ".8"
  | .w16 => ".16"
  | .w32 => ".32"
  | .w64 => ".64"
  | .w128 => ".128"

/-- A mnemonic and its operands, separated by commas (R82). -/
def lineSpelling (mnemonic : String) (operands : List String) : String :=
  mnemonic ++ " " ++ String.intercalate ", " operands

/-- A text payload in double quotes, one character a byte (R82; log entry 19). -/
def textSpelling (text : List Byte) : String :=
  "\"" ++ String.ofList (text.map fun b => Char.ofNat b.toNat) ++ "\""

/-- The mnemonic of a command, as spec/opcode_table.json has it (R72). -/
def Instr.mnemonic : Instr → String
  | .ldu _ _ => "LDU"
  | .lds _ _ => "LDS"
  | .ldb _ _ => "LDB"
  | .ldh _ _ => "LDH"
  | .ldp _ _ _ => "LDP"
  | .ldq _ _ _ _ _ => "LDQ"
  | .parse _ _ _ => "PARSE"
  | .eq _ _ => "EQ"
  | .ne _ _ => "NE"
  | .lt _ _ => "LT"
  | .gt _ _ => "GT"
  | .le _ _ => "LE"
  | .ge _ _ => "GE"
  | .land _ _ => "LAND"
  | .lor _ _ => "LOR"
  | .lnot _ => "LNOT"
  | .and _ _ _ => "AND"
  | .or _ _ _ => "OR"
  | .xor _ _ _ => "XOR"
  | .not _ _ => "NOT"
  | .shl _ _ _ => "SHL"
  | .shr _ _ _ => "SHR"
  | .add _ _ _ => "ADD"
  | .sub _ _ _ => "SUB"
  | .inc _ _ => "INC"
  | .dec _ _ => "DEC"
  | .neg _ _ => "NEG"
  | .pos _ _ => "POS"
  | .mul _ _ _ => "MUL"
  | .divmod _ _ _ _ => "DIVMOD"
  | .div _ _ _ => "DIV"
  | .mod _ _ _ => "MOD"
  | .cvt _ _ => "CVT"
  | .tst _ => "TST"
  | .bits _ => "BITS"
  | .str _ _ _ => "STR"
  | .exportBits _ => "EXPORT"
  | .exportTrunc _ => "EXPORTT"

/-- The operands of a command as R82 writes them, before the mnemonic's width suffix. -/
def Instr.operandSpellings : Instr → List String
  | .ldu rd n => [Reg.spelling rd, n.unsignedSpelling.2]
  | .lds rd n => [Reg.spelling rd, n.signedSpelling.2]
  | .ldb rd t => [Reg.spelling rd, if t then "#1" else "#0"]
  | .ldh rd h => [Reg.spelling rd, numberSpelling h.toNat]
  | .ldp rd u l => [Reg.spelling rd, numberSpelling u.toNat, numberSpelling l.toNat]
  | .ldq rd q3 q2 q1 q0 => Reg.spelling rd :: [q3, q2, q1, q0].map fun q => numberSpelling q.toNat
  | .parse rd text base => [Reg.spelling rd, textSpelling text, toString base]
  | .eq ra b | .ne ra b | .lt ra b | .gt ra b | .le ra b | .ge ra b | .land ra b | .lor ra b => [ra.spelling, b.spelling]
  | .and rd ra b | .or rd ra b | .xor rd ra b | .shl rd ra b | .shr rd ra b => [Reg.spelling rd, ra.spelling, b.spelling]
  | .add rd ra b | .sub rd ra b | .mul rd ra b | .div rd ra b | .mod rd ra b => [Reg.spelling rd, ra.spelling, b.spelling]
  | .not rd ra | .inc rd ra | .dec rd ra | .neg rd ra | .pos rd ra => [Reg.spelling rd, ra.spelling]
  | .divmod rd re ra b => [Reg.spelling rd, Reg.spelling re, ra.spelling, b.spelling]
  | .str ra base m => [ra.spelling, toString base, toString m.toNat]
  | .lnot ra | .cvt _ ra | .tst ra | .bits ra | .exportBits ra | .exportTrunc ra => [ra.spelling]

/-- The width suffix of a mnemonic: `LDU.w`, `LDS.w`, `CVT.w` (R82). -/
def Instr.suffix : Instr → String
  | .ldu _ n | .lds _ n => n.unsignedSpelling.1
  | .cvt w _ => w.spelling
  | _ => ""

/-- A command as one assembler line (R82). -/
def Instr.spelling (i : Instr) : String := lineSpelling (i.mnemonic ++ i.suffix) i.operandSpellings

end Sys2Proof
end

