-- ==== Sys2Proof/Safety.lean ====
section
/-! DEFINITION. The terms the claims are stated in: what a well-formed response is (spec R52), which registers a command names as
destinations (R34), what the host may soundly do (R51, R63, R64), the three shapes of a command's next state, the invariant of a
state, and sequential execution of packets (R59). -/

namespace Sys2Proof.Machine

/-! ### Responses -/

/-- The form of R52 and R200: a status that is not `OK` comes with flag 0 and no data, and data fits 65535 bytes. -/
abbrev Response.wf (r : Response) : Prop :=
  (r.status ≠ .ok → r.flag = false ∧ r.data = []) ∧ r.data.length ≤ Config.textMax

/-- Every response issued and not discarded, oldest first: those the host has taken, then the pending one. -/
def State.responses (s : State) : List Response := s.taken ++ s.rsp.toList

/-! ### The next states of a command -/

/-- After a command that writes `V[rd]`: that register, the response `OK`, nothing in execution; all else as before. -/
def State.afterWrite (s : State) (rd : Reg) (v : U256) : State :=
  { s with regs := s.regs.set rd v, rsp := some ⟨.ok, false, []⟩, inExec := none }

/-- After a command that writes no register: its response, nothing in execution; all else as before. -/
def State.afterAnswer (s : State) (flag : Bool) (data : List Byte) : State :=
  { s with rsp := some ⟨.ok, flag, data⟩, inExec := none }

/-- After a command that ends in an error: the error's response, nothing in execution; all else as before (R204). -/
def State.afterError (s : State) (e : Status) : State := { s with rsp := some ⟨e, false, []⟩, inExec := none }

/-! ### Commands -/

end Sys2Proof.Machine

namespace Sys2Proof

/-- The destinations a command names (R34): none for the commands that only read. -/
def Instr.destinations : Instr → List Reg
  | .ldu rd _ | .lds rd _ | .ldb rd _ | .ldh rd _ | .ldp rd _ _ | .ldq rd _ _ _ _ | .parse rd _ _ => [rd]
  | .and rd _ _ | .or rd _ _ | .xor rd _ _ | .not rd _ | .shl rd _ _ | .shr rd _ _ => [rd]
  | .add rd _ _ | .sub rd _ _ | .inc rd _ | .dec rd _ | .neg rd _ | .pos rd _ => [rd]
  | .mul rd _ _ | .div rd _ _ | .mod rd _ _ => [rd]
  | .divmod rd re _ _ => [rd, re]
  | .eq _ _ | .ne _ _ | .lt _ _ | .gt _ _ | .le _ _ | .ge _ _ | .land _ _ | .lor _ _ | .lnot _ => []
  | .cvt _ _ | .tst _ | .bits _ | .str _ _ _ | .exportBits _ | .exportTrunc _ => []

/-- The value registers a source names (R33). -/
def Src.regs : Src → List Reg
  | .v r => [r]
  | .zero | .one | .max => []

/-- The value registers operand b names (R76). -/
def OperandB.regs : OperandB → List Reg
  | .src r => r.regs
  | .narrow _ => []

/-- The value registers a command reads (R34). -/
def Instr.sources : Instr → List Reg
  | .ldu _ _ | .lds _ _ | .ldb _ _ | .ldh _ _ | .ldp _ _ _ | .ldq _ _ _ _ _ | .parse _ _ _ => []
  | .and _ ra b | .or _ ra b | .xor _ ra b | .shl _ ra b | .shr _ ra b => ra.regs ++ b.regs
  | .add _ ra b | .sub _ ra b | .mul _ ra b | .div _ ra b | .mod _ ra b | .divmod _ _ ra b => ra.regs ++ b.regs
  | .eq ra b | .ne ra b | .lt ra b | .gt ra b | .le ra b | .ge ra b | .land ra b | .lor ra b => ra.regs ++ b.regs
  | .not _ ra | .inc _ ra | .dec _ ra | .neg _ ra | .pos _ ra => ra.regs
  | .lnot ra | .cvt _ ra | .tst ra | .bits ra | .str ra _ _ | .exportBits ra | .exportTrunc ra => ra.regs

/-- The payload bytes of a native integer (R55, R73 (a)). -/
def Native.bytes : Native → Nat
  | .w8 _ => 1
  | .w16 _ => 2
  | .w32 _ => 4
  | .w64 _ => 8

/-- The payload bytes of operand b: none, or 16 in the narrow form (R55, R76). -/
def OperandB.bytes : OperandB → Nat
  | .src _ => 0
  | .narrow _ => 16

/-- The payload bytes of a command, by the table of R55. -/
def Instr.payloadBytes : Instr → Nat
  | .ldu _ n | .lds _ n => n.bytes
  | .ldb _ _ => 0
  | .ldh _ _ => 16
  | .ldp _ _ _ | .ldq _ _ _ _ _ => 32
  | .parse _ text _ => text.length
  | .eq _ b | .ne _ b | .lt _ b | .gt _ b | .le _ b | .ge _ b | .land _ b | .lor _ b => b.bytes
  | .and _ _ b | .or _ _ b | .xor _ _ b | .shl _ _ b | .shr _ _ b => b.bytes
  | .add _ _ b | .sub _ _ b | .mul _ _ b | .divmod _ _ _ b | .div _ _ b | .mod _ _ b => b.bytes
  | .not _ _ | .inc _ _ | .dec _ _ | .neg _ _ | .pos _ _ | .lnot _ | .tst _ => 0
  | .cvt _ _ | .bits _ | .exportBits _ | .exportTrunc _ => 0
  | .str _ _ _ => 2

/-- The commands whose result is a boolean (R37, R52). -/
def Instr.returnsFlag : Instr → Bool
  | .eq _ _ | .ne _ _ | .lt _ _ | .gt _ _ | .le _ _ | .ge _ _ | .land _ _ | .lor _ _ | .lnot _ | .tst _ => true
  | .ldu _ _ | .lds _ _ | .ldb _ _ | .ldh _ _ | .ldp _ _ _ | .ldq _ _ _ _ _ | .parse _ _ _ => false
  | .and _ _ _ | .or _ _ _ | .xor _ _ _ | .not _ _ | .shl _ _ _ | .shr _ _ _ => false
  | .add _ _ _ | .sub _ _ _ | .inc _ _ | .dec _ _ | .neg _ _ | .pos _ _ => false
  | .mul _ _ _ | .divmod _ _ _ _ | .div _ _ _ | .mod _ _ _ => false
  | .cvt _ _ | .bits _ | .str _ _ _ | .exportBits _ | .exportTrunc _ => false

/-- The commands that return data (R52, R55). -/
def Instr.returnsData : Instr → Bool
  | .cvt _ _ | .bits _ | .str _ _ _ | .exportBits _ | .exportTrunc _ => true
  | .eq _ _ | .ne _ _ | .lt _ _ | .gt _ _ | .le _ _ | .ge _ _ | .land _ _ | .lor _ _ | .lnot _ | .tst _ => false
  | .ldu _ _ | .lds _ _ | .ldb _ _ | .ldh _ _ | .ldp _ _ _ | .ldq _ _ _ _ _ | .parse _ _ _ => false
  | .and _ _ _ | .or _ _ _ | .xor _ _ _ | .not _ _ | .shl _ _ _ | .shr _ _ _ => false
  | .add _ _ _ | .sub _ _ _ | .inc _ _ | .dec _ _ | .neg _ _ | .pos _ _ => false
  | .mul _ _ _ | .divmod _ _ _ _ | .div _ _ _ | .mod _ _ _ => false

/-- The commands that can raise an error of the source: `PARSE`, `DIVMOD`, `DIV`, `MOD` (R206). -/
def Instr.canRaise : Instr → Bool
  | .parse _ _ _ | .divmod _ _ _ _ | .div _ _ _ | .mod _ _ _ => true
  | .ldu _ _ | .lds _ _ | .ldb _ _ | .ldh _ _ | .ldp _ _ _ | .ldq _ _ _ _ _ => false
  | .eq _ _ | .ne _ _ | .lt _ _ | .gt _ _ | .le _ _ | .ge _ _ | .land _ _ | .lor _ _ | .lnot _ => false
  | .and _ _ _ | .or _ _ _ | .xor _ _ _ | .not _ _ | .shl _ _ _ | .shr _ _ _ => false
  | .add _ _ _ | .sub _ _ _ | .inc _ _ | .dec _ _ | .neg _ _ | .pos _ _ | .mul _ _ _ => false
  | .cvt _ _ | .tst _ | .bits _ | .str _ _ _ | .exportBits _ | .exportTrunc _ => false

/-- The number a native operand denotes as an unsigned integer (R101). -/
def Native.unsigned : Native → Nat
  | .w8 n => n.toNat
  | .w16 n => n.toNat
  | .w32 n => n.toNat
  | .w64 n => n.toNat

/-- The number a native operand denotes as a two's-complement integer (R102). -/
def Native.signed : Native → Int
  | .w8 n => n.toInt
  | .w16 n => n.toInt
  | .w32 n => n.toInt
  | .w64 n => n.toInt

end Sys2Proof

namespace Sys2Proof.Machine

/-! ### States -/

/-- The invariant: every response, pending or taken, has the form of R52; a command in execution is a packet that can exist, and
while it is in execution no response is pending (R41, R51, R52, R64). -/
def State.Inv (s : State) : Prop :=
  (∀ r ∈ s.responses, r.wf) ∧ ∀ p, s.inExec = some p → presentable p = true ∧ s.rsp = none

/-- The host event is one the spec gives a meaning to: every packet fits, and no two masters interleave (R51, R63). -/
def HostEvent.sound : HostEvent → Bool
  | .command p | .accept p => presentable p
  | .take | .reset => true
  | .interleaved => false

/-- Everything the host is going to do, and the command in execution, is something the spec gives a meaning to. -/
def State.sound (s : State) : Prop :=
  (∀ e ∈ s.port, e.sound = true) ∧ ∀ p, s.inExec = some p → presentable p = true

/-- The engine goes on for `n` steps from `s`: neither a fault nor a refusal ends the run. -/
def State.goesOn (s : State) (n : Nat) : Prop := ∃ t, Host.Core.run Sys2Proof.core n s = .next t

/-! ### Sequential execution (R59) -/

/-- What one packet does to the registers, and its response: carried out on a state that holds nothing but the registers. -/
def applyPacket (p : Packet) (regs : Vector U256 8) : Vector U256 8 × Option Response :=
  match completePacket p { State.reset with regs := regs } with
  | .next t => (t.regs, t.rsp)
  | .fault _ => (regs, none)
  | .refused _ => (regs, none)

/-- What a sequence of packets does, rule after rule in order, and their responses (R59). -/
def applyPackets : List Packet → Vector U256 8 → Vector U256 8 × List Response
  | [], regs => (regs, [])
  | p :: ps, regs =>
    let one := applyPacket p regs
    let rest := applyPackets ps one.1
    (rest.1, one.2.toList ++ rest.2)

end Sys2Proof.Machine
end

