-- ==== Sys2Proof/Certificates/Slice0/Obligations.lean ====
section
/-! DEFINITION. The statements for the provers. Numbers are written through `U256.val` (spec R7, R30); a command's next state is one of
`State.afterWrite`, `State.afterAnswer` and `State.afterError`, which say all of it, so each result is also the command's frame. -/

open Sys2Proof Sys2Proof.Machine

/-! ### Reset, the invariant, the ports -/

/-- R43: after reset every value register is `ZERO`, nothing is in execution, no response is pending, and the first command executed
is the first the host presents. -/
def Obligations.ResetState : Prop :=
  (∀ r : Reg, (State.reset.readReg r).upper = 0 ∧ (State.reset.readReg r).lower = 0) ∧
  State.reset.inExec = none ∧ State.reset.rsp = none ∧
  ∀ (p : Packet) (i : Instr), presentable p = true → decode p = .ok i →
    step (State.reset.present p) = exec i State.reset

/-- The reset state meets the invariant (R43, R52). -/
def Obligations.ResetMeetsInvariant : Prop := State.reset.Inv

/-- Every step keeps the invariant: all responses, pending and taken, have the form of R52, and a command in execution is a packet
that can exist, with no response pending (R41, R51, R52, R64; the fields are the model's: log entries 3 and 4). -/
def Obligations.StepKeepsInvariant : Prop :=
  ∀ s t : State, s.Inv → step s = .next t → t.Inv

/-- A step runs the decoded command (R56). What stands around `exec` is the model's reading (log entries 1, 2 and 4): at the port the
previous response is taken first (R64); a command in execution is completed before anything but a reset (R221). -/
def Obligations.StepRunsDecodedCommand : Prop :=
  (∀ (s : State) (p : Packet) (rest : List HostEvent) (i : Instr),
    s.port = .command p :: rest → s.inExec = none → presentable p = true → decode p = .ok i →
    i.wf = true ∧
    step s = exec i { s with port := rest, rsp := none, taken := s.taken ++ s.rsp.toList }) ∧
  (∀ (s : State) (p : Packet) (i : Instr),
    s.inExec = some p → (∀ rest, s.port ≠ .reset :: rest) → presentable p = true → decode p = .ok i →
    i.wf = true ∧ step s = exec i s)

/-- R80, R203: a packet that is no legal command is answered `ILLEGAL_COMMAND`, flag 0, no data, and no register is written. What
stands around that answer is the model's reading (log entries 1, 2 and 4): at the port the previous response is taken first (R64), and
a command can be in execution between two steps. -/
def Obligations.IllegalPacketAnswered : Prop :=
  (∀ (s : State) (p : Packet) (rest : List HostEvent) (e : Illegal),
    s.port = .command p :: rest → s.inExec = none → presentable p = true → decode p = .error e →
    step s = .next { regs := s.regs, inExec := none, rsp := some ⟨.illegalCommand, false, []⟩, port := rest,
                     taken := s.taken ++ s.rsp.toList }) ∧
  (∀ (s : State) (p : Packet) (e : Illegal),
    s.inExec = some p → (∀ rest, s.port ≠ .reset :: rest) → presentable p = true → decode p = .error e →
    step s = .next (s.afterError .illegalCommand))

/-- R50, R64: every accepted packet gets exactly one response, after all earlier ones; the response before it has been taken (log
entry 2). -/
def Obligations.OneResponsePerPacket : Prop :=
  ∀ (s : State) (p : Packet) (rest : List HostEvent),
    s.port = .command p :: rest → s.inExec = none → presentable p = true →
    ∃ (regs : Vector U256 8) (r : Response),
      step s = .next { regs := regs, inExec := none, rsp := some r, port := rest, taken := s.taken ++ s.rsp.toList }

/-- R41, R56: a command accepted into execution and then completed is the command carried out whole in one step (the two events are
the model's: log entry 4). -/
def Obligations.AcceptThenCompleteIsAtomic : Prop :=
  ∀ (s : State) (p : Packet) (rest : List HostEvent),
    s.inExec = none → presentable p = true → (∀ rest', rest ≠ .reset :: rest') →
    Host.Core.run Sys2Proof.core 2 { s with port := .accept p :: rest } = step { s with port := .command p :: rest }

/-- R64, R211, R220: what the host does beside presenting commands. Taking a response changes no register; with nothing presented the
engine holds its state; the reset input gives the reset state of R43 from any state (the port's rest and the responses already taken
are the host's: log entry 15). -/
def Obligations.HostEventsAtThePorts : Prop :=
  (∀ (s : State) (r : Response) (rest : List HostEvent), s.port = .take :: rest → s.inExec = none → s.rsp = some r →
    step s = .next { s with port := rest, rsp := none, taken := s.taken ++ [r] }) ∧
  (∀ (s : State) (rest : List HostEvent), s.port = .take :: rest → s.inExec = none → s.rsp = none →
    step s = .next { s with port := rest }) ∧
  (∀ s : State, s.port = [] → s.inExec = none → step s = .next s) ∧
  (∀ (s : State) (rest : List HostEvent), s.port = .reset :: rest →
    step s = .next { regs := Vector.replicate 8 ⟨0, 0⟩, inExec := none, rsp := none, port := rest, taken := s.taken })

/-- R221: a reset while a command is in execution, or before its response has been taken, discards the command: no register keeps a
result, no response of it is issued, and the engine is ready for the next command. That the port's rest and the responses already taken
are kept is the model's choice (log entry 15); that accepting a command takes the pending response, and that it is accepted in one step
and completed in the next, is the model's reading (log entries 2 and 4), as are the lists of events and of responses (log entries 1
and 3). -/
def Obligations.ResetDiscardsCommand : Prop :=
  (∀ (s : State) (p : Packet) (rest : List HostEvent),
    s.port = .accept p :: .reset :: rest → s.inExec = none → presentable p = true →
    ∃ t : State, Host.Core.run Sys2Proof.core 2 s = .next t ∧ t.responses = s.responses ∧
      t.inExec = none ∧ t.port = rest ∧ ∀ r : Reg, t.readReg r = ⟨0, 0⟩) ∧
  (∀ (s : State) (r : Response) (rest : List HostEvent), s.port = .reset :: rest → s.rsp = some r →
    ∃ t : State, step s = .next t ∧ t.responses = s.taken ∧
      t.inExec = none ∧ t.port = rest ∧ ∀ d : Reg, t.readReg d = ⟨0, 0⟩) ∧
  (∀ (s : State) (rest rest' : List HostEvent) (q : Packet) (i : Instr),
    s.port = .reset :: rest → rest = .command q :: rest' → presentable q = true → decode q = .ok i →
    Host.Core.run Sys2Proof.core 2 s = exec i { State.reset with port := rest', taken := s.taken })

/-- R56, R59: commands presented one after another do what each does in turn, and their responses come in the same order (the list of
events and the list of responses are the model's: log entries 1 to 3). -/
def Obligations.CommandsRunInOrder : Prop :=
  ∀ (ps : List Packet) (s : State), s.inExec = none → (∀ p ∈ ps, presentable p = true) →
    s.port = ps.map HostEvent.command →
    ∃ t : State, Host.Core.run Sys2Proof.core ps.length s = .next t ∧
      t.regs = (applyPackets ps s.regs).1 ∧ t.responses = s.responses ++ (applyPackets ps s.regs).2 ∧
      (applyPackets ps s.regs).2.length = ps.length ∧ t.inExec = none ∧ t.port = []

/-- R204, R206, R228: while the host presents packets that exist, the engine never stops, however long it runs (which inputs exist:
log entries 7 and 8). -/
def Obligations.SoundRunsNeverStop : Prop :=
  ∀ (n : Nat) (s : State), s.sound → s.goesOn n

/-- The model's own choice (log entries 7 and 8; R51, R63, U2): a step stops on a packet longer than `TEXT_MAX` and on interleaved
packets, and on nothing else. -/
def Obligations.StepStopsOnlyOnImpossibleInput : Prop :=
  (∀ (s : State) (f : Fault), step s = .fault f ↔
    (∃ p, s.inExec = some p ∧ presentable p = false ∧ ∀ rest, s.port ≠ .reset :: rest) ∨
    (∃ p rest, s.inExec = none ∧ presentable p = false ∧ (s.port = .command p :: rest ∨ s.port = .accept p :: rest))) ∧
  (∀ (s : State) (r : Refusal), step s = .refused r ↔
    r = .interleavedPackets ∧ s.inExec = none ∧ ∃ rest, s.port = .interleaved :: rest)

/-! ### What every command does -/

/-- R52: every command ends with one response of this form: a status of the four codes, the flag only from a command whose result is a
boolean, data only from a conversion command, at most 65535 bytes; nothing but registers and response changes. A packet that is no
legal command gets a response of this form too. -/
def Obligations.EveryCommandAnswers : Prop :=
  (Status.ok.code = 0 ∧ Status.invalidCharacter.code = 1 ∧ Status.divisionByZero.code = 2 ∧ Status.illegalCommand.code = 3) ∧
  (∀ (i : Instr) (s : State), ∃ (regs : Vector U256 8) (r : Response),
    exec i s = .next { s with regs := regs, rsp := some r, inExec := none } ∧
    (r.status ≠ .ok → r.flag = false ∧ r.data = []) ∧
    (i.returnsFlag = false → r.flag = false) ∧ (i.returnsData = false → r.data = []) ∧
    r.data.length ≤ 65535) ∧
  ∀ (p : Packet) (e : Illegal) (s : State), presentable p = true → decode p = .error e →
    completePacket p s = .next { s with rsp := some ⟨.illegalCommand, false, []⟩, inExec := none }

/-- R34: no command writes a register it does not name as a destination, and a command that does not end with `OK` writes none. -/
def Obligations.OnlyNamedDestinationsWritten : Prop :=
  ∀ (i : Instr) (s t : State) (r : Response), exec i s = .next t → t.rsp = some r →
    (∀ d : Reg, d ∉ i.destinations → t.readReg d = s.readReg d) ∧
    (r.status ≠ .ok → ∀ d : Reg, t.readReg d = s.readReg d)

/-- R9, R59: the response and the values written depend on the command and the registers it names as sources, on nothing else. -/
def Obligations.ResultDependsOnSourcesOnly : Prop :=
  ∀ (i : Instr) (s s' : State), (∀ r ∈ i.sources, s.readReg r = s'.readReg r) →
    ∃ (t t' : State) (r : Response), exec i s = .next t ∧ exec i s' = .next t' ∧ t.rsp = some r ∧ t'.rsp = some r ∧
      (r.status = .ok → ∀ d ∈ i.destinations, t.readReg d = t'.readReg d)

/-- R57: a command that writes no register, repeated, gives the same response and leaves the registers as they were. -/
def Obligations.ReadingCommandsAreIdempotent : Prop :=
  ∀ (i : Instr) (s : State), i.destinations = [] →
    ∃ r : Response, exec i s = .next { s with rsp := some r, inExec := none } ∧
      ∀ (taken : List Response) (port : List HostEvent),
        exec i { s with rsp := none, inExec := none, taken := taken, port := port } =
          .next { s with rsp := some r, inExec := none, taken := taken, port := port }

/-- R204: an error leaves no trace. The command's only effect is its response, and whatever command comes next does what it would
have done without the error. -/
def Obligations.ErrorsLeaveNoTrace : Prop :=
  ∀ (i : Instr) (s t : State) (r : Response), exec i s = .next t → t.rsp = some r → r.status ≠ .ok →
    t = s.afterError r.status ∧
    ∀ j : Instr, ∃ (regs : Vector U256 8) (r' : Response),
      exec j s = .next { s with regs := regs, rsp := some r', inExec := none } ∧
      exec j t = .next { s with regs := regs, rsp := some r', inExec := none }

/-- R206: given a legal packet, the commands other than `PARSE`, `DIVMOD`, `DIV` and `MOD` always end with `OK`. -/
def Obligations.OtherCommandsAreTotal : Prop :=
  ∀ (p : Packet) (i : Instr) (s : State), decode p = .ok i →
    (∀ rd text base, i ≠ .parse rd text base) → (∀ rd re ra b, i ≠ .divmod rd re ra b) →
    (∀ rd ra b, i ≠ .div rd ra b) → (∀ rd ra b, i ≠ .mod rd ra b) →
    ∃ (t : State) (r : Response), exec i s = .next t ∧ t.rsp = some r ∧ r.status = .ok

/-- R207: whether a packet is legal depends on the word and the payload length alone; an illegal packet gets `ILLEGAL_COMMAND`
whatever the state; a legal one never does, `INVALID_CHARACTER` comes from `PARSE` only and `DIVISION_BY_ZERO` from the divide
commands only. -/
def Obligations.IllegalIsDecidedFirst : Prop :=
  (∀ (w : BitVec 32) (pl pl' : List Byte), pl.length = pl'.length →
    ((∃ i, decode ⟨w, pl⟩ = .ok i) ↔ ∃ i, decode ⟨w, pl'⟩ = .ok i)) ∧
  (∀ (p : Packet) (e : Illegal) (s : State), presentable p = true → decode p = .error e →
    completePacket p s = .next (s.afterError .illegalCommand)) ∧
  (∀ (p : Packet) (i : Instr) (s : State), decode p = .ok i →
    ∃ (t : State) (r : Response), exec i s = .next t ∧ t.rsp = some r ∧ r.status ≠ .illegalCommand ∧
      (r.status = .invalidCharacter → i.opcode = .parse) ∧
      (r.status = .divisionByZero → i.opcode = .divmod ∨ i.opcode = .div ∨ i.opcode = .mod))

/-- The model's own choice for terms that no packet decodes to (log entry 12; R80): they answer `ILLEGAL_COMMAND`; `DIVMOD` with equal
destinations does so whatever the divisor, `PARSE` and `STR` with a base outside 2..36 whatever the text and value. -/
def Obligations.IllFormedTermsAnswerIllegal : Prop :=
  ∀ (i : Instr) (s : State), i.wf = false → exec i s = .next (s.afterError .illegalCommand)

/-! ### Encoding -/

/-- R79: encoding a legal command and decoding it gives the command back, every operand at every value. -/
def Obligations.DecodeOfEncode : Prop :=
  ∀ i : Instr, i.wf = true → decode (encode i) = .ok i ∧ presentable (encode i) = true

/-- R79: decoding followed by encoding gives the packet back, so each legal command has exactly one encoding; bit 24 is 0 in it, and
what decodes is well-formed. -/
def Obligations.EncodeOfDecode : Prop :=
  (∀ (p : Packet) (i : Instr), decode p = .ok i → encode i = p ∧ i.wf = true ∧ p.word.getLsbD 24 = false) ∧
  (∀ (p q : Packet) (i : Instr), decode p = .ok i → decode q = .ok i → p = q)

/-- R85: a packet is legal exactly when some row of the opcode table admits it, and then the row is its command's. -/
def Obligations.DecoderMatchesOpcodeTable : Prop :=
  (∀ p : Packet, (∃ i, decode p = .ok i) ↔ ∃ row ∈ opcodeTable, row.admits p = true) ∧
  (∀ (p : Packet) (i : Instr) (row : OpRow), decode p = .ok i → row ∈ opcodeTable → row.admits p = true →
    row.opcode = i.opcode)

/-- R78: the unassigned opcodes, and with them the all-zero and the all-ones word, are illegal with any payload. -/
def Obligations.UnassignedOpcodesIllegal : Prop :=
  (∀ (w : BitVec 32) (pl : List Byte) (s : State),
    (w >>> 26).toNat ∈ [0x00, 0x0E, 0x0F, 0x13, 0x14, 0x15, 0x16, 0x17, 0x1C, 0x1D, 0x1E, 0x1F, 0x22, 0x23, 0x24, 0x25,
      0x26, 0x27, 0x2E, 0x2F, 0x34, 0x35, 0x36, 0x37, 0x3E, 0x3F] → pl.length ≤ 65535 →
    completePacket ⟨w, pl⟩ s = .next (s.afterError .illegalCommand)) ∧
  (∀ (pl : List Byte) (s : State), pl.length ≤ 65535 →
    completePacket ⟨0, pl⟩ s = .next (s.afterError .illegalCommand) ∧
    completePacket ⟨0xFFFFFFFF, pl⟩ s = .next (s.afterError .illegalCommand))

/-- R55: the payload length of every legal packet is the one the table gives its command. -/
def Obligations.PayloadLengths : Prop :=
  ∀ (p : Packet) (i : Instr), decode p = .ok i → p.payload.length = i.payloadBytes ∧ p.payload.length ≤ 65535

/-- R70: the value of a command word is the sum of its fields at their weights, and the fields are read back from it. -/
def Obligations.WordIsSumOfFields : Prop :=
  (∀ f : Fields, (pack f).toNat =
    f.op.toNat * 2 ^ 26 + f.n.toNat * 2 ^ 25 + f.z.toNat * 2 ^ 24 + f.rd.toNat * 2 ^ 20 + f.re.toNat * 2 ^ 16 +
      f.ra.toNat * 2 ^ 12 + f.rb.toNat * 2 ^ 8 + f.aux.toNat) ∧
  (∀ f : Fields, unpack (pack f) = f) ∧ (∀ w : BitVec 32, pack (unpack w) = w)

/-- R32, R33, R77: the register specifiers as sources and as destinations, the values of the constants, and that a write replaces one
whole register and no other. -/
def Obligations.RegistersAndSpecifiers : Prop :=
  (∀ (r : Reg) (s : State), source (BitVec.ofNat 4 r.val) = .ok (.v r) ∧ destination (BitVec.ofNat 4 r.val) = .ok r ∧
    s.src (.v r) = s.readReg r) ∧
  source 8 = .ok .zero ∧ source 9 = .ok .one ∧ source 10 = .ok .max ∧
  (∀ r : BitVec 4, 11 ≤ r.toNat → source r = .error .badSpecifier) ∧
  (∀ r : BitVec 4, 8 ≤ r.toNat → destination r = .error .badSpecifier) ∧
  (∀ s : State, (s.src .zero).val = 0 ∧ (s.src .one).val = 1 ∧ (s.src .max).val = 2 ^ 256 - 1) ∧
  (∀ (s : State) (rd z : Reg) (v : U256), (s.afterWrite rd v).readReg z = if z = rd then v else s.readReg z)

/-- R76: operand b. With `N = 0` it is the source `rb` names and there is no payload; with `N = 1`, `rb` is 0 and the 16-byte payload,
big-endian, is the lower limb of a value with upper = 0. -/
def Obligations.OperandBForms : Prop :=
  (∀ (f : Fields) (pl : List Byte) (b : OperandB), f.n = 0 →
    (operandB f pl = .ok b ↔ pl = [] ∧ ∃ r, source f.rb = .ok r ∧ b = .src r)) ∧
  (∀ (f : Fields) (pl : List Byte) (b : OperandB), f.n = 1 →
    (operandB f pl = .ok b ↔ f.rb = 0 ∧ pl.length = 16 ∧ ∃ h : Limb, h.toNat = be pl ∧ b = .narrow h)) ∧
  (∀ (s : State) (r : Src), s.operandB (.src r) = s.src r) ∧
  (∀ (s : State) (h : Limb), (s.operandB (.narrow h)).upper = 0 ∧ (s.operandB (.narrow h)).lower = h)

/-- R84: the worked encodings, decoded and encoded. -/
def Obligations.WorkedEncodings : Prop :=
  ∀ x ∈ ([
    (.add 2 (.v 0) (.src (.v 1)), ⟨0xA0200100, []⟩),
    (.add 2 (.v 0) (.narrow 7), ⟨0xA2200000, [0, 0, 0, 0, 0, 0, 0, 0, 0, 0, 0, 0, 0, 0, 0, 7]⟩),
    (.ldu 0 (.w64 5), ⟨0x04000003, [0, 0, 0, 0, 0, 0, 0, 5]⟩),
    (.lds 3 (Native.ofInt 0 (-1)), ⟨0x08300000, [0xFF]⟩),
    (.parse 1 [0x66, 0x66] 16, ⟨0x1C100010, [0x66, 0x66]⟩),
    (.divmod 2 3 (.v 0) (.src (.v 1)), ⟨0xC4230100, []⟩),
    (.eq (.v 4) (.src (.v 0)), ⟨0x20004000, []⟩),
    (.str (.v 0) 16 0, ⟨0xEC000010, [0, 0]⟩),
    (.cvt .w128 (.v 5), ⟨0xE0005004, []⟩),
    ((Pseudo.mov 1 .max).expand, ⟨0xB410A000, []⟩),
    (.exportBits (.v 7), ⟨0xF0007000, []⟩),
    ((Pseudo.incr 0).expand, ⟨0xA8000000, []⟩)] : List (Instr × Packet)),
  decode x.2 = .ok x.1 ∧ encode x.1 = x.2

/-- R83: what the pseudo-instructions do to the machine. -/
def Obligations.PseudoInstructions : Prop :=
  (∀ (s : State) (rd : Reg) (ra : Src), exec (Pseudo.mov rd ra).expand s = .next (s.afterWrite rd (s.src ra))) ∧
  (∀ (s : State) (rd : Reg), exec (Pseudo.clr rd).expand s = .next (s.afterWrite rd ⟨0, 0⟩)) ∧
  (∀ (rd : Reg) (b : OperandB),
    (Pseudo.anda rd b).expand = .and rd (.v rd) b ∧ (Pseudo.ora rd b).expand = .or rd (.v rd) b ∧
    (Pseudo.xora rd b).expand = .xor rd (.v rd) b ∧ (Pseudo.shla rd b).expand = .shl rd (.v rd) b ∧
    (Pseudo.shra rd b).expand = .shr rd (.v rd) b ∧ (Pseudo.adda rd b).expand = .add rd (.v rd) b ∧
    (Pseudo.suba rd b).expand = .sub rd (.v rd) b ∧ (Pseudo.mula rd b).expand = .mul rd (.v rd) b ∧
    (Pseudo.diva rd b).expand = .div rd (.v rd) b ∧ (Pseudo.moda rd b).expand = .mod rd (.v rd) b ∧
    (Pseudo.incr rd).expand = .inc rd (.v rd) ∧ (Pseudo.decr rd).expand = .dec rd (.v rd)) ∧
  (∀ ra : Src, (Pseudo.out ra).expand = .str ra 10 0)

/-! ### Construction -/

/-- R101, R103, R104: `LDU` writes the unsigned number of its operand at every width, `LDB` 0 or 1, `LDH` the limb with upper = 0. -/
def Obligations.LduLdbLdhResults : Prop :=
  (∀ (rd : Reg) (n : Native) (s : State), ∃ v : U256,
    v.val = n.unsigned ∧ exec (.ldu rd n) s = .next (s.afterWrite rd v)) ∧
  (∀ (rd : Reg) (t : Bool) (s : State), ∃ v : U256,
    v.val = (if t then 1 else 0) ∧ exec (.ldb rd t) s = .next (s.afterWrite rd v)) ∧
  (∀ (rd : Reg) (h : Limb) (s : State), ∃ v : U256,
    v.upper = 0 ∧ v.lower = h ∧ exec (.ldh rd h) s = .next (s.afterWrite rd v))

/-- R102: `LDS` writes the 256-bit two's-complement encoding of the signed number of its operand; the upper limb is all ones exactly
when it is negative. -/
def Obligations.LdsResult : Prop :=
  ∀ (rd : Reg) (n : Native) (s : State), ∃ v : U256,
    (v.val : Int) = n.signed % 2 ^ 256 ∧ v.upper = (if n.signed < 0 then BitVec.allOnes 128 else 0) ∧
    exec (.lds rd n) s = .next (s.afterWrite rd v)

/-- R105, R106: `LDP` writes its two parts, `LDQ` the value of its four quarter-limbs. -/
def Obligations.LdpLdqResults : Prop :=
  (∀ (rd : Reg) (u l : Limb) (s : State), ∃ v : U256,
    v.upper = u ∧ v.lower = l ∧ exec (.ldp rd u l) s = .next (s.afterWrite rd v)) ∧
  (∀ (rd : Reg) (q3 q2 q1 q0 : Quarter) (s : State), ∃ v : U256,
    v.val = q3.toNat * 2 ^ 192 + q2.toNat * 2 ^ 128 + q1.toNat * 2 ^ 64 + q0.toNat ∧
    exec (.ldq rd q3 q2 q1 q0) s = .next (s.afterWrite rd v))

/-- R105, R106: every 32-byte payload is one `LDP` and one `LDQ`, and both write the big-endian value of the payload. -/
def Obligations.LdpLdqImportBytes : Prop :=
  ∀ (rd : Reg) (pl : List Byte) (s : State), pl.length = 32 →
    ∃ (i j : Instr) (v : U256), decode ⟨pack (fieldsL .ldp rd 0), pl⟩ = .ok i ∧ decode ⟨pack (fieldsL .ldq rd 0), pl⟩ = .ok j ∧
      v.val = be pl ∧ exec i s = .next (s.afterWrite rd v) ∧ exec j s = .next (s.afterWrite rd v)

/-- R105, R190: `LDP` of the 32 bytes `EXPORT` returned restores the value. -/
def Obligations.LdpRestoresExport : Prop :=
  ∀ (ra : Src) (rd : Reg) (s s' : State), ∃ (data : List Byte) (i : Instr),
    exec (.exportBits ra) s = .next (s.afterAnswer false data) ∧
    decode ⟨pack (fieldsL .ldp rd 0), data⟩ = .ok i ∧ exec i s' = .next (s'.afterWrite rd (s.src ra))

/-- R108: the digit value of every byte. The code points are the spec's own addition from general knowledge (G1, log entry 13). -/
def Obligations.DigitValues : Prop :=
  ∀ c : Byte,
    (0x30 ≤ c.toNat ∧ c.toNat ≤ 0x39 → digit c = some (c.toNat - 0x30)) ∧
    (0x41 ≤ c.toNat ∧ c.toNat ≤ 0x5A → digit c = some (c.toNat - 0x41 + 10)) ∧
    (0x61 ≤ c.toNat ∧ c.toNat ≤ 0x7A → digit c = some (c.toNat - 0x61 + 10)) ∧
    (¬(0x30 ≤ c.toNat ∧ c.toNat ≤ 0x39) ∧ ¬(0x41 ≤ c.toNat ∧ c.toNat ≤ 0x5A) ∧ ¬(0x61 ≤ c.toNat ∧ c.toNat ≤ 0x7A) →
      digit c = none)

/-- R109: the result of `PARSE` in closed form. `ds` are the digits of the text, the first the most significant. -/
def Obligations.ParseClosedForm : Prop :=
  ∀ (rd : Reg) (text : List Byte) (base : Nat) (ds : List Nat) (s : State),
    2 ≤ base → base ≤ 36 → text.length ≤ 65535 → text.map digit = ds.map some → (∀ d ∈ ds, d < base) →
    ∃ v : U256, v.val = Nat.ofDigits base ds.reverse % 2 ^ 256 ∧
      exec (.parse rd text base) s = .next (s.afterWrite rd v)

/-- R201: `INVALID_CHARACTER` comes from `PARSE` and from no other command, exactly when some byte of the text is no digit of the
base; the empty text never raises it. -/
def Obligations.InvalidCharacterExactly : Prop :=
  (∀ (rd : Reg) (text : List Byte) (base : Nat) (s : State), 2 ≤ base → base ≤ 36 → text.length ≤ 65535 →
    (exec (.parse rd text base) s = .next (s.afterError .invalidCharacter) ↔
      ∃ c ∈ text, digit c = none ∨ ∃ d, digit c = some d ∧ base ≤ d)) ∧
  (∀ (i : Instr) (s t : State) (r : Response), exec i s = .next t → t.rsp = some r → r.status = .invalidCharacter →
    ∃ rd text base, i = .parse rd text base ∧ text ≠ [] ∧ t = s.afterError .invalidCharacter)

/-- R110: `PARSE` of the text `STR` produced gives the value back, with any minimum length and from any state; `STR` emits no
upper-case letter, and `PARSE` takes both cases. -/
def Obligations.ParseUndoesStr : Prop :=
  (∀ (ra : Src) (rd : Reg) (base : Nat) (m : BitVec 16) (s s' : State), 2 ≤ base → base ≤ 36 →
    ∃ text : List Byte, exec (.str ra base m) s = .next (s.afterAnswer false text) ∧
      (∀ c ∈ text, ¬(0x41 ≤ c.toNat ∧ c.toNat ≤ 0x5A)) ∧
      exec (.parse rd text base) s' = .next (s'.afterWrite rd (s.src ra))) ∧
  (∀ (rd : Reg) (base : Nat) (text : List Byte) (s : State),
    exec (.parse rd (text.map fun c => if 0x61 ≤ c.toNat ∧ c.toNat ≤ 0x7A then c - 0x20 else c) base) s =
      exec (.parse rd text base) s)

/-! ### Comparison and logic -/

/-- R121 to R126: each comparison answers the comparison of the integers, and nothing else changes. -/
def Obligations.ComparisonFlags : Prop :=
  ∀ (ra : Src) (b : OperandB) (s : State),
    exec (.eq ra b) s = .next (s.afterAnswer (decide ((s.src ra).val = (s.operandB b).val)) []) ∧
    exec (.ne ra b) s = .next (s.afterAnswer (decide ((s.src ra).val ≠ (s.operandB b).val)) []) ∧
    exec (.lt ra b) s = .next (s.afterAnswer (decide ((s.src ra).val < (s.operandB b).val)) []) ∧
    exec (.gt ra b) s = .next (s.afterAnswer (decide ((s.src ra).val > (s.operandB b).val)) []) ∧
    exec (.le ra b) s = .next (s.afterAnswer (decide ((s.src ra).val ≤ (s.operandB b).val)) []) ∧
    exec (.ge ra b) s = .next (s.afterAnswer (decide ((s.src ra).val ≥ (s.operandB b).val)) [])

/-- R127, R128, R129, R187: the logical commands and `TST` answer by whether the integers are 0. -/
def Obligations.LogicalFlags : Prop :=
  ∀ (ra : Src) (b : OperandB) (s : State),
    exec (.land ra b) s = .next (s.afterAnswer (decide ((s.src ra).val ≠ 0 ∧ (s.operandB b).val ≠ 0)) []) ∧
    exec (.lor ra b) s = .next (s.afterAnswer (decide ((s.src ra).val ≠ 0 ∨ (s.operandB b).val ≠ 0)) []) ∧
    exec (.lnot ra) s = .next (s.afterAnswer (decide ((s.src ra).val = 0)) []) ∧
    exec (.tst ra) s = .next (s.afterAnswer (decide ((s.src ra).val ≠ 0)) [])

/-- R130: the laws of the order. -/
def Obligations.OrderLaws : Prop :=
  (∀ a b : U256, (flagLt a b = true ∧ flagEq a b = false ∧ flagGt a b = false) ∨
    (flagLt a b = false ∧ flagEq a b = true ∧ flagGt a b = false) ∨
    (flagLt a b = false ∧ flagEq a b = false ∧ flagGt a b = true)) ∧
  (∀ a b : U256, flagNe a b = !flagEq a b) ∧
  (∀ a b : U256, flagLe a b = (flagLt a b || flagEq a b)) ∧
  (∀ a b : U256, flagGe a b = (flagGt a b || flagEq a b)) ∧
  (∀ a b c : U256, flagLt a b = true → flagLt b c = true → flagLt a c = true) ∧
  (∀ a b : U256, flagEq a b = true ↔ a.val = b.val)

/-! ### Bitwise, shift -/

/-- R141 to R144: the bitwise commands on the 256-bit integers. -/
def Obligations.BitwiseResults : Prop :=
  ∀ (rd : Reg) (ra : Src) (b : OperandB) (s : State),
    (∃ v : U256, v.val = (s.src ra).val &&& (s.operandB b).val ∧ exec (.and rd ra b) s = .next (s.afterWrite rd v)) ∧
    (∃ v : U256, v.val = (s.src ra).val ||| (s.operandB b).val ∧ exec (.or rd ra b) s = .next (s.afterWrite rd v)) ∧
    (∃ v : U256, v.val = (s.src ra).val ^^^ (s.operandB b).val ∧ exec (.xor rd ra b) s = .next (s.afterWrite rd v)) ∧
    (∃ v : U256, v.val = 2 ^ 256 - 1 - (s.src ra).val ∧ exec (.not rd ra) s = .next (s.afterWrite rd v))

/-- R153: `SHL` in closed form, for every 256-bit amount. -/
def Obligations.ShlResult : Prop :=
  ∀ (rd : Reg) (ra : Src) (b : OperandB) (s : State), ∃ v : U256,
    v.val = (if (s.operandB b).val < 256 then (s.src ra).val * 2 ^ (s.operandB b).val % 2 ^ 256 else 0) ∧
    exec (.shl rd ra b) s = .next (s.afterWrite rd v)

/-- R154: `SHR` in closed form, for every 256-bit amount. -/
def Obligations.ShrResult : Prop :=
  ∀ (rd : Reg) (ra : Src) (b : OperandB) (s : State), ∃ v : U256,
    v.val = (if (s.operandB b).val < 256 then (s.src ra).val / 2 ^ (s.operandB b).val else 0) ∧
    exec (.shr rd ra b) s = .next (s.afterWrite rd v)

/-- R155: a shift by 256 or more gives zero, in both directions. -/
def Obligations.ShiftsSaturate : Prop :=
  ∀ (rd : Reg) (ra : Src) (b : OperandB) (s : State), 256 ≤ (s.operandB b).val →
    exec (.shl rd ra b) s = .next (s.afterWrite rd ⟨0, 0⟩) ∧ exec (.shr rd ra b) s = .next (s.afterWrite rd ⟨0, 0⟩)

/-! ### Arithmetic -/

/-- R161, R162: `ADD` and `SUB` modulo 2^256. -/
def Obligations.AddSubResults : Prop :=
  ∀ (rd : Reg) (ra : Src) (b : OperandB) (s : State),
    (∃ v : U256, v.val = ((s.src ra).val + (s.operandB b).val) % 2 ^ 256 ∧
      exec (.add rd ra b) s = .next (s.afterWrite rd v)) ∧
    (∃ v : U256, (v.val : Int) = ((s.src ra).val - (s.operandB b).val : Int) % 2 ^ 256 ∧
      exec (.sub rd ra b) s = .next (s.afterWrite rd v))

/-- R163 to R166: `INC`, `DEC`, `NEG` modulo 2^256, and `POS`, the copy. -/
def Obligations.UnaryAdditiveResults : Prop :=
  ∀ (rd : Reg) (ra : Src) (s : State),
    (∃ v : U256, v.val = ((s.src ra).val + 1) % 2 ^ 256 ∧ exec (.inc rd ra) s = .next (s.afterWrite rd v)) ∧
    (∃ v : U256, (v.val : Int) = ((s.src ra).val - 1 : Int) % 2 ^ 256 ∧ exec (.dec rd ra) s = .next (s.afterWrite rd v)) ∧
    (∃ v : U256, v.val = (2 ^ 256 - (s.src ra).val) % 2 ^ 256 ∧ exec (.neg rd ra) s = .next (s.afterWrite rd v)) ∧
    exec (.pos rd ra) s = .next (s.afterWrite rd (s.src ra))

/-- R170: `MUL` writes the low 256 bits of the mathematical product, and returns nothing more of it. -/
def Obligations.MulResult : Prop :=
  ∀ (rd : Reg) (ra : Src) (b : OperandB) (s : State), ∃ v : U256,
    v.val = (s.src ra).val * (s.operandB b).val % 2 ^ 256 ∧ exec (.mul rd ra b) s = .next (s.afterWrite rd v)

/-- R175, R177 to R179: for a divisor other than zero, the exact quotient and remainder, written by `DIV`, `MOD` and `DIVMOD`. -/
def Obligations.DivideResults : Prop :=
  ∀ (ra : Src) (b : OperandB) (s : State), (s.operandB b).val ≠ 0 → ∃ q r : U256,
    q.val = (s.src ra).val / (s.operandB b).val ∧ r.val = (s.src ra).val % (s.operandB b).val ∧
    (∀ rd : Reg, exec (.div rd ra b) s = .next (s.afterWrite rd q)) ∧
    (∀ rd : Reg, exec (.mod rd ra b) s = .next (s.afterWrite rd r)) ∧
    (∀ rd re : Reg, rd ≠ re → exec (.divmod rd re ra b) s = .next ((s.afterWrite rd q).afterWrite re r))

/-- R202: `DIVISION_BY_ZERO` comes from `DIVMOD`, `DIV` and `MOD` and from no other command, exactly when operand b is zero. -/
def Obligations.DivisionByZeroExactly : Prop :=
  (∀ (rd : Reg) (ra : Src) (b : OperandB) (s : State),
    (exec (.div rd ra b) s = .next (s.afterError .divisionByZero) ↔ (s.operandB b).val = 0) ∧
    (exec (.mod rd ra b) s = .next (s.afterError .divisionByZero) ↔ (s.operandB b).val = 0)) ∧
  (∀ (rd re : Reg) (ra : Src) (b : OperandB) (s : State), rd ≠ re →
    (exec (.divmod rd re ra b) s = .next (s.afterError .divisionByZero) ↔ (s.operandB b).val = 0)) ∧
  (∀ (i : Instr) (s t : State) (r : Response), exec i s = .next t → t.rsp = some r → r.status = .divisionByZero →
    t = s.afterError .divisionByZero ∧
    ((∃ rd re ra b, i = .divmod rd re ra b) ∨ (∃ rd ra b, i = .div rd ra b) ∨ ∃ rd ra b, i = .mod rd ra b))

/-- R182: the laws of the divider, in the machine's own arithmetic. -/
def Obligations.DivisionLaws : Prop :=
  ∀ a b : U256, b ≠ U256.ZERO → ∃ q r : U256, uDivmod a b = some (q, r) ∧
    uAdd (uMul q b) r = a ∧ flagLt r b = true ∧ flagLe q a = true ∧
    ∀ q' r' : U256, uDivmod a b = some (q', r') → q' = q ∧ r' = r

/-- R225, R226: every coincidence of names but `rd = re` is allowed, sources are read first: `DIVMOD` in place, and `SUB` of a register
from itself. -/
def Obligations.InPlaceForms : Prop :=
  (∀ (x y : Reg) (s : State), x ≠ y → (s.readReg y).val ≠ 0 → ∃ t : State,
    exec (.divmod x y (.v x) (.src (.v y))) s = .next t ∧
    (t.readReg x).val = (s.readReg x).val / (s.readReg y).val ∧
    (t.readReg y).val = (s.readReg x).val % (s.readReg y).val ∧
    ∀ z : Reg, z ≠ x → z ≠ y → t.readReg z = s.readReg z) ∧
  (∀ (x : Reg) (s : State), exec (.sub x (.v x) (.src (.v x))) s = .next (s.afterWrite x ⟨0, 0⟩)) ∧
  (∀ (x : Reg) (s : State), ∃ t : State, exec (.add x (.v x) (.src (.v x))) s = .next t ∧
    (t.readReg x).val = 2 * (s.readReg x).val % 2 ^ 256 ∧ ∀ z : Reg, z ≠ x → t.readReg z = s.readReg z)

/-! ### Conversion -/

/-- R186: `CVT` returns the low bits at its width, big-endian; the upper limb is ignored. -/
def Obligations.CvtResult : Prop :=
  ∀ (w : CvtWidth) (ra : Src) (s : State), ∃ data : List Byte,
    exec (.cvt w ra) s = .next (s.afterAnswer false data) ∧
    data.length = (match w with | .w8 => 1 | .w16 => 2 | .w32 => 4 | .w64 => 8 | .w128 => 16) ∧
    be data = (s.src ra).lower.toNat % 256 ^ data.length

/-- R188: `BITS` returns the least `n` with `val < 2^n`, as two bytes. -/
def Obligations.BitsResult : Prop :=
  ∀ (ra : Src) (s : State), ∃ n : Nat,
    exec (.bits ra) s = .next (s.afterAnswer false [BitVec.ofNat 8 (n / 256), BitVec.ofNat 8 n]) ∧
    n ≤ 256 ∧ (s.src ra).val < 2 ^ n ∧ ∀ m : Nat, (s.src ra).val < 2 ^ m → n ≤ m

/-- R189: `STR` returns the digits of the value in the base, most significant first, `0` for zero, left-padded with `0` to the minimum
length and never cut; at most 256 digits (R229). -/
def Obligations.StrResult : Prop :=
  ∀ (ra : Src) (base : Nat) (m : BitVec 16) (s : State), 2 ≤ base → base ≤ 36 → ∃ (ds : List Nat) (text : List Byte),
    ds = (if (s.src ra).val = 0 then [0] else (Nat.digits base (s.src ra).val).reverse) ∧
    text = ds.map (fun d => if d < 10 then BitVec.ofNat 8 (0x30 + d) else BitVec.ofNat 8 (0x61 + (d - 10))) ∧
    text.length ≤ 256 ∧
    exec (.str ra base m) s = .next (s.afterAnswer false (List.replicate (m.toNat - text.length) 0x30 ++ text))

/-- R190: `EXPORT` returns 32 bytes, the big-endian image of the value: upper's bytes, then lower's. -/
def Obligations.ExportResult : Prop :=
  ∀ (ra : Src) (s : State), ∃ hi lo : List Byte,
    exec (.exportBits ra) s = .next (s.afterAnswer false (hi ++ lo)) ∧
    hi.length = 16 ∧ lo.length = 16 ∧ be hi = (s.src ra).upper.toNat ∧ be lo = (s.src ra).lower.toNat ∧
    be (hi ++ lo) = (s.src ra).val

/-- R191: `EXPORTT` returns the shortest big-endian image of a value other than zero, 1 to 32 bytes; for zero, `TRUNC_ZERO_LEN` zero
bytes, whichever of 0 and 1 that parameter is. -/
def Obligations.ExportTruncResult : Prop :=
  ∀ (ra : Src) (s : State), ∃ data : List Byte,
    exec (.exportTrunc ra) s = .next (s.afterAnswer false data) ∧
    ((s.src ra).val ≠ 0 → be data = (s.src ra).val ∧ 1 ≤ data.length ∧ data.length ≤ 32 ∧
      256 ^ (data.length - 1) ≤ (s.src ra).val) ∧
    ((s.src ra).val = 0 → data = List.replicate Config.truncZeroLen.val 0 ∧ (data = [] ∨ data = [0]))

/-! ### The limb primitives -/

/-- R10, R11, R12: limb addition and subtraction with their carry and borrow, and the exact product of quarter-limbs. -/
def Obligations.LimbArithmetic : Prop :=
  (∀ x y : Limb, (lAdd x y).toNat = (x.toNat + y.toNat) % 2 ^ 128 ∧
    (2 ^ 128 ≤ x.toNat + y.toNat ↔ (lAdd x y).toNat < x.toNat) ∧
    (lAddCarry x y = true ↔ (lAdd x y).toNat < x.toNat)) ∧
  (∀ x y : Limb, ((lSub x y).toNat : Int) = (x.toNat - y.toNat : Int) % 2 ^ 128 ∧
    (lSubBorrow x y = true ↔ x.toNat < y.toNat)) ∧
  (∀ p q : Quarter, (lMul64 p q).toNat = p.toNat * q.toNat) ∧
  (∀ x : Limb, (lo64 x).toNat = x.toNat % 2 ^ 64 ∧ (hi64 x).toNat = x.toNat / 2 ^ 64)

/-- R13 to R18: limb shifts (by 0..127 only), bitwise functions, comparison, bit-length, halves and bytes. -/
def Obligations.LimbBits : Prop :=
  (∀ (x : Limb) (n : Fin 128), (lShl x n).toNat = x.toNat * 2 ^ n.val % 2 ^ 128 ∧ (lShr x n).toNat = x.toNat / 2 ^ n.val) ∧
  (∀ (x y : Limb) (k : Nat), (lAnd x y).getLsbD k = (x.getLsbD k && y.getLsbD k) ∧
    (lOr x y).getLsbD k = (x.getLsbD k || y.getLsbD k) ∧ (lXor x y).getLsbD k = (x.getLsbD k != y.getLsbD k)) ∧
  (∀ x : Limb, (lNot x).toNat = 2 ^ 128 - 1 - x.toNat) ∧
  (∀ x y : Limb, (x = y ↔ x.toNat = y.toNat) ∧ (lLt x y = true ↔ x.toNat < y.toNat)) ∧
  (∀ x : Limb, (x = 0 → lBits x = 0) ∧
    (x ≠ 0 → 1 ≤ lBits x ∧ lBits x ≤ 128 ∧ x.getLsbD (lBits x - 1) = true ∧ ∀ k, lBits x ≤ k → x.getLsbD k = false)) ∧
  (∀ h l : Quarter, (lFromHalves h l).toNat = h.toNat * 2 ^ 64 + l.toNat) ∧
  (∀ x : Limb, (lBytes x).length = 16 ∧ be (lBytes x) = x.toNat)
end

