-- ==== Sys2Proof/Laws/Bytes.lean ====
section
/-! SUPPORT. What the big-endian helpers do: lengths, and that `be` and `bytesBE` undo one another. -/

namespace Sys2Proof

@[simp] theorem bytesBE_length (v n : Nat) : (bytesBE v n).length = n := by
  induction n with
  | zero => rfl
  | succ n ih => simp [bytesBE, ih]

/-- `be` with an accumulator: what stands before the bytes moves up by their number. -/
theorem foldl_be (l : List Byte) (n : Nat) :
    l.foldl (fun n b => n * 256 + b.toNat) n = n * 256 ^ l.length + be l := by
  induction l generalizing n with
  | nil => simp [be]
  | cons b l ih =>
    have h : be (b :: l) = b.toNat * 256 ^ l.length + be l := by
      simpa [be] using ih b.toNat
    rw [List.foldl_cons, ih, h, List.length_cons, pow_succ]
    ring

@[simp] theorem be_nil : be [] = 0 := rfl

theorem be_cons (b : Byte) (l : List Byte) : be (b :: l) = b.toNat * 256 ^ l.length + be l := by
  simpa [be] using foldl_be l b.toNat

theorem be_append (l m : List Byte) : be (l ++ m) = be l * 256 ^ m.length + be m := by
  simpa [be, List.foldl_append] using foldl_be m (be l)

/-- A sequence of `n` bytes denotes a number below `256^n`. -/
theorem be_lt (l : List Byte) : be l < 256 ^ l.length := by
  induction l with
  | nil => simp
  | cons b l ih =>
    have hb : b.toNat < 256 := b.isLt
    rw [be_cons, List.length_cons, pow_succ]
    nlinarith [Nat.pos_of_ne_zero (pow_ne_zero l.length (by norm_num : (256 : Nat) ≠ 0))]

/-- `be(bytes_be(v, n)) = v`, for `v` that fits `n` bytes; in general `v mod 256^n`. -/
theorem be_bytesBE (v n : Nat) : be (bytesBE v n) = v % 256 ^ n := by
  induction n with
  | zero => simp [bytesBE, Nat.mod_one]
  | succ n ih =>
    have h : v % (256 ^ n * 256) = v % 256 ^ n + 256 ^ n * (v / 256 ^ n % 256) := Nat.mod_mul
    rw [bytesBE, be_cons, ih, bytesBE_length, BitVec.toNat_ofNat, pow_succ 256 n, h]
    ring

/-- `bytes_be` gives back the bytes a number was read from. -/
theorem bytesBE_be (l : List Byte) : bytesBE (be l) l.length = l := by
  induction l with
  | nil => rfl
  | cons b l ih =>
    have hl := be_lt l
    have h : bytesBE (be (b :: l)) l.length = bytesBE (be l) l.length := by
      rw [be_cons]
      generalize l.length = k at *
      have aux : ∀ (m k : Nat) (x : Nat), m ≤ k → bytesBE (b.toNat * 256 ^ k + x) m = bytesBE x m := by
        intro m
        induction m with
        | zero => intros; rfl
        | succ m ihm =>
          intro k x hm
          rw [bytesBE, bytesBE, ihm k x (by omega)]
          congr 1
          apply BitVec.eq_of_toNat_eq
          obtain ⟨d, rfl⟩ : ∃ d, k = m + 1 + d := ⟨k - (m + 1), by omega⟩
          have : b.toNat * 256 ^ (m + 1 + d) + x = x + 256 ^ m * (256 * (b.toNat * 256 ^ d)) := by ring
          simp only [BitVec.toNat_ofNat]
          rw [this, Nat.add_mul_div_left _ _ (by positivity)]
          omega
      exact aux k k (be l) le_rfl
    rw [List.length_cons, bytesBE, h, ih]
    congr 1
    apply BitVec.eq_of_toNat_eq
    rw [BitVec.toNat_ofNat, be_cons, Nat.add_comm, Nat.add_mul_div_right _ _ (by positivity),
      Nat.div_eq_of_lt hl]
    have := b.isLt
    omega

end Sys2Proof
end

