-- ==== Sys2Proof/Laws/Encoding.lean ====
section
/-! SUPPORT. The decoder's and the encoder's parts undo one another: the fields of a word, opcode numbers, register specifiers,
payloads. -/

namespace Sys2Proof

/-- The fields of a packed word are the fields that were packed (R70). -/
@[simp] theorem unpack_pack (f : Fields) : unpack (pack f) = f := by
  obtain ⟨op, n, z, rd, re, ra, rb, aux⟩ := f
  simp only [unpack, pack, Fields.mk.injEq]
  refine ⟨?_, ?_, ?_, ?_, ?_, ?_, ?_, ?_⟩ <;>
  · apply BitVec.eq_of_getLsbD_eq
    intro i hi
    simp only [BitVec.getLsbD_extractLsb', BitVec.getLsbD_append, hi, decide_true, Bool.true_and]
    repeat' split
    all_goals first | omega | (congr 1; omega)

/-- A word is made of its fields (R70). -/
@[simp] theorem pack_unpack (w : BitVec 32) : pack (unpack w) = w := by
  apply BitVec.eq_of_getLsbD_eq
  intro i hi
  simp only [unpack, pack, BitVec.getLsbD_extractLsb', BitVec.getLsbD_append]
  repeat' split
  all_goals
    rw [decide_eq_true (by omega), Bool.true_and]
    congr 1
    omega

/-- A command's opcode number stands for that command (R72). -/
@[simp] theorem Opcode.ofCode?_code (o : Opcode) : Opcode.ofCode? o.code = some o := by cases o <;> decide

/-- An opcode number that stands for a command is that command's number (R72). -/
theorem Opcode.code_of_ofCode? {c : BitVec 6} {o : Opcode} (h : Opcode.ofCode? c = some o) : o.code = c := by
  simpa using List.find?_some h

@[simp] theorem require_true (e : Illegal) : require true e = .ok () := rfl
@[simp] theorem require_false (e : Illegal) : require false e = .error e := rfl

/-- A check that let decoding go on held. -/
theorem require_ok {c : Bool} {e : Illegal} (h : require c e = .ok ()) : c = true := by
  cases c
  · cases h
  · rfl

@[simp] theorem destination_spec (r : Reg) : destination r.spec = .ok r := by
  revert r; decide

/-- The specifier of a decoded destination is the field it came from (R33). -/
theorem spec_of_destination {b : BitVec 4} {r : Reg} (h : destination b = .ok r) : r.spec = b := by
  revert b r; decide

@[simp] theorem source_spec (r : Src) : source r.spec = .ok r := by
  cases r with
  | v r => revert r; decide
  | zero | one | max => decide

/-- The specifier of a decoded source is the field it came from (R33). -/
theorem spec_of_source {b : BitVec 4} {r : Src} (h : source b = .ok r) : r.spec = b := by
  cases r with
  | v r => revert b r; decide
  | zero | one | max => revert b; decide

/-- A payload of the right length decodes to its big-endian number (R53). -/
theorem payloadBits_ok {w len : Nat} {pl : List Byte} {x : BitVec w} (h : payloadBits w len pl = .ok x) :
    pl.length = len ∧ x = BitVec.ofNat w (be pl) := by
  unfold payloadBits at h
  by_cases hl : pl.length = len
  · simp only [hl, beq_self_eq_true, require_true] at h
    exact ⟨hl, (Except.ok.inj h).symm⟩
  · simp only [beq_eq_false_iff_ne.mpr hl, require_false] at h
    cases h

/-- The bytes of a number decode to it (R53). -/
theorem payloadBits_bytesBE (w len : Nat) (x : BitVec w) (h : w = 8 * len) :
    payloadBits w len (bytesBE x.toNat len) = .ok x := by
  have hx : x.toNat < 256 ^ len := by
    have : (256 : Nat) ^ len = 2 ^ w := by rw [h, pow_mul]; rfl
    omega
  simp only [payloadBits, bytesBE_length, beq_self_eq_true, require_true, be_bytesBE, Nat.mod_eq_of_lt hx]
  exact congrArg Except.ok (BitVec.eq_of_toNat_eq (by simp))

/-- The number a payload decodes to has the payload as its bytes (R53). -/
theorem bytesBE_ofNat_be (w : Nat) (pl : List Byte) (h : w = 8 * pl.length) :
    bytesBE (BitVec.ofNat w (be pl)).toNat pl.length = pl := by
  have hp : (2 : Nat) ^ w = 256 ^ pl.length := by rw [h, pow_mul]; rfl
  rw [BitVec.toNat_ofNat, hp, Nat.mod_eq_of_lt (be_lt pl), bytesBE_be]

/-! ### What each format decoder answers, said once -/

/-- Decoding that went on past a step answered that step. -/
theorem bind_eq_ok {α β : Type} {x : Decoded α} {f : α → Decoded β} {b : β} :
    (x >>= f) = .ok b ↔ ∃ a, x = .ok a ∧ f a = .ok b := by
  cases x with
  | error e => exact ⟨fun h => (nomatch h), fun ⟨_, h, _⟩ => (nomatch h)⟩
  | ok a => exact ⟨fun h => ⟨a, rfl, h⟩, fun ⟨_, h, hb⟩ => Except.ok.inj h ▸ hb⟩

@[simp] theorem ok_bind {α β : Type} (a : α) (f : α → Decoded β) : ((Except.ok a : Decoded α) >>= f) = f a := rfl

@[simp] theorem require_eq_ok (c : Bool) (e : Illegal) (u : Unit) : require c e = .ok u ↔ c = true := by
  cases c <;> simp [require]

@[simp] theorem destination_eq_ok (b : BitVec 4) (r : Reg) : destination b = .ok r ↔ r.spec = b :=
  ⟨spec_of_destination, fun h => h ▸ destination_spec r⟩

@[simp] theorem source_eq_ok (b : BitVec 4) (r : Src) : source b = .ok r ↔ r.spec = b :=
  ⟨spec_of_source, fun h => h ▸ source_spec r⟩

@[simp] theorem noPayload_eq_ok (pl : List Byte) (u : Unit) : noPayload pl = .ok u ↔ pl = [] := by
  simp [noPayload]

/-- A payload of a whole number of bytes decodes to `x` exactly when it is the bytes of `x` (R53, R74). -/
theorem payloadBits_eq_ok (w len : Nat) (pl : List Byte) (x : BitVec w) (h : w = 8 * len) :
    payloadBits w len pl = .ok x ↔ pl = bytesBE x.toNat len := by
  constructor
  · intro hd
    obtain ⟨hl, rfl⟩ := payloadBits_ok hd
    subst hl
    exact (bytesBE_ofNat_be w pl h).symm
  · rintro rfl
    exact payloadBits_bytesBE w len x h

/-- Operand b decodes to `b` exactly from the fields and payload that spell it (R76). -/
theorem operandB_eq_ok (f : Fields) (pl : List Byte) (b : OperandB) :
    operandB f pl = .ok b ↔ f.n = b.n ∧ f.rb = b.spec ∧ pl = b.payload := by
  have hn : f.n = 0 ∨ f.n = 1 := by generalize f.n = n; revert n; decide
  rcases hn with hn | hn
  · cases b with
    | src r => simp [operandB, hn, bind_eq_ok, pure, Except.pure, OperandB.n, OperandB.spec, OperandB.payload,
        eq_comm (a := r.spec)]
    | narrow h => simp [operandB, hn, bind_eq_ok, pure, Except.pure, OperandB.n]
  · cases b with
    | src r => simp [operandB, hn, bind_eq_ok, pure, Except.pure, OperandB.n]
    | narrow h =>
      simp [operandB, hn, bind_eq_ok, pure, Except.pure, OperandB.n, OperandB.spec, OperandB.payload, payloadBits_eq_ok]

/-- Format `L` (R71). -/
theorem formatL_eq_ok (f : Fields) (rd : Reg) :
    formatL f = .ok rd ↔ f.n = 0 ∧ f.re = 0 ∧ f.ra = 0 ∧ f.rb = 0 ∧ rd.spec = f.rd := by
  simp [formatL, bind_eq_ok, and_assoc]

/-- Format `R3` (R71). -/
theorem formatR3_eq_ok (f : Fields) (pl : List Byte) (x : Reg × Src × OperandB) :
    formatR3 f pl = .ok x ↔ f.re = 0 ∧ f.aux = 0 ∧ x.1.spec = f.rd ∧ x.2.1.spec = f.ra ∧
      f.n = x.2.2.n ∧ f.rb = x.2.2.spec ∧ pl = x.2.2.payload := by
  obtain ⟨rd, ra, b⟩ := x
  simp [formatR3, bind_eq_ok, pure, Except.pure, operandB_eq_ok, and_assoc]

/-- Format `R2` (R71). -/
theorem formatR2_eq_ok (f : Fields) (pl : List Byte) (x : Reg × Src) :
    formatR2 f pl = .ok x ↔ f.n = 0 ∧ f.re = 0 ∧ f.rb = 0 ∧ f.aux = 0 ∧ x.1.spec = f.rd ∧ x.2.spec = f.ra ∧ pl = [] := by
  obtain ⟨rd, ra⟩ := x
  simp [formatR2, bind_eq_ok, pure, Except.pure, and_assoc]

/-- Format `R4` (R71, R80 (8)). -/
theorem formatR4_eq_ok (f : Fields) (pl : List Byte) (x : Reg × Reg × Src × OperandB) :
    formatR4 f pl = .ok x ↔ f.aux = 0 ∧ x.1.spec = f.rd ∧ x.2.1.spec = f.re ∧ x.2.2.1.spec = f.ra ∧
      f.n = x.2.2.2.n ∧ f.rb = x.2.2.2.spec ∧ pl = x.2.2.2.payload ∧ x.1 ≠ x.2.1 := by
  obtain ⟨rd, re, ra, b⟩ := x
  simp [formatR4, bind_eq_ok, pure, Except.pure, operandB_eq_ok, and_assoc]

/-- Format `C2` (R71). -/
theorem formatC2_eq_ok (f : Fields) (pl : List Byte) (x : Src × OperandB) :
    formatC2 f pl = .ok x ↔ f.rd = 0 ∧ f.re = 0 ∧ f.aux = 0 ∧ x.1.spec = f.ra ∧
      f.n = x.2.n ∧ f.rb = x.2.spec ∧ pl = x.2.payload := by
  obtain ⟨ra, b⟩ := x
  simp [formatC2, bind_eq_ok, pure, Except.pure, operandB_eq_ok, and_assoc]

/-- Format `C1` (R71). -/
theorem formatC1_eq_ok (f : Fields) (ra : Src) :
    formatC1 f = .ok ra ↔ f.n = 0 ∧ f.rd = 0 ∧ f.re = 0 ∧ f.rb = 0 ∧ ra.spec = f.ra := by
  simp [formatC1, bind_eq_ok, and_assoc]

/-- Format `C1` with `aux = 0` and no payload (R71, R73 (e)). -/
theorem formatC1Plain_eq_ok (f : Fields) (pl : List Byte) (ra : Src) :
    formatC1Plain f pl = .ok ra ↔
      (f.n = 0 ∧ f.rd = 0 ∧ f.re = 0 ∧ f.rb = 0 ∧ ra.spec = f.ra) ∧ f.aux = 0 ∧ pl = [] := by
  simp [formatC1Plain, bind_eq_ok, pure, Except.pure, formatC1_eq_ok, and_assoc]

end Sys2Proof
end

