-- ==== Sys2Proof/Laws/Numbers.lean ====
section
/-! SUPPORT. What the datapath's shared building blocks compute on the integers that values denote (spec R7, R10 to R17, R120,
R161, R162). -/

namespace Sys2Proof

/-- Every value is below `2^256` (R30). -/
theorem U256.val_lt (a : U256) : a.val < 2 ^ 256 := by
  have hu := a.upper.isLt
  have hl := a.lower.isLt
  simp only [U256.val]
  omega

/-- A value is the integer it denotes: equal integers, equal limbs (R30). -/
theorem U256.val_inj {a b : U256} : a.val = b.val ↔ a = b := by
  constructor
  · intro h
    have hl := a.lower.isLt
    have hl' := b.lower.isLt
    simp only [U256.val] at h
    obtain ⟨au, al⟩ := a
    obtain ⟨bu, bl⟩ := b
    simp only at *
    have h1 : au.toNat = bu.toNat := by omega
    have h2 : al.toNat = bl.toNat := by omega
    rw [BitVec.eq_of_toNat_eq h1, BitVec.eq_of_toNat_eq h2]
  · rintro rfl; rfl

@[simp] theorem U256.val_ZERO : U256.ZERO.val = 0 := rfl
@[simp] theorem U256.val_ONE : U256.ONE.val = 1 := rfl
@[simp] theorem U256.val_MAX : U256.MAX.val = 2 ^ 256 - 1 := by decide

/-- `from_int(n)` denotes `n mod 2^256` (R7). -/
theorem U256.val_fromNat (n : Nat) : (U256.fromNat n).val = n % 2 ^ 256 := by
  simp only [U256.val, U256.fromNat, BitVec.toNat_ofNat, Nat.shiftRight_eq_div_pow]
  omega

namespace Machine

theorem lAdd_toNat (x y : Limb) : (lAdd x y).toNat = (x.toNat + y.toNat) % 2 ^ 128 := by simp [lAdd]

theorem lSub_toNat (x y : Limb) : (lSub x y).toNat = (2 ^ 128 - y.toNat + x.toNat) % 2 ^ 128 := by simp [lSub]

theorem carryLimb_toNat (c : Bool) : (carryLimb c).toNat = if c then 1 else 0 := by cases c <;> rfl

/-- `val(add(a, b)) = (val(a) + val(b)) mod 2^256` (R161). -/
theorem uAdd_val (a b : U256) : (uAdd a b).val = (a.val + b.val) % 2 ^ 256 := by
  have h1 := a.upper.isLt
  have h2 := a.lower.isLt
  have h3 := b.upper.isLt
  have h4 := b.lower.isLt
  simp only [uAdd, U256.val, lAdd_toNat, carryLimb_toNat, lAddCarry, BitVec.ult, decide_eq_true_eq]
  split <;> omega

/-- `val(sub(a, b)) = (val(a) - val(b)) mod 2^256` (R162). -/
theorem uSub_val (a b : U256) : (uSub a b).val = (2 ^ 256 + a.val - b.val) % 2 ^ 256 := by
  have h1 := a.upper.isLt
  have h2 := a.lower.isLt
  have h3 := b.upper.isLt
  have h4 := b.lower.isLt
  simp only [uSub, U256.val, lSub_toNat, carryLimb_toNat, lSubBorrow, BitVec.ult, decide_eq_true_eq]
  split <;> omega

/-- `EQ` compares the integers (R121, R130). -/
theorem uEq_iff (a b : U256) : uEq a b = true ↔ a.val = b.val := by
  rw [U256.val_inj]
  obtain ⟨au, al⟩ := a
  obtain ⟨bu, bl⟩ := b
  simp [uEq]

/-- `LT` compares the integers: the lexicographic order of the limbs is the order of the values (R120, R123). -/
theorem uLt_iff (a b : U256) : uLt a b = true ↔ a.val < b.val := by
  have h2 := a.lower.isLt
  have h4 := b.lower.isLt
  have e : a.upper = b.upper ↔ a.upper.toNat = b.upper.toNat :=
    ⟨fun h => by rw [h], BitVec.eq_of_toNat_eq⟩
  simp only [uLt, lLt, BitVec.ult, Bool.or_eq_true, Bool.and_eq_true, decide_eq_true_eq, beq_iff_eq, U256.val, e]
  omega

/-- `GT` is `LT` with the operands exchanged (R124). -/
theorem uGt_iff (a b : U256) : uGt a b = true ↔ b.val < a.val := uLt_iff b a

/-- `GE` is the complement of `LT` (R126). -/
theorem uGe_iff (a b : U256) : uGe a b = true ↔ b.val ≤ a.val := by
  simp only [uGe, Bool.not_eq_true', ← Bool.not_eq_true, uLt_iff, not_lt]

/-- `LE` is the complement of `GT` (R125). -/
theorem uLe_iff (a b : U256) : uLe a b = true ↔ a.val ≤ b.val := by
  simp only [uLe, Bool.not_eq_true', ← Bool.not_eq_true, uGt_iff, not_lt]

/-- Truthiness is being nonzero (R127, R187). -/
theorem uNonzero_iff (a : U256) : uNonzero a = true ↔ a.val ≠ 0 := by
  have h : a.val = 0 ↔ a = ⟨0, 0⟩ := by
    rw [← U256.val_inj]; rfl
  rw [Ne, h]
  obtain ⟨au, al⟩ := a
  simp only [uNonzero, Bool.or_eq_true, bne_iff_ne, U256.mk.injEq]
  tauto

/-- A shift amount below 256 is the whole amount (R150). -/
theorem shiftBig_false {b : U256} (h : shiftBig b = false) : shiftAmount b = b.val := by
  simp only [shiftBig, Bool.or_eq_false_iff, bne_eq_false_iff_eq, decide_eq_false_iff_not, not_le] at h
  obtain ⟨h1, h2⟩ := h
  simp only [shiftAmount, U256.val, h1, BitVec.extractLsb'_toNat, Nat.shiftRight_zero]
  simp
  omega

/-- `big` says that the amount is at least 256 (R150). -/
theorem shiftBig_iff (b : U256) : shiftBig b = true ↔ 256 ≤ b.val := by
  constructor
  · intro h
    simp only [shiftBig, Bool.or_eq_true, bne_iff_ne, decide_eq_true_eq] at h
    have h0 : b.upper ≠ 0 → 0 < b.upper.toNat := fun hne => by
      rcases Nat.eq_zero_or_pos b.upper.toNat with hz | hp
      · exact absurd (BitVec.eq_of_toNat_eq (by simpa using hz)) hne
      · exact hp
    simp only [U256.val]
    rcases h with h | h
    · have := h0 h; omega
    · omega
  · intro h
    by_contra hb
    have hb := Bool.eq_false_iff.mpr hb
    have := shiftBig_false hb
    have hs : shiftAmount b < 256 := (b.lower.extractLsb' 0 8).isLt
    omega

end Machine

end Sys2Proof
end

