-- ==== Sys2Proof/Laws/State.lean ====
section
/-! SUPPORT. One lemma per field per update of the state, so that no later proof unfolds a record update. -/

namespace Sys2Proof.Machine

variable (s : State) (r : Reg) (v : U256) (a : Response) (rest : List HostEvent)

/-! ### Writing a value register -/

@[simp] theorem State.writeReg_inExec : (s.writeReg r v).inExec = s.inExec := rfl
@[simp] theorem State.writeReg_rsp : (s.writeReg r v).rsp = s.rsp := rfl
@[simp] theorem State.writeReg_port : (s.writeReg r v).port = s.port := rfl
@[simp] theorem State.writeReg_taken : (s.writeReg r v).taken = s.taken := rfl
@[simp] theorem State.writeReg_regs : (s.writeReg r v).regs = s.regs.set r v := rfl

/-- Reading back the register just written gives the value written. -/
@[simp] theorem State.readReg_writeReg_same : (s.writeReg r v).readReg r = v := by
  simp [State.readReg, State.writeReg]

/-- A write leaves every other register alone. -/
theorem State.readReg_writeReg_other {r' : Reg} (h : r' ≠ r) : (s.writeReg r v).readReg r' = s.readReg r' := by
  have : r.val ≠ r'.val := fun e => h (Fin.ext e.symm)
  simp [State.readReg, State.writeReg, Vector.getElem_set_ne, this]

/-- Both cases of reading after a write. -/
theorem State.readReg_writeReg (r' : Reg) :
    (s.writeReg r v).readReg r' = if r' = r then v else s.readReg r' := by
  by_cases h : r' = r
  · subst h; simp
  · simp [h, State.readReg_writeReg_other]

/-! ### Ending a command -/

@[simp] theorem State.respond_regs : (s.respond a).regs = s.regs := rfl
@[simp] theorem State.respond_inExec : (s.respond a).inExec = none := rfl
@[simp] theorem State.respond_rsp : (s.respond a).rsp = some a := rfl
@[simp] theorem State.respond_port : (s.respond a).port = s.port := rfl
@[simp] theorem State.respond_taken : (s.respond a).taken = s.taken := rfl
@[simp] theorem State.respond_readReg : (s.respond a).readReg r = s.readReg r := rfl

/-! ### The host's events -/

@[simp] theorem State.takeResponse_regs : s.takeResponse.regs = s.regs := by
  unfold State.takeResponse; split <;> rfl
@[simp] theorem State.takeResponse_inExec : s.takeResponse.inExec = s.inExec := by
  unfold State.takeResponse; split <;> rfl
@[simp] theorem State.takeResponse_rsp : s.takeResponse.rsp = none := by
  unfold State.takeResponse; split <;> simp_all
@[simp] theorem State.takeResponse_port : s.takeResponse.port = s.port := by
  unfold State.takeResponse; split <;> rfl
@[simp] theorem State.takeResponse_taken : s.takeResponse.taken = s.taken ++ s.rsp.toList := by
  unfold State.takeResponse; split <;> simp_all
@[simp] theorem State.takeResponse_readReg : s.takeResponse.readReg r = s.readReg r := by
  simp [State.readReg]

@[simp] theorem State.accepted_regs : (s.accepted rest).regs = s.regs := by simp [State.accepted]
@[simp] theorem State.accepted_inExec : (s.accepted rest).inExec = s.inExec := by simp [State.accepted]
@[simp] theorem State.accepted_rsp : (s.accepted rest).rsp = none := by simp [State.accepted]
@[simp] theorem State.accepted_port : (s.accepted rest).port = rest := rfl
@[simp] theorem State.accepted_taken : (s.accepted rest).taken = s.taken ++ s.rsp.toList := by
  simp [State.accepted]
@[simp] theorem State.accepted_readReg : (s.accepted rest).readReg r = s.readReg r := by simp [State.readReg]

@[simp] theorem State.applyReset_regs : (s.applyReset rest).regs = State.reset.regs := rfl
@[simp] theorem State.applyReset_inExec : (s.applyReset rest).inExec = none := rfl
@[simp] theorem State.applyReset_rsp : (s.applyReset rest).rsp = none := rfl
@[simp] theorem State.applyReset_port : (s.applyReset rest).port = rest := rfl
@[simp] theorem State.applyReset_taken : (s.applyReset rest).taken = s.taken := rfl

/-! ### Reading operands depends on the value registers alone -/

/-- Equal register files give equal registers. -/
theorem State.readReg_congr {s t : State} (h : s.regs = t.regs) (r : Reg) : s.readReg r = t.readReg r := by
  simp [State.readReg, h]

/-- Equal register files give equal sources. -/
theorem State.src_congr {s t : State} (h : s.regs = t.regs) (a : Src) : s.src a = t.src a := by
  cases a <;> simp [State.src, State.readReg_congr h]

/-- Equal register files give equal operands b. -/
theorem State.operandB_congr {s t : State} (h : s.regs = t.regs) (b : OperandB) : s.operandB b = t.operandB b := by
  cases b <;> simp [State.operandB, State.src_congr h]

@[simp] theorem State.src_zero : s.src .zero = U256.ZERO := rfl
@[simp] theorem State.src_one : s.src .one = U256.ONE := rfl
@[simp] theorem State.src_max : s.src .max = U256.MAX := rfl
@[simp] theorem State.src_v : s.src (.v r) = s.readReg r := rfl
@[simp] theorem State.operandB_src (a : Src) : s.operandB (.src a) = s.src a := rfl
@[simp] theorem State.operandB_narrow (h : Limb) : s.operandB (.narrow h) = ⟨0, h⟩ := rfl

end Sys2Proof.Machine
end

