-- ==== Sys2Proof/Laws/Ops.lean ====
section
/-! SUPPORT. For each shared operation, once, everything it can do; the provers cite these instead of unfolding it. -/

namespace Sys2Proof.Machine

variable {s t : State}

/-! ### How a command ends -/

/-- `answer` ends a command with status `OK` and changes nothing else (R52). -/
theorem answer_eq_next {flag : Bool} {data : List Byte} :
    answer flag data s = .next t ↔ t = s.respond ⟨.ok, flag, data⟩ := by
  simp only [answer, Host.Outcome.next.injEq, eq_comm]

/-- `writeResult` writes one register and ends the command with status `OK` (R77). -/
theorem writeResult_eq_next {rd : Reg} {v : U256} :
    writeResult rd v s = .next t ↔ t = (s.writeReg rd v).respond ⟨.ok, false, []⟩ := answer_eq_next

/-- `raise` ends a command with an error's status, flag 0 and no data, and changes nothing else (R204). -/
theorem raise_eq_next {e : Status} : raise e s = .next t ↔ t = s.respond ⟨e, false, []⟩ := by
  simp only [raise, Host.Outcome.next.injEq, eq_comm]

@[simp] theorem whenLegal_true (k : State → Host.Outcome State Fault Refusal) : whenLegal true k s = k s := rfl

@[simp] theorem whenLegal_false (k : State → Host.Outcome State Fault Refusal) :
    whenLegal false k s = raise .illegalCommand s := rfl

/-- Respond after respond: the later response stands. -/
@[simp] theorem respond_respond (a b : Response) : (s.respond a).respond b = s.respond b := rfl

/-! ### Division -/

/-- `divmod` raises exactly for a zero divisor (R176, R202). -/
theorem uDivmod_eq_none (a b : U256) : uDivmod a b = none ↔ b.val = 0 := by
  unfold uDivmod
  by_cases h : uEq b .ZERO = true
  · simpa [h] using (uEq_iff b .ZERO).mp h
  · have hb : b.val ≠ 0 := fun e => h ((uEq_iff b .ZERO).mpr (by simpa using e))
    simp only [h, hb, iff_false, if_false, Bool.false_eq_true]
    split_ifs <;> simp

/-- The two early returns of R176: a divisor above the dividend, and one equal to it. -/
theorem uDivmod_early (a b : U256) (h : b.val ≠ 0) :
    (a.val < b.val → uDivmod a b = some (.ZERO, a)) ∧ (a.val = b.val → uDivmod a b = some (.ONE, .ZERO)) := by
  have h0 : uEq b .ZERO = false := by
    rw [← Bool.not_eq_true, uEq_iff]; simpa using h
  constructor
  · intro hl
    simp [uDivmod, h0, (uLt_iff a b).mpr hl]
  · intro he
    have hl : uLt a b = false := by rw [← Bool.not_eq_true, uLt_iff]; omega
    simp [uDivmod, h0, hl, (uEq_iff a b).mpr he]

/-! ### Bit lengths -/

theorem highestBit_le (x : Limb) (n : Nat) : highestBit x n ≤ n := by
  induction n with
  | zero => exact le_rfl
  | succ n ih => unfold highestBit; split <;> omega

/-- A limb's bit-length is at most 128 (R16). -/
theorem lBits_le (x : Limb) : lBits x ≤ 128 := highestBit_le x 128

/-- A value's bit-length is at most 256 (R188). -/
theorem uBits_le (a : U256) : uBits a ≤ 256 := by
  have := lBits_le a.upper
  have := lBits_le a.lower
  unfold uBits
  split <;> omega

/-! ### Texts -/

/-- The digit loop makes at most one digit a pass (R229). -/
theorem digitsLoop_length (base fuel : Nat) (v : U256) : (digitsLoop base fuel v).length ≤ fuel := by
  induction fuel generalizing v with
  | zero => simp [digitsLoop]
  | succ fuel ih =>
    unfold digitsLoop
    split
    · split
      · simpa using ih _
      · simp
    · simp

/-- A value has at most 256 digits (R189, R229). -/
theorem digitsOf_length (base : Nat) (a : U256) : (digitsOf base a).length ≤ 256 := by
  unfold digitsOf
  split
  · simpa using digitsLoop_length base 256 a
  · simp

/-- Padding reaches the minimum length and never cuts (R189). -/
theorem formatText_length (base m : Nat) (a : U256) :
    (formatText base m a).length = max (digitsOf base a).length m := by
  simp only [formatText, List.length_append, List.length_replicate]
  omega

@[simp] theorem parseText_nil (base : Nat) : parseText base [] = some .ZERO := rfl

/-- Horner evaluation of a text is evaluation of its first part, then of the rest (R107). -/
theorem horner_append (base : Nat) (v : U256) (l m : List Byte) :
    horner base v (l ++ m) = (horner base v l).bind fun w => horner base w m := by
  induction l generalizing v with
  | nil => rfl
  | cons c l ih =>
    simp only [List.cons_append, horner]
    cases hornerStep base v c with
    | none => rfl
    | some w => exact ih w

/-! ### Exports -/

@[simp] theorem cvtData_length (w : CvtWidth) (a : U256) : (cvtData w a).length = cvtBytes w := by simp [cvtData]

@[simp] theorem exportData_length (a : U256) : (exportData a).length = 32 := by simp [exportData, lBytes]

/-- A truncated export is at most 32 bytes, or the length chosen for zero (R55, R191). -/
theorem exportTruncData_length (k : Nat) (a : U256) : (exportTruncData k a).length ≤ max k 32 := by
  unfold exportTruncData
  split
  · simp
  · have := List.length_dropWhile_le (fun b : Byte => b == 0) (bytesBE a.val 32)
    simp only [bytesBE_length] at this
    omega

end Sys2Proof.Machine
end

