-- ==== Sys2Proof/Laws/PerInstr.lean ====
section
/-! SUPPORT. Statements made for every command, one lemma for each: the payload the encoder writes has the length R55 gives the
command, and fits a packet. -/

namespace Sys2Proof.Laws.EncodedLength

/-- The payload of a well-formed command has the length R55 gives its opcode, `N` and width code, and fits a packet (R51). -/
def Statement (i : Instr) : Prop :=
  i.wf = true →
    (encodePayload i).length ≤ Config.textMax ∧
    (encodePayload i).length = payloadLengthOf (encodeFields i) (encodePayload i).length

/-- The length of a payload without an operand b, checked against the table. -/
theorem of_lengths {i : Instr} (h1 : (encodePayload i).length ≤ Config.textMax)
    (h2 : (encodePayload i).length = payloadLengthOf (encodeFields i) (encodePayload i).length) : Statement i :=
  fun _ => ⟨h1, h2⟩

/-- Operand b brings no payload, or 16 bytes in the narrow form (R76). -/
theorem operandB_length (b : OperandB) : b.payload.length = if b.n = 1 then 16 else 0 := by
  cases b <;> simp [OperandB.payload, OperandB.n]

/-- Operand b always fits a packet. -/
theorem operandB_fits (b : OperandB) : b.payload.length ≤ Config.textMax := by
  rw [operandB_length]; split <;> decide

theorem ldu (rd : Reg) (n : Native) : Statement (.ldu rd n) := by
  cases n <;> exact of_lengths (by simp [encodePayload, Native.payload, Config.textMax])
    (by simp [encodePayload, Native.payload, payloadLengthOf, encodeFields, fieldsL, Instr.opcode, Native.aux])

theorem lds (rd : Reg) (n : Native) : Statement (.lds rd n) := by
  cases n <;> exact of_lengths (by simp [encodePayload, Native.payload, Config.textMax])
    (by simp [encodePayload, Native.payload, payloadLengthOf, encodeFields, fieldsL, Instr.opcode, Native.aux])

theorem ldb (rd : Reg) (t : Bool) : Statement (.ldb rd t) := by
  exact of_lengths (Nat.zero_le _) rfl

theorem ldh (rd : Reg) (h : Limb) : Statement (.ldh rd h) := by
  exact of_lengths (by simp [encodePayload, Config.textMax])
    (by simp [encodePayload, payloadLengthOf, encodeFields, fieldsL, Instr.opcode])

theorem ldp (rd : Reg) (u : Limb) (l : Limb) : Statement (.ldp rd u l) := by
  exact of_lengths (by simp [encodePayload, Config.textMax])
    (by simp [encodePayload, payloadLengthOf, encodeFields, fieldsL, Instr.opcode])

theorem ldq (rd : Reg) (q3 : Quarter) (q2 : Quarter) (q1 : Quarter) (q0 : Quarter) : Statement (.ldq rd q3 q2 q1 q0) := by
  exact of_lengths (by simp [encodePayload, Config.textMax])
    (by simp [encodePayload, payloadLengthOf, encodeFields, fieldsL, Instr.opcode])

theorem parse (rd : Reg) (text : List Byte) (base : Nat) : Statement (.parse rd text base) := by
  intro h
  simp only [Instr.wf, decide_eq_true_eq] at h
  exact ⟨h.2, by simp [payloadLengthOf, encodeFields, fieldsL, Instr.opcode]⟩

theorem eq (ra : Src) (b : OperandB) : Statement (.eq ra b) := by
  exact of_lengths (operandB_fits b) (operandB_length b)

theorem ne (ra : Src) (b : OperandB) : Statement (.ne ra b) := by
  exact of_lengths (operandB_fits b) (operandB_length b)

theorem lt (ra : Src) (b : OperandB) : Statement (.lt ra b) := by
  exact of_lengths (operandB_fits b) (operandB_length b)

theorem gt (ra : Src) (b : OperandB) : Statement (.gt ra b) := by
  exact of_lengths (operandB_fits b) (operandB_length b)

theorem le (ra : Src) (b : OperandB) : Statement (.le ra b) := by
  exact of_lengths (operandB_fits b) (operandB_length b)

theorem ge (ra : Src) (b : OperandB) : Statement (.ge ra b) := by
  exact of_lengths (operandB_fits b) (operandB_length b)

theorem land (ra : Src) (b : OperandB) : Statement (.land ra b) := by
  exact of_lengths (operandB_fits b) (operandB_length b)

theorem lor (ra : Src) (b : OperandB) : Statement (.lor ra b) := by
  exact of_lengths (operandB_fits b) (operandB_length b)

theorem lnot (ra : Src) : Statement (.lnot ra) := by
  exact of_lengths (Nat.zero_le _) rfl

theorem and (rd : Reg) (ra : Src) (b : OperandB) : Statement (.and rd ra b) := by
  exact of_lengths (operandB_fits b) (operandB_length b)

theorem or (rd : Reg) (ra : Src) (b : OperandB) : Statement (.or rd ra b) := by
  exact of_lengths (operandB_fits b) (operandB_length b)

theorem xor (rd : Reg) (ra : Src) (b : OperandB) : Statement (.xor rd ra b) := by
  exact of_lengths (operandB_fits b) (operandB_length b)

theorem not (rd : Reg) (ra : Src) : Statement (.not rd ra) := by
  exact of_lengths (Nat.zero_le _) rfl

theorem shl (rd : Reg) (ra : Src) (b : OperandB) : Statement (.shl rd ra b) := by
  exact of_lengths (operandB_fits b) (operandB_length b)

theorem shr (rd : Reg) (ra : Src) (b : OperandB) : Statement (.shr rd ra b) := by
  exact of_lengths (operandB_fits b) (operandB_length b)

theorem add (rd : Reg) (ra : Src) (b : OperandB) : Statement (.add rd ra b) := by
  exact of_lengths (operandB_fits b) (operandB_length b)

theorem sub (rd : Reg) (ra : Src) (b : OperandB) : Statement (.sub rd ra b) := by
  exact of_lengths (operandB_fits b) (operandB_length b)

theorem inc (rd : Reg) (ra : Src) : Statement (.inc rd ra) := by
  exact of_lengths (Nat.zero_le _) rfl

theorem dec (rd : Reg) (ra : Src) : Statement (.dec rd ra) := by
  exact of_lengths (Nat.zero_le _) rfl

theorem neg (rd : Reg) (ra : Src) : Statement (.neg rd ra) := by
  exact of_lengths (Nat.zero_le _) rfl

theorem pos (rd : Reg) (ra : Src) : Statement (.pos rd ra) := by
  exact of_lengths (Nat.zero_le _) rfl

theorem mul (rd : Reg) (ra : Src) (b : OperandB) : Statement (.mul rd ra b) := by
  exact of_lengths (operandB_fits b) (operandB_length b)

theorem divmod (rd : Reg) (re : Reg) (ra : Src) (b : OperandB) : Statement (.divmod rd re ra b) := by
  exact of_lengths (operandB_fits b) (operandB_length b)

theorem div (rd : Reg) (ra : Src) (b : OperandB) : Statement (.div rd ra b) := by
  exact of_lengths (operandB_fits b) (operandB_length b)

theorem mod (rd : Reg) (ra : Src) (b : OperandB) : Statement (.mod rd ra b) := by
  exact of_lengths (operandB_fits b) (operandB_length b)

theorem cvt (w : CvtWidth) (ra : Src) : Statement (.cvt w ra) := by
  exact of_lengths (Nat.zero_le _) rfl

theorem tst (ra : Src) : Statement (.tst ra) := by
  exact of_lengths (Nat.zero_le _) rfl

theorem bits (ra : Src) : Statement (.bits ra) := by
  exact of_lengths (Nat.zero_le _) rfl

theorem str (ra : Src) (base : Nat) (m : BitVec 16) : Statement (.str ra base m) := by
  exact of_lengths (by simp [encodePayload, Config.textMax])
    (by simp [encodePayload, payloadLengthOf, encodeFields, fieldsC1, Instr.opcode])

theorem exportBits (ra : Src) : Statement (.exportBits ra) := by
  exact of_lengths (Nat.zero_le _) rfl

theorem exportTrunc (ra : Src) : Statement (.exportTrunc ra) := by
  exact of_lengths (Nat.zero_le _) rfl

end Sys2Proof.Laws.EncodedLength
end

