-- ==== Sys2Proof/Laws/Step.lean ====
section
/-! SUPPORT. What a step does, case by case, and what carrying out a packet can do. -/

namespace Sys2Proof.Machine

variable {s t : State}

/-- A packet carried out: it runs its command, it is answered `ILLEGAL_COMMAND`, or no such packet exists (R51, R203, R207). -/
theorem completePacket_cases (p : Packet) (s : State) :
    (presentable p = true ∧ ∃ i, decode p = .ok i ∧ completePacket p s = exec i s) ∨
    (presentable p = true ∧ ∃ e, decode p = .error e ∧ completePacket p s = raise .illegalCommand s) ∨
    (presentable p = false ∧ completePacket p s = .fault .payloadTooLong) := by
  unfold completePacket
  cases hp : presentable p with
  | false => simp
  | true =>
    cases hd : decode p with
    | ok i => simp
    | error e => simp

theorem step_of_reset {rest : List HostEvent} (h : s.port = .reset :: rest) : step s = .next (s.applyReset rest) := by
  simp [step, h]

/-- A command in execution is completed, unless a reset comes (R56, R221). -/
theorem step_of_inExec {p : Packet} (h : s.inExec = some p) (hr : ∀ rest, s.port ≠ .reset :: rest) :
    step s = completePacket p s := by
  rcases hport : s.port with _ | ⟨e, rest⟩
  · simp [step, hport, h]
  · cases e with
    | reset => exact absurd hport (hr rest)
    | command q => simp [step, hport, h]
    | accept q => simp [step, hport, h]
    | take => simp [step, hport, h]
    | interleaved => simp [step, hport, h]

theorem step_of_idle (h : s.port = []) (he : s.inExec = none) : step s = .next s := by simp [step, h, he]

theorem step_of_command {p : Packet} {rest : List HostEvent} (h : s.port = .command p :: rest) (he : s.inExec = none) :
    step s = completePacket p (s.accepted rest) := by simp [step, h, he]

theorem step_of_accept {p : Packet} {rest : List HostEvent} (h : s.port = .accept p :: rest) (he : s.inExec = none) :
    step s = acceptPacket p rest s := by simp [step, h, he]

theorem step_of_take {rest : List HostEvent} (h : s.port = .take :: rest) (he : s.inExec = none) :
    step s = .next { s.takeResponse with port := rest } := by simp [step, h, he]

theorem step_of_interleaved {rest : List HostEvent} (h : s.port = .interleaved :: rest) (he : s.inExec = none) :
    step s = .refused .interleavedPackets := by simp [step, h, he]

/-- Everything a step can do, said once. -/
theorem step_cases (s : State) :
    (∃ rest, s.port = .reset :: rest ∧ step s = .next (s.applyReset rest)) ∨
    (∃ p, (∀ rest, s.port ≠ .reset :: rest) ∧ s.inExec = some p ∧ step s = completePacket p s) ∨
    (s.port = [] ∧ s.inExec = none ∧ step s = .next s) ∨
    (∃ p rest, s.port = .command p :: rest ∧ s.inExec = none ∧ step s = completePacket p (s.accepted rest)) ∨
    (∃ p rest, s.port = .accept p :: rest ∧ s.inExec = none ∧ step s = acceptPacket p rest s) ∨
    (∃ rest, s.port = .take :: rest ∧ s.inExec = none ∧ step s = .next { s.takeResponse with port := rest }) ∨
    (∃ rest, s.port = .interleaved :: rest ∧ s.inExec = none ∧ step s = .refused .interleavedPackets) := by
  rcases hport : s.port with _ | ⟨e, rest⟩
  · rcases he : s.inExec with _ | p
    · simp [step_of_idle hport he]
    · simp [step_of_inExec he (by simp [hport])]
  · cases e with
    | reset => simp [step_of_reset hport]
    | command p =>
      rcases he : s.inExec with _ | q
      · simp [step_of_command hport he]
      · simp [step_of_inExec he (by simp [hport])]
    | accept p =>
      rcases he : s.inExec with _ | q
      · simp [step_of_accept hport he]
      · simp [step_of_inExec he (by simp [hport])]
    | take =>
      rcases he : s.inExec with _ | q
      · simp [step_of_take hport he]
      · simp [step_of_inExec he (by simp [hport])]
    | interleaved =>
      rcases he : s.inExec with _ | q
      · simp [step_of_interleaved hport he]
      · simp [step_of_inExec he (by simp [hport])]

@[simp] theorem present_port (s : State) (p : Packet) : (s.present p).port = .command p :: s.port := rfl
@[simp] theorem present_inExec (s : State) (p : Packet) : (s.present p).inExec = none := rfl
@[simp] theorem present_regs (s : State) (p : Packet) : (s.present p).regs = s.regs := rfl

/-- A presented packet is what the very next step carries out. -/
theorem step_present (s : State) (p : Packet) : step (s.present p) = completePacket p ((s.present p).accepted s.port) := rfl

/-! ### Runs -/

@[simp] theorem run_zero (s : State) : Host.Core.run Sys2Proof.core 0 s = .next s := rfl

/-- A run whose first step goes on is the run from there. -/
theorem run_succ_next (n : Nat) (h : step s = .next t) :
    Host.Core.run Sys2Proof.core (n + 1) s = Host.Core.run Sys2Proof.core n t := by
  simp only [Host.Core.run, Sys2Proof.core, h]

/-- A run of one step is that step. -/
@[simp] theorem run_one (s : State) : Host.Core.run Sys2Proof.core 1 s = step s := by
  simp only [Host.Core.run, Sys2Proof.core]
  cases step s <;> rfl

end Sys2Proof.Machine
end

