-- ==== Sys2Proof/Tests/Slice0.lean ====
section
/-! SUPPORT. Tests. Expected values come from the spec: the test vectors of 95_test_vectors.md (S, T30, T40 and the numbered sections),
the worked encodings of R84 and the examples of the rules; each test says which. -/

namespace Sys2Proof.Tests

open Sys2Proof.Machine

/-! ### Helpers -/

/-- A state with four registers loaded, nothing pending. -/
def four (a b c d : U256) : State := { State.reset with regs := #v[a, b, c, d, .ZERO, .ZERO, .ZERO, .ZERO] }

/-- A state with `V0 = a` and `V1 = b`. -/
def two (a b : U256) : State := four a b .ZERO .ZERO

/-- The small number `n` as a value. -/
def num (n : Limb) : U256 := ⟨0, n⟩

/-- A limb of all ones. -/
def ones : Limb := BitVec.allOnes 128

/-- The next state, if there is one. -/
def nextOf : Host.Outcome State Fault Refusal → Option State
  | .next t => some t
  | .fault _ => none
  | .refused _ => none

/-- `V[r]` after a command. -/
def regAfter (i : Instr) (s : State) (r : Reg) : Option U256 := (nextOf (exec i s)).map fun t => t.readReg r

/-- The response to a command. -/
def rspAfter (i : Instr) (s : State) : Option Response := (nextOf (exec i s)).bind fun t => t.rsp

/-- The flag of the response to a command that ended with `OK` and no data. -/
def flagAfter (i : Instr) (s : State) : Option Bool :=
  match rspAfter i s with
  | some ⟨.ok, f, []⟩ => some f
  | _ => none

/-- The data of the response to a command that ended with `OK` and flag 0. -/
def dataAfter (i : Instr) (s : State) : Option (List Byte) :=
  match rspAfter i s with
  | some ⟨.ok, false, d⟩ => some d
  | _ => none

/-- `n` zero bytes. -/
def zeros (n : Nat) : List Byte := List.replicate n 0

/-- The packet is answered `ILLEGAL_COMMAND` and changes no register. -/
def illegal (w : BitVec 32) (len : Nat) : Bool :=
  (nextOf (step ((two .MAX .ONE).present ⟨w, zeros len⟩))).map (fun t => (t.rsp, t.regs)) ==
    some (some ⟨.illegalCommand, false, []⟩, (two .MAX .ONE).regs)

/-- The packet decodes to a command. -/
def legal (w : BitVec 32) (len : Nat) : Bool := (decode ⟨w, zeros len⟩).toBool

/-! ### WellFormed: an ill-formed term for each check -/

theorem test_wf_base_below_2 : (Instr.parse 0 [] 1).wf = false ∧ (Instr.str .zero 1 0).wf = false := by decide
theorem test_wf_base_above_36 : (Instr.parse 0 [] 37).wf = false ∧ (Instr.str .zero 37 0).wf = false := by decide
theorem test_wf_base_ends : (Instr.parse 0 [] 2).wf = true ∧ (Instr.str .zero 36 0).wf = true := by decide
theorem test_wf_text_too_long (text : List Byte) (h : text.length = 65536) : (Instr.parse 0 text 10).wf = false := by
  simp [Instr.wf, h, Config.textMax]
theorem test_wf_same_destination : (Instr.divmod 2 2 .zero (.src .one)).wf = false := by decide
theorem test_wf_different_destinations : (Instr.divmod 2 3 .zero (.src .one)).wf = true := by decide

/-! ### Decoding: words written out from R70 to R72, fields `op N Z rd re ra rb aux` -/

/-- Construction. -/
theorem test_decode_load : ∀ x ∈ ([
    (⟨0b000001_0_0_0111_0000_0000_0000_00000000, [0x81]⟩, .ldu 7 (.w8 0x81)),
    (⟨0b000001_0_0_0001_0000_0000_0000_00000011, [0x01, 0x02, 0x03, 0x04, 0x05, 0x06, 0x07, 0x08]⟩, .ldu 1 (.w64 0x0102030405060708)),
    (⟨0b000010_0_0_0011_0000_0000_0000_00000001, [0xFF, 0xFE]⟩, .lds 3 (.w16 0xFFFE)),
    (⟨0b000010_0_0_0011_0000_0000_0000_00000010, [0x80, 0, 0, 1]⟩, .lds 3 (.w32 0x80000001)),
    (⟨0b000011_0_0_0010_0000_0000_0000_00000001, []⟩, .ldb 2 true),
    (⟨0b000100_0_0_0001_0000_0000_0000_00000000, zeros 14 ++ [1, 0x23]⟩, .ldh 1 0x123),
    (⟨0b000101_0_0_0000_0000_0000_0000_00000000, zeros 15 ++ [1] ++ zeros 15 ++ [2]⟩, .ldp 0 1 2),
    (⟨0b000110_0_0_0100_0000_0000_0000_00000000, zeros 7 ++ [1] ++ zeros 7 ++ [2] ++ zeros 7 ++ [3] ++ zeros 7 ++ [4]⟩, .ldq 4 1 2 3 4),
    (⟨0b000111_0_0_0001_0000_0000_0000_00010000, [0x66, 0x46]⟩, .parse 1 [0x66, 0x46] 16)] : List (Packet × Instr)), decode x.1 = .ok x.2 := by decide

/-- Comparison and logic. -/
theorem test_decode_compare : ∀ x ∈ ([
    (⟨0b001000_0_0_0000_0000_0100_1001_00000000, []⟩, .eq (.v 4) (.src .one)),
    (⟨0b001001_1_0_0000_0000_1010_0000_00000000, zeros 15 ++ [7]⟩, .ne .max (.narrow 7)),
    (⟨0b001010_0_0_0000_0000_0100_1001_00000000, []⟩, .lt (.v 4) (.src .one)),
    (⟨0b001011_1_0_0000_0000_1010_0000_00000000, zeros 15 ++ [7]⟩, .gt .max (.narrow 7)),
    (⟨0b001100_0_0_0000_0000_0100_1001_00000000, []⟩, .le (.v 4) (.src .one)),
    (⟨0b001101_1_0_0000_0000_1010_0000_00000000, zeros 15 ++ [7]⟩, .ge .max (.narrow 7)),
    (⟨0b010000_0_0_0000_0000_0100_1001_00000000, []⟩, .land (.v 4) (.src .one)),
    (⟨0b010001_1_0_0000_0000_1010_0000_00000000, zeros 15 ++ [7]⟩, .lor .max (.narrow 7)),
    (⟨0b010010_0_0_0000_0000_1000_0000_00000000, []⟩, .lnot .zero)] : List (Packet × Instr)), decode x.1 = .ok x.2 := by decide

/-- Bitwise, shift, additive, multiply and divide, full and narrow. -/
theorem test_decode_three_registers : ∀ x ∈ ([
    (⟨0b011000_0_0_0010_0000_0000_0001_00000000, []⟩, .and 2 (.v 0) (.src (.v 1))),
    (⟨0b011001_1_0_0101_0000_0110_0000_00000000, zeros 14 ++ [1, 0]⟩, .or 5 (.v 6) (.narrow 256)),
    (⟨0b011010_0_0_0010_0000_0000_0001_00000000, []⟩, .xor 2 (.v 0) (.src (.v 1))),
    (⟨0b100000_1_0_0101_0000_0110_0000_00000000, zeros 14 ++ [1, 0]⟩, .shl 5 (.v 6) (.narrow 256)),
    (⟨0b100001_0_0_0010_0000_0000_0001_00000000, []⟩, .shr 2 (.v 0) (.src (.v 1))),
    (⟨0b101000_1_0_0101_0000_0110_0000_00000000, zeros 14 ++ [1, 0]⟩, .add 5 (.v 6) (.narrow 256)),
    (⟨0b101001_0_0_0010_0000_0000_0001_00000000, []⟩, .sub 2 (.v 0) (.src (.v 1))),
    (⟨0b110000_1_0_0101_0000_0110_0000_00000000, zeros 14 ++ [1, 0]⟩, .mul 5 (.v 6) (.narrow 256)),
    (⟨0b110010_0_0_0010_0000_0000_0001_00000000, []⟩, .div 2 (.v 0) (.src (.v 1))),
    (⟨0b110011_1_0_0101_0000_0110_0000_00000000, zeros 14 ++ [1, 0]⟩, .mod 5 (.v 6) (.narrow 256)),
    (⟨0b110001_0_0_0010_0011_0000_0001_00000000, []⟩, .divmod 2 3 (.v 0) (.src (.v 1))),
    (⟨0b110001_1_0_0111_0000_1010_0000_00000000, [1] ++ zeros 15⟩, .divmod 7 0 .max (.narrow 0x01000000000000000000000000000000))] : List (Packet × Instr)), decode x.1 = .ok x.2 := by decide

/-- Formats R2. -/
theorem test_decode_two_registers : ∀ x ∈ ([
    (⟨0b011011_0_0_0011_0000_1001_0000_00000000, []⟩, .not 3 .one),
    (⟨0b101010_0_0_0011_0000_1010_0000_00000000, []⟩, .inc 3 .max),
    (⟨0b101011_0_0_0011_0000_1001_0000_00000000, []⟩, .dec 3 .one),
    (⟨0b101100_0_0_0011_0000_1010_0000_00000000, []⟩, .neg 3 .max),
    (⟨0b101101_0_0_0011_0000_1001_0000_00000000, []⟩, .pos 3 .one)] : List (Packet × Instr)), decode x.1 = .ok x.2 := by decide

/-- Conversion, size query and export. -/
theorem test_decode_conversion : ∀ x ∈ ([
    (⟨0b111000_0_0_0000_0000_0101_0000_00000100, []⟩, .cvt .w128 (.v 5)),
    (⟨0b111000_0_0_0000_0000_0101_0000_00000001, []⟩, .cvt .w16 (.v 5)),
    (⟨0b111001_0_0_0000_0000_1000_0000_00000000, []⟩, .tst .zero),
    (⟨0b111010_0_0_0000_0000_1010_0000_00000000, []⟩, .bits .max),
    (⟨0b111011_0_0_0000_0000_0000_0000_00100100, [0, 4]⟩, .str (.v 0) 36 4),
    (⟨0b111100_0_0_0000_0000_0111_0000_00000000, []⟩, .exportBits (.v 7)),
    (⟨0b111101_0_0_0000_0000_0000_0000_00000000, []⟩, .exportTrunc (.v 0))] : List (Packet × Instr)), decode x.1 = .ok x.2 := by decide

/-- The illegal rows of vectors T30, part 1: answered `ILLEGAL_COMMAND`, no register written. -/
theorem test_illegal_packets_1 : ([(0x00000000, 0), (0xFFFFFFFF, 0), (0x38000000, 0), (0xA1200100, 0), (0xA0200101, 0), (0xA0210100, 0), (0xA0200100, 1), (0xA2200100, 16), (0xA2200000, 15), (0xA2200000, 0), (0xA0800100, 0), (0xA000B100, 0), (0xA0000F00, 0), (0x6E100000, 16), (0x6C100100, 0), (0x04000003, 7), (0x04000004, 16), (0x04900003, 8), (0x0C000002, 0)]
    : List (BitVec 32 × Nat)).all (fun x => illegal x.1 x.2) = true := by decide

/-- The illegal rows of vectors T30, part 2: answered `ILLEGAL_COMMAND`, no register written. -/
theorem test_illegal_packets_2 : ([(0x14000000, 31), (0x10000000, 32), (0x1C000001, 1), (0x1C000000, 1), (0x1C000025, 1), (0x1C00100A, 1), (0xEC000000, 2), (0xEC000001, 2), (0xEC000025, 2), (0xEC00000A, 0), (0xEC00000A, 3), (0xE0000005, 0), (0xC4220900, 0), (0xC4280900, 0), (0xC4220800, 0), (0x20100100, 0), (0xF0000001, 0), (0xF0000000, 1)]
    : List (BitVec 32 × Nat)).all (fun x => illegal x.1 x.2) = true := by decide

/-- The legal rows of vectors T30. -/
theorem test_legal_packets : ([(0xA0200100, 0), (0xA2200000, 16), (0xA000A900, 0), (0x6C100000, 0), (0x04000003, 8), (0x0C000001, 0), (0x1C000002, 1), (0x1C000024, 1), (0xEC00000A, 2), (0xE0000004, 0), (0xC4230900, 0), (0x20000100, 0), (0xF0000000, 0)]
    : List (BitVec 32 × Nat)).all (fun x => legal x.1 x.2) = true := by decide

/-- The table's numbering: bit 0 of the payload's first byte is bit 32 (`LDU.16 V0` of `80 00`, T40-2). -/
theorem test_table_word : decodeTableWord 48 0x0080_04000001 = some (.ldu 0 (.w16 0x8000)) := by decide

/-- A table word runs as the first command after reset (T40-6, T40-5). -/
theorem test_first_command : (nextOf (step (State.reset.withFetchWord 40 0xFF_08300000))).map (fun t => t.readReg 3) = some .MAX := by
  decide

/-! ### One command at a time -/

/-- T40-3. -/
theorem test_ldu : regAfter (.ldu 0 (.w32 0xDEADBEEF)) (two .MAX .ONE) 0 = some (num 0xDEADBEEF) := by decide

/-- T40-8. -/
theorem test_lds_negative :
    regAfter (.lds 0 (.w16 0x8000)) (State.reset) 0 = some ⟨ones, 0xFFFFFFFFFFFFFFFFFFFFFFFFFFFF8000⟩ := by
  decide

/-- T40-10. -/
theorem test_lds_positive : regAfter (.lds 0 (.w64 0x7FFFFFFFFFFFFFFF)) (two .MAX .ONE) 0 = some (num 0x7FFFFFFFFFFFFFFF) := by decide

/-- R103 example. -/
theorem test_ldb : regAfter (.ldb 2 true) (State.reset) 2 = some .ONE := by decide

/-- T40-14. -/
theorem test_ldh : regAfter (.ldh 0 ones) (two .MAX .ONE) 0 = some ⟨0, ones⟩ := by decide

/-- T40-15. -/
theorem test_ldp : regAfter (.ldp 0 1 0) (State.reset) 0 = some ⟨1, 0⟩ := by decide

/-- R106 example. -/
theorem test_ldq : regAfter (.ldq 4 1 2 3 4) (State.reset) 4 = some ⟨0x10000000000000002, 0x30000000000000004⟩ := by decide

/-- T40-24: 12z in base 36. -/
theorem test_parse : regAfter (.parse 1 [0x31, 0x32, 0x7A] 36) (State.reset) 1 = some (num 1403) := by decide

/-- T40-31: g in base 16. -/
theorem test_parse_bad_character :
    nextOf (exec (.parse 1 [0x67] 16) (two .ZERO (num 7))) = some ((two .ZERO (num 7)).afterError .invalidCharacter) := by
  decide

/-- R121 example. -/
theorem test_eq : flagAfter (.eq (.v 0) (.src (.v 1))) (two (num 5) (num 5)) = some true := by decide

/-- R121: the narrow flag is 0 whenever upper is not 0. -/
theorem test_eq_upper_counts : flagAfter (.eq (.v 0) (.narrow 5)) (two ⟨1, 5⟩ .ZERO) = some false := by decide

/-- R122 example. -/
theorem test_ne : flagAfter (.ne (.v 0) (.narrow 0)) (two ⟨1, 0⟩ .ZERO) = some true := by decide

/-- R123 example. -/
theorem test_lt : flagAfter (.lt (.v 0) (.src (.v 1))) (two ⟨0, ones⟩ ⟨1, 0⟩) = some true := by decide

/-- R123: MAX is large, not negative. -/
theorem test_lt_unsigned : flagAfter (.lt (.v 0) (.src .one)) (two .MAX .ZERO) = some false := by decide

/-- R124 example. -/
theorem test_gt : flagAfter (.gt (.v 0) (.narrow ones)) (two ⟨1, 0⟩ .ZERO) = some true := by decide

/-- R130: equal is not greater. -/
theorem test_gt_equal : flagAfter (.gt (.v 0) (.src (.v 0))) (two ⟨1, 2⟩ .ZERO) = some false := by decide

/-- R125 example. -/
theorem test_le : flagAfter (.le (.v 0) (.src (.v 0))) (two ⟨3, 4⟩ .ZERO) = some true := by decide

/-- R126 example. -/
theorem test_ge : flagAfter (.ge .zero (.src .zero)) (State.reset) = some true := by decide

/-- R126: not LT. -/
theorem test_ge_less : flagAfter (.ge (.v 0) (.src (.v 1))) (two ⟨0, ones⟩ ⟨1, 0⟩) = some false := by decide

/-- R127 example: 2^200 and 0. -/
theorem test_land : flagAfter (.land (.v 0) (.src (.v 1))) (two ⟨0x1000000000000000000, 0⟩ .ZERO) = some false := by decide

/-- R127 example: 2^200 and 1. -/
theorem test_land_narrow : flagAfter (.land (.v 0) (.narrow 1)) (two ⟨0x1000000000000000000, 0⟩ .ZERO) = some true := by decide

/-- R128 example. -/
theorem test_lor : flagAfter (.lor (.v 0) (.src .zero)) (two ⟨0x1000000000000000000, 0⟩ .ZERO) = some true := by decide

/-- R128 example. -/
theorem test_lor_zero : flagAfter (.lor .zero (.src .zero)) (State.reset) = some false := by decide

/-- R129 example. -/
theorem test_lnot : flagAfter (.lnot .zero) (State.reset) = some true := by decide

/-- R129 example. -/
theorem test_lnot_one : flagAfter (.lnot .one) (State.reset) = some false := by decide

/-- R141 example. -/
theorem test_and : regAfter (.and 1 (.v 0) (.narrow 0x0F)) (two ⟨0xF0, 0xFF⟩ .MAX) 1 = some ⟨0, 0x0F⟩ := by decide

/-- R142 example. -/
theorem test_or : regAfter (.or 2 (.v 0) (.src (.v 1))) (two ⟨1, 0⟩ ⟨0, 1⟩) 2 = some ⟨1, 1⟩ := by decide

/-- R143 example. -/
theorem test_xor :
    regAfter (.xor 0 (.v 0) (.src .one)) (two .MAX .ZERO) 0 = some ⟨ones, 0xFFFFFFFFFFFFFFFFFFFFFFFFFFFFFFFE⟩ := by
  decide

/-- R144 example. -/
theorem test_not : regAfter (.not 3 .one) (State.reset) 3 = some ⟨ones, 0xFFFFFFFFFFFFFFFFFFFFFFFFFFFFFFFE⟩ := by decide

/-- R153 example: ONE by 128. -/
theorem test_shl : regAfter (.shl 0 .one (.narrow 128)) (State.reset) 0 = some ⟨1, 0⟩ := by decide

/-- R153: s = 127 moves bit 0 to bit 127, bit 1 to bit 128. -/
theorem test_shl_127 :
    regAfter (.shl 0 (.v 0) (.narrow 127)) (two (num 3) .ZERO) 0 = some ⟨1, 0x80000000000000000000000000000000⟩ := by
  decide

/-- R154 example. -/
theorem test_shr : regAfter (.shr 0 (.v 0) (.narrow 128)) (two ⟨1, 0⟩ .ZERO) 0 = some ⟨0, 1⟩ := by decide

/-- R154 closed form, C2. -/
theorem test_shr_carries_down_from_upper :
    regAfter (.shr 0 (.v 0) (.narrow 1)) (two ⟨3, 0⟩ .ZERO) 0 = some ⟨1, 0x80000000000000000000000000000000⟩ := by
  decide

/-- R161 example. -/
theorem test_add : regAfter (.add 2 (.v 0) (.src (.v 1))) (two (num 5) (num 3)) 2 = some (num 8) := by decide

/-- R161 corner case. -/
theorem test_add_carry : regAfter (.add 2 (.v 0) (.src .one)) (two ⟨ones, ones⟩ .ZERO) 2 = some .ZERO := by decide

/-- R162 example. -/
theorem test_sub : regAfter (.sub 1 (.v 0) (.src .one)) (two ⟨1, 0⟩ .ZERO) 1 = some ⟨0, ones⟩ := by decide

/-- R162 corner case: ZERO - ONE. -/
theorem test_sub_wraps : regAfter (.sub 1 .zero (.src .one)) (State.reset) 1 = some .MAX := by decide

/-- R163 example. -/
theorem test_inc : regAfter (.inc 0 (.v 0)) (two ⟨0, ones⟩ .ZERO) 0 = some ⟨1, 0⟩ := by decide

/-- R164 example. -/
theorem test_dec : regAfter (.dec 0 (.v 0)) (two ⟨1, 0⟩ .ZERO) 0 = some ⟨0, ones⟩ := by decide

/-- R165 example. -/
theorem test_neg : regAfter (.neg 2 .one) (State.reset) 2 = some .MAX := by decide

/-- R165 corner case. -/
theorem test_neg_zero : regAfter (.neg 2 .zero) (four .ONE .ONE .ONE .ONE) 2 = some .ZERO := by decide

/-- R166 example. -/
theorem test_pos : regAfter (.pos 1 .max) (State.reset) 1 = some .MAX := by decide

/-- R171 example. -/
theorem test_mul :
    regAfter (.mul 2 (.v 0) (.src (.v 1))) (two ⟨0, ones⟩ ⟨0, ones⟩) 2 = some ⟨0xFFFFFFFFFFFFFFFFFFFFFFFFFFFFFFFE, 1⟩ := by
  decide

/-- R171 corner case: MAX * MAX = ONE. -/
theorem test_mul_max : regAfter (.mul 2 .max (.src .max)) (State.reset) 2 = some .ONE := by decide

/-- R177 example: 100 / 7. -/
theorem test_divmod_quotient : regAfter (.divmod 2 3 (.v 0) (.src (.v 1))) (two (num 100) (num 7)) 2 = some (num 14) := by decide

/-- R177 example: 100 mod 7. -/
theorem test_divmod_remainder : regAfter (.divmod 2 3 (.v 0) (.src (.v 1))) (two (num 100) (num 7)) 3 = some (num 2) := by decide

/-- R181 example: MAX / (2^255 + 1). -/
theorem test_div :
    regAfter (.div 1 .max (.src (.v 0))) (two ⟨0x80000000000000000000000000000000, 1⟩ .ZERO) 1 = some .ONE := by
  decide +kernel

/-- R178 example. -/
theorem test_div_by_zero :
    nextOf (exec (.div 1 (.v 0) (.src .zero)) (two (num 100) (num 9))) = some ((two (num 100) (num 9)).afterError .divisionByZero) := by
  decide

/-- R179 example. -/
theorem test_mod : regAfter (.mod 1 (.v 0) (.narrow 7)) (two (num 100) .ZERO) 1 = some (num 2) := by decide

/-- R202: 0 / 0 raises too. -/
theorem test_mod_by_zero :
    nextOf (exec (.mod 1 .zero (.narrow 0)) (two (num 100) (num 9))) = some ((two (num 100) (num 9)).afterError .divisionByZero) := by
  decide

/-- R186 example. -/
theorem test_cvt :
    dataAfter (.cvt .w16 (.v 5)) ({ State.reset with regs := State.reset.regs.set 5 ⟨1, 0x0102⟩ }) = some [1, 2] := by
  decide

/-- R186 corner case. -/
theorem test_cvt_truncates : dataAfter (.cvt .w8 (.v 0)) (two (num 0x1FF) .ZERO) = some [0xFF] := by decide

/-- R187 example. -/
theorem test_tst : flagAfter (.tst (.v 0)) (two ⟨1, 0⟩ .ZERO) = some true := by decide

/-- R187 example. -/
theorem test_tst_zero : flagAfter (.tst .zero) (State.reset) = some false := by decide

/-- R188 example. -/
theorem test_bits : dataAfter (.bits .max) (State.reset) = some [1, 0] := by decide

/-- R188 corner case: bits(2^128) = 129. -/
theorem test_bits_129 : dataAfter (.bits (.v 0)) (two ⟨1, 0⟩ .ZERO) = some [0, 129] := by decide

/-- R189 example. -/
theorem test_str : dataAfter (.str (.v 0) 16 4) (two (num 255) .ZERO) = some [0x30, 0x30, 0x66, 0x66] := by decide

/-- R189: the single digit 0. -/
theorem test_str_zero : dataAfter (.str .zero 10 0) (State.reset) = some [0x30] := by decide

/-- R190 example. -/
theorem test_export : dataAfter (.exportBits (.v 0)) (two ⟨1, 2⟩ .ZERO) = some (zeros 15 ++ [1] ++ zeros 15 ++ [2]) := by decide

/-- R191 example. -/
theorem test_exportt : dataAfter (.exportTrunc (.v 0)) (two (num 0x0100) .ZERO) = some [1, 0] := by decide

/-- R191 example. -/
theorem test_exportt_upper : dataAfter (.exportTrunc (.v 0)) (two ⟨1, 0⟩ .ZERO) = some ([1] ++ zeros 16) := by decide

/-! ### Every statement's hypotheses are met: one witness for each, at the ends of a range where it has one -/

/-- `ADD V2, V0, V1` (R84). -/
def addPacket : Packet := ⟨0xA0200100, []⟩

/-- The all-zero word (T30-1). -/
def badPacket : Packet := ⟨0, []⟩

/-- A packet longer than any the host can present. -/
def longPacket : Packet := ⟨0, List.replicate 65536 0⟩

/-- Registers loaded, a response pending, and something at the port. -/
def withPort (port : List HostEvent) : State := { two (num 5) (num 3) with port := port, rsp := some ⟨.ok, true, []⟩ }

/-- A command in execution. -/
def executing (p : Packet) (port : List HostEvent) : State := { two (num 5) (num 3) with port := port, inExec := some p }

theorem presentable_of_length {p : Packet} (h : p.payload.length = 65536) : presentable p = false := by
  simp [presentable, h, Config.textMax]

theorem presentable_long : presentable longPacket = false := presentable_of_length List.length_replicate

theorem witness_ResetState :
    presentable addPacket = true ∧ decode addPacket = .ok (.add 2 (.v 0) (.src (.v 1))) := by decide

theorem witness_StepKeepsInvariant :
    (withPort [.command addPacket]).Inv ∧ ∃ t, step (withPort [.command addPacket]) = .next t := by
  refine ⟨⟨?_, ?_⟩, _, rfl⟩
  · simp [withPort, two, four, State.responses, Response.wf, State.reset]
  · intro p h; cases h

theorem witness_StepRunsDecodedCommand :
    ((withPort [.command addPacket]).port = .command addPacket :: [] ∧ (withPort [.command addPacket]).inExec = none ∧
      presentable addPacket = true ∧ decode addPacket = .ok (.add 2 (.v 0) (.src (.v 1)))) ∧
    ((executing addPacket [.take]).inExec = some addPacket ∧ ∀ rest, (executing addPacket [.take]).port ≠ .reset :: rest) :=
  ⟨by decide, rfl, fun rest h => by cases h⟩

theorem witness_IllegalPacketAnswered :
    ((withPort [.command badPacket]).port = .command badPacket :: [] ∧ (withPort [.command badPacket]).inExec = none ∧
      presentable badPacket = true ∧ decode badPacket = .error .unassignedOpcode) ∧
    ((executing badPacket []).inExec = some badPacket ∧ ∀ rest, (executing badPacket []).port ≠ .reset :: rest) :=
  ⟨by decide, rfl, fun rest h => by cases h⟩

theorem witness_OneResponsePerPacket :
    (withPort [.command badPacket, .reset]).port = .command badPacket :: [.reset] ∧
    (withPort [.command badPacket, .reset]).inExec = none ∧ presentable badPacket = true := by decide

theorem witness_AcceptThenCompleteIsAtomic :
    (withPort []).inExec = none ∧ presentable addPacket = true ∧ ∀ rest', ([.take] : List HostEvent) ≠ .reset :: rest' :=
  ⟨rfl, by decide, fun rest' h => by cases h⟩

theorem witness_HostEventsAtThePorts :
    ((withPort [.take]).port = .take :: [] ∧ (withPort [.take]).inExec = none ∧
      (withPort [.take]).rsp = some ⟨.ok, true, []⟩) ∧
    (({ State.reset with port := [.take] } : State).port = .take :: [] ∧
      ({ State.reset with port := [.take] } : State).rsp = none) ∧
    ((withPort []).port = [] ∧ (withPort []).inExec = none) ∧
    (executing addPacket [.reset]).port = .reset :: [] := by decide

theorem witness_ResetDiscardsCommand :
    ((withPort [.accept addPacket, .reset]).port = .accept addPacket :: .reset :: [] ∧
      (withPort [.accept addPacket, .reset]).inExec = none ∧ presentable addPacket = true) ∧
    ((withPort [.reset]).port = .reset :: [] ∧ (withPort [.reset]).rsp = some ⟨.ok, true, []⟩) ∧
    ((withPort [.reset, .command addPacket]).port = .reset :: [.command addPacket] ∧
      decode addPacket = .ok (.add 2 (.v 0) (.src (.v 1)))) := by decide

theorem witness_CommandsRunInOrder :
    (withPort [.command addPacket, .command badPacket]).inExec = none ∧
    (∀ p ∈ [addPacket, badPacket], presentable p = true) ∧
    (withPort [.command addPacket, .command badPacket]).port = [addPacket, badPacket].map HostEvent.command := by decide

theorem witness_SoundRunsNeverStop : (executing addPacket [.command badPacket, .reset, .take]).sound := by
  refine ⟨by decide, fun p h => ?_⟩
  cases h
  decide

theorem witness_StepStopsOnlyOnImpossibleInput :
    step (executing longPacket [.take]) = .fault .payloadTooLong ∧
    step (withPort [.command longPacket]) = .fault .payloadTooLong ∧
    step (withPort [.accept longPacket]) = .fault .payloadTooLong ∧
    step (withPort [.interleaved]) = .refused .interleavedPackets := by
  refine ⟨?_, ?_, ?_, rfl⟩
  · show completePacket longPacket _ = _
    simp [completePacket, presentable_long]
  · show completePacket longPacket _ = _
    simp [completePacket, presentable_long]
  · show acceptPacket longPacket _ _ = _
    simp [acceptPacket, presentable_long]

theorem witness_OnlyNamedDestinationsWritten :
    (∃ t, exec (.add 2 (.v 0) (.src (.v 1))) (withPort []) = .next t ∧ t.rsp = some ⟨.ok, false, []⟩ ∧
      3 ∉ (Instr.add 2 (.v 0) (.src (.v 1))).destinations) ∧
    (∃ t, exec (.div 2 (.v 0) (.src .zero)) (withPort []) = .next t ∧ t.rsp = some ⟨.divisionByZero, false, []⟩) :=
  ⟨⟨_, rfl, rfl, by decide⟩, ⟨_, rfl, rfl⟩⟩

theorem witness_ResultDependsOnSourcesOnly :
    ∀ r ∈ (Instr.add 2 (.v 0) (.src (.v 1))).sources,
      (four (num 5) (num 3) .ZERO .ONE).readReg r = (four (num 5) (num 3) .MAX .MAX).readReg r := by decide

theorem witness_ReadingCommandsAreIdempotent : (Instr.str (.v 0) 10 0).destinations = [] ∧ (Instr.lt (.v 0) (.narrow 1)).destinations = [] := by
  decide

theorem witness_ErrorsLeaveNoTrace :
    (∃ t, exec (.parse 1 [0x67] 16) (withPort []) = .next t ∧ t.rsp = some ⟨.invalidCharacter, false, []⟩) ∧
    (∃ t, exec (.mod 1 (.v 0) (.narrow 0)) (withPort []) = .next t ∧ t.rsp = some ⟨.divisionByZero, false, []⟩) ∧
    (∃ t, exec (.divmod 1 1 (.v 0) (.narrow 0)) (withPort []) = .next t ∧ t.rsp = some ⟨.illegalCommand, false, []⟩) :=
  ⟨⟨_, rfl, rfl⟩, ⟨_, rfl, rfl⟩, ⟨_, rfl, rfl⟩⟩

theorem witness_OtherCommandsAreTotal :
    decode addPacket = .ok (.add 2 (.v 0) (.src (.v 1))) ∧
    (∀ rd text base, Instr.add 2 (.v 0) (.src (.v 1)) ≠ .parse rd text base) ∧
    (∀ rd re ra b, Instr.add 2 (.v 0) (.src (.v 1)) ≠ .divmod rd re ra b) ∧
    (∀ rd ra b, Instr.add 2 (.v 0) (.src (.v 1)) ≠ .div rd ra b) ∧
    (∀ rd ra b, Instr.add 2 (.v 0) (.src (.v 1)) ≠ .mod rd ra b) :=
  ⟨by decide, by simp, by simp, by simp, by simp⟩

theorem witness_IllegalIsDecidedFirst :
    ([0x31] : List Byte).length = ([0x67] : List Byte).length ∧
    presentable badPacket = true ∧ decode badPacket = .error .unassignedOpcode ∧
    decode ⟨0x1C100010, [0x67]⟩ = .ok (.parse 1 [0x67] 16) ∧ decode ⟨0xC8100800, []⟩ = .ok (.div 1 (.v 0) (.src .zero)) := by
  decide

theorem witness_IllFormedTermsAnswerIllegal :
    (Instr.divmod 2 2 .one (.src .zero)).wf = false ∧ (Instr.parse 0 [0x67] 37).wf = false ∧ (Instr.str .zero 1 0).wf = false := by
  decide

theorem witness_DecodeOfEncode :
    (Instr.parse 0 [] 2).wf = true ∧ (Instr.str .max 36 0xFFFF).wf = true ∧ (Instr.divmod 7 0 .one (.narrow ones)).wf = true ∧
    (Instr.cvt .w128 .max).wf = true := by decide

theorem witness_EncodeOfDecode :
    decode ⟨0xA2200000, zeros 15 ++ [7]⟩ = .ok (.add 2 (.v 0) (.narrow 7)) ∧ decode addPacket = .ok (.add 2 (.v 0) (.src (.v 1))) := by
  decide

theorem witness_DecoderMatchesOpcodeTable :
    decode ⟨0xC4230100, []⟩ = .ok (.divmod 2 3 (.v 0) (.src (.v 1))) ∧
    (⟨.divmod, 0xC4000000, 0xFD8800FF, 7, 7, 10, 10, 0, 0, .byForm, true⟩ : OpRow) ∈ opcodeTable ∧
    OpRow.admits ⟨.divmod, 0xC4000000, 0xFD8800FF, 7, 7, 10, 10, 0, 0, .byForm, true⟩ ⟨0xC4230100, []⟩ = true := by decide

theorem witness_UnassignedOpcodesIllegal :
    ((0x03FFFFFF#32) >>> 26).toNat = 0x00 ∧ ((0xFC000000#32) >>> 26).toNat = 0x3F ∧ ([] : List Byte).length ≤ 65535 ∧
    (List.replicate 65535 (0 : Byte)).length ≤ 65535 := by
  exact ⟨by decide, by decide, by decide, (List.length_replicate).le⟩

theorem witness_PayloadLengths :
    decode ⟨0xEC00000A, [0xFF, 0xFF]⟩ = .ok (.str (.v 0) 10 0xFFFF) ∧ decode ⟨0x1C100010, []⟩ = .ok (.parse 1 [] 16) ∧
    decode ⟨0xA2200000, zeros 16⟩ = .ok (.add 2 (.v 0) (.narrow 0)) := by decide

theorem witness_RegistersAndSpecifiers :
    11 ≤ (11#4).toNat ∧ 11 ≤ (15#4).toNat ∧ 8 ≤ (8#4).toNat ∧ source 11 = .error .badSpecifier ∧ source 15 = .error .badSpecifier ∧
    destination 8 = .error .badSpecifier ∧ destination 15 = .error .badSpecifier := by decide

theorem witness_OperandBForms :
    (unpack 0xA0200100).n = 0 ∧ operandB (unpack 0xA0200100) [] = .ok (.src (.v 1)) ∧
    (unpack 0xA2200000).n = 1 ∧ operandB (unpack 0xA2200000) (zeros 15 ++ [7]) = .ok (.narrow 7) := by decide

theorem witness_LdpLdqImportBytes : (zeros 31 ++ [1]).length = 32 := by decide

theorem witness_DigitValues :
    ([0x30, 0x39, 0x41, 0x5A, 0x61, 0x7A] : List Byte).map digit = [some 0, some 9, some 10, some 35, some 10, some 35] ∧
    ([0x2F, 0x3A, 0x40, 0x5B, 0x60, 0x7B, 0x00, 0xFF] : List Byte).map digit = List.replicate 8 none := by decide

theorem witness_ParseClosedForm :
    (([0x31, 0x30, 0x31] : List Byte).map digit = [1, 0, 1].map some ∧ ∀ d ∈ [1, 0, 1], d < 2) ∧
    (([0x7A, 0x5A] : List Byte).map digit = [35, 35].map some ∧ ∀ d ∈ [35, 35], d < 36) ∧
    (([] : List Byte).map digit = ([] : List Nat).map some) := by decide

theorem witness_InvalidCharacterExactly :
    (∃ c ∈ ([0x31, 0x32] : List Byte), digit c = none ∨ ∃ d, digit c = some d ∧ 2 ≤ d) ∧
    (∃ c ∈ ([0x7A, 0x5F] : List Byte), digit c = none ∨ ∃ d, digit c = some d ∧ 36 ≤ d) ∧
    (∃ t, exec (.parse 1 [0x31, 0x32] 2) (withPort []) = .next t ∧ t.rsp = some ⟨.invalidCharacter, false, []⟩) :=
  ⟨⟨0x32, by decide, .inr ⟨2, by decide, by decide⟩⟩, ⟨0x5F, by decide, .inl (by decide)⟩, ⟨_, rfl, rfl⟩⟩

theorem witness_ParseUndoesStr :
    dataAfter (.str .max 36 0) State.reset = (dataAfter (.str .max 36 50) State.reset) ∧
    dataAfter (.str .zero 2 3) State.reset = some [0x30, 0x30, 0x30] ∧
    regAfter (.parse 1 [0x30, 0x30, 0x30] 2) (two .ONE .ONE) 1 = some .ZERO := by decide +kernel

theorem witness_OrderLaws : flagLt ⟨0, ones⟩ ⟨1, 0⟩ = true ∧ flagLt ⟨1, 0⟩ .MAX = true := by decide

theorem witness_ShiftsSaturate :
    256 ≤ (State.reset.operandB (.narrow 256)).val ∧ 256 ≤ ((two ⟨1, 0⟩ .ZERO).operandB (.src (.v 0))).val ∧
    regAfter (.shl 0 .max (.narrow 256)) State.reset 0 = some .ZERO ∧
    regAfter (.shr 0 .max (.narrow 255)) State.reset 0 = some .ONE := by decide

theorem witness_DivideResults :
    (State.reset.operandB (.narrow 1)).val ≠ 0 ∧ (State.reset.operandB (.src .max)).val ≠ 0 ∧ (2 : Reg) ≠ 3 := by decide

theorem witness_DivisionByZeroExactly :
    (State.reset.operandB (.narrow 0)).val = 0 ∧ (State.reset.operandB (.src .zero)).val = 0 ∧ (2 : Reg) ≠ 3 ∧
    rspAfter (.divmod 2 3 .one (.src .zero)) State.reset = some ⟨.divisionByZero, false, []⟩ := by decide

theorem witness_DivisionLaws : U256.ONE ≠ U256.ZERO ∧ U256.MAX ≠ U256.ZERO := by decide

theorem witness_InPlaceForms :
    (0 : Reg) ≠ 1 ∧ ((two (num 100) (num 7)).readReg 1).val ≠ 0 ∧
    regAfter (.divmod 0 1 (.v 0) (.src (.v 1))) (two (num 100) (num 7)) 1 = some (num 2) := by decide

theorem witness_StrResult :
    dataAfter (.str (.v 0) 2 0) (two (num 5) .ZERO) = some [0x31, 0x30, 0x31] ∧
    dataAfter (.str (.v 0) 36 3) (two (num 35) .ZERO) = some [0x30, 0x30, 0x7A] := by decide

theorem witness_ExportTruncResult :
    (State.reset.src .max).val ≠ 0 ∧ (State.reset.src .zero).val = 0 ∧
    dataAfter (.exportTrunc .max) State.reset = some (List.replicate 32 0xFF) := by decide

/-- `EXPORTT` of zero: whichever of its two settings the parameter has (R191, U1). -/
theorem test_exportt_zero : exec (.exportTrunc .zero) State.reset =
    .next (State.reset.afterAnswer false (List.replicate Config.truncZeroLen.val 0)) := rfl

theorem witness_LimbBits : (1#128) ≠ 0 ∧ lBits 1 = 1 ∧ ones ≠ 0 ∧ lBits ones = 128 ∧ lBits 0 = 0 := by decide

end Sys2Proof.Tests
end

section
/-! PROOF. The limb primitives of R10 to R18 as integers and as bit strings, and the two statements about them (O59, O60). -/

namespace Sys2Proof.Machine

/-! ### Addition, subtraction and the quarter-limb product (R10 to R12) -/

/-- The overflow test of R10 looks at the wrapped sum alone. -/
theorem lAddCarry_iff (x y : Limb) : lAddCarry x y = true ↔ (lAdd x y).toNat < x.toNat := by
  simp only [lAddCarry, BitVec.ult, decide_eq_true_eq]

/-- The wrapped sum is below the first operand exactly when the exact sum needs a 129th bit (R10). -/
theorem lAdd_lt_iff (x y : Limb) : (lAdd x y).toNat < x.toNat ↔ 2 ^ 128 ≤ x.toNat + y.toNat := by
  have hx := x.isLt
  have hy := y.isLt
  rw [lAdd_toNat]
  omega

/-- The borrow of R11 is the order of the operands. -/
theorem lSubBorrow_iff (x y : Limb) : lSubBorrow x y = true ↔ x.toNat < y.toNat := by
  simp only [lSubBorrow, BitVec.ult, decide_eq_true_eq]

/-- `l_sub` is the integer difference mod `2^128` (R11). -/
theorem lSub_toInt (x y : Limb) : ((lSub x y).toNat : Int) = (x.toNat - y.toNat : Int) % 2 ^ 128 := by
  have hx := x.isLt
  have hy := y.isLt
  rw [lSub_toNat]
  omega

/-- The product of two quarter-limbs fits a limb, so nothing is lost (R12). -/
theorem lMul64_toNat (p q : Quarter) : (lMul64 p q).toNat = p.toNat * q.toNat := by
  have hpq : p.toNat * q.toNat < 2 ^ 64 * 2 ^ 64 := Nat.mul_lt_mul'' p.isLt q.isLt
  have hp : p.toNat % 2 ^ 128 = p.toNat := Nat.mod_eq_of_lt (by omega)
  have hq : q.toNat % 2 ^ 128 = q.toNat := Nat.mod_eq_of_lt (by omega)
  rw [lMul64, BitVec.toNat_mul, BitVec.toNat_setWidth, BitVec.toNat_setWidth, hp, hq]
  exact Nat.mod_eq_of_lt (by omega)

theorem lo64_toNat (x : Limb) : (lo64 x).toNat = x.toNat % 2 ^ 64 := by
  rw [lo64, BitVec.extractLsb'_toNat, Nat.shiftRight_zero]

theorem hi64_toNat (x : Limb) : (hi64 x).toNat = x.toNat / 2 ^ 64 := by
  have hx := x.isLt
  rw [hi64, BitVec.extractLsb'_toNat, Nat.shiftRight_eq_div_pow]
  omega

/-- Settles O59, from the integer value of each primitive. -/
theorem limbArithmetic : Obligations.LimbArithmetic :=
  ⟨fun x y => ⟨lAdd_toNat x y, (lAdd_lt_iff x y).symm, lAddCarry_iff x y⟩,
    fun x y => ⟨lSub_toInt x y, lSubBorrow_iff x y⟩,
    lMul64_toNat,
    fun x => ⟨lo64_toNat x, hi64_toNat x⟩⟩

/-! ### Shifts, complement and order (R13 to R15) -/

theorem lShl_toNat (x : Limb) (n : Fin 128) : (lShl x n).toNat = x.toNat * 2 ^ n.val % 2 ^ 128 := by
  rw [lShl, BitVec.toNat_shiftLeft, Nat.shiftLeft_eq]

theorem lShr_toNat (x : Limb) (n : Fin 128) : (lShr x n).toNat = x.toNat / 2 ^ n.val := by
  rw [lShr, BitVec.toNat_ushiftRight, Nat.shiftRight_eq_div_pow]

theorem lOr_toNat (x y : Limb) : (lOr x y).toNat = x.toNat ||| y.toNat := BitVec.toNat_or ..

theorem lNot_toNat (x : Limb) : (lNot x).toNat = 2 ^ 128 - 1 - x.toNat := BitVec.toNat_not

theorem lLt_iff (x y : Limb) : lLt x y = true ↔ x.toNat < y.toNat := by
  simp only [lLt, BitVec.ult, decide_eq_true_eq]

/-! ### Bit-length (R16) -/

/-- The search over bits `n-1 .. 0` stops at a set bit, unless it finds none. -/
theorem getLsbD_highestBit {x : Limb} {n : Nat} (h : highestBit x n ≠ 0) : x.getLsbD (highestBit x n - 1) = true := by
  induction n with
  | zero => exact absurd rfl h
  | succ n ih =>
    by_cases hbit : x.getLsbD n = true
    · rw [highestBit, if_pos hbit]
      exact hbit
    · rw [highestBit, if_neg hbit] at h ⊢
      exact ih h

/-- Every bit the search passes over is clear. -/
theorem getLsbD_of_highestBit_le {x : Limb} {n k : Nat} (hk : highestBit x n ≤ k) (hn : k < n) :
    x.getLsbD k = false := by
  induction n with
  | zero => exact absurd hn (Nat.not_lt_zero k)
  | succ n ih =>
    by_cases hbit : x.getLsbD n = true
    · rw [highestBit, if_pos hbit] at hk
      omega
    · rw [highestBit, if_neg hbit] at hk
      rcases Nat.lt_succ_iff_lt_or_eq.mp hn with hlt | rfl
      · exact ih hk hlt
      · simpa using hbit

/-- No bit at or above the bit-length is set (R16). -/
theorem getLsbD_of_lBits_le {x : Limb} {k : Nat} (hk : lBits x ≤ k) : x.getLsbD k = false := by
  rcases Nat.lt_or_ge k 128 with hlt | hge
  · exact getLsbD_of_highestBit_le hk hlt
  · exact BitVec.getLsbD_of_ge x k hge

/-- A limb is below two to its bit-length. -/
theorem toNat_lt_two_pow_lBits (x : Limb) : x.toNat < 2 ^ lBits x :=
  Nat.lt_pow_two_of_testBit _ fun _ hk => getLsbD_of_lBits_le hk

/-- Only the zero limb has bit-length 0. -/
theorem lBits_ne_zero {x : Limb} (h : x ≠ 0) : lBits x ≠ 0 := by
  intro h0
  have hlt := toNat_lt_two_pow_lBits x
  rw [h0] at hlt
  exact h (BitVec.eq_of_toNat_eq (Nat.lt_one_iff.mp hlt))

/-! ### Halves and bytes (R17, R18) -/

theorem lFromHalves_toNat (h l : Quarter) : (lFromHalves h l).toNat = h.toNat * 2 ^ 64 + l.toNat := by
  rw [lFromHalves, BitVec.toNat_append, Nat.shiftLeft_eq, Nat.mul_comm, Nat.two_pow_add_eq_or_of_lt l.isLt]

/-- The byte image of a limb holds every bit of it (R18). -/
theorem be_lBytes (x : Limb) : be (lBytes x) = x.toNat := by
  have hx := x.isLt
  rw [lBytes, be_bytesBE]
  exact Nat.mod_eq_of_lt (by omega)

/-- Settles O60. The bitwise functions are the machine's own on each bit; the rest is cited. -/
theorem limbBits : Obligations.LimbBits := by
  refine ⟨fun x n => ⟨lShl_toNat x n, lShr_toNat x n⟩,
    fun x y k => ⟨BitVec.getLsbD_and, BitVec.getLsbD_or, BitVec.getLsbD_xor⟩,
    lNot_toNat, fun x y => ⟨BitVec.toNat_inj.symm, lLt_iff x y⟩, fun x => ⟨?zero, fun hx => ?nonzero⟩,
    lFromHalves_toNat, fun x => ⟨bytesBE_length _ _, be_lBytes x⟩⟩
  case zero =>
    rintro rfl
    decide
  case nonzero =>
    have h0 := lBits_ne_zero hx
    exact ⟨Nat.one_le_iff_ne_zero.mpr h0, lBits_le x, getLsbD_highestBit h0, fun _ hk => getLsbD_of_lBits_le hk⟩

end Sys2Proof.Machine
end

section
/-! PROOF. Noninterference (O15, spec R9, R59): operands are read through the registers a command names, and each way a command
ends gives the same result to equal operands. -/

namespace Sys2Proof.Machine

/-- Both outcomes are next states with one response, and where that response is `OK` the registers `ds` hold the same values. -/
def SameResult (ds : List Reg) (o o' : Host.Outcome State Fault Refusal) : Prop :=
  ∃ (t t' : State) (r : Response), o = .next t ∧ o' = .next t' ∧ t.rsp = some r ∧ t'.rsp = some r ∧
    (r.status = .ok → ∀ d ∈ ds, t.readReg d = t'.readReg d)

variable {s s' : State}

/-! ### The ways a command ends -/

theorem sameResult_answer (flag : Bool) (data : List Byte) : SameResult [] (answer flag data s) (answer flag data s') :=
  ⟨_, _, _, rfl, rfl, rfl, rfl, fun _ _ hd => absurd hd List.not_mem_nil⟩

theorem sameResult_writeResult (rd : Reg) (v : U256) : SameResult [rd] (writeResult rd v s) (writeResult rd v s') := by
  refine ⟨_, _, _, rfl, rfl, rfl, rfl, fun _ d hd => ?_⟩
  obtain rfl := List.mem_singleton.mp hd
  simp

/-- The two writes of `DIVMOD` (R177); the second one is the one that stands where the destinations coincide. -/
theorem sameResult_writeResult_writeReg (rd re : Reg) (q r : U256) :
    SameResult [rd, re] (writeResult re r (s.writeReg rd q)) (writeResult re r (s'.writeReg rd q)) := by
  refine ⟨_, _, _, rfl, rfl, rfl, rfl, fun _ d hd => ?_⟩
  rw [State.respond_readReg, State.respond_readReg]
  by_cases he : d = re
  · simp [he]
  · have hrd : d = rd := by simpa [he] using hd
    rw [State.readReg_writeReg_other _ _ _ he, State.readReg_writeReg_other _ _ _ he, hrd,
      State.readReg_writeReg_same, State.readReg_writeReg_same]

/-- An error writes nothing, so there is nothing to compare but the response (R204). -/
theorem sameResult_raise {e : Status} (he : e ≠ .ok) (ds : List Reg) : SameResult ds (raise e s) (raise e s') :=
  ⟨_, _, _, rfl, rfl, rfl, rfl, fun hok => absurd hok he⟩

theorem sameResult_whenLegal {ds : List Reg} {k : State → Host.Outcome State Fault Refusal} (legal : Bool)
    (h : SameResult ds (k s) (k s')) : SameResult ds (whenLegal legal k s) (whenLegal legal k s') := by
  cases legal with
  | false => exact sameResult_raise (by decide) ds
  | true => exact h

/-! ### Operands are read through the registers they name -/

theorem src_congr_regs {a : Src} (h : ∀ r ∈ a.regs, s.readReg r = s'.readReg r) : s.src a = s'.src a := by
  cases a with
  | v r => exact h r (List.mem_singleton_self r)
  | zero | one | max => rfl

theorem operandB_congr_regs {b : OperandB} (h : ∀ r ∈ b.regs, s.readReg r = s'.readReg r) :
    s.operandB b = s'.operandB b := by
  cases b with
  | src a => exact src_congr_regs h
  | narrow _ => rfl

theorem operands_congr_regs {ra : Src} {b : OperandB} (h : ∀ r ∈ ra.regs ++ b.regs, s.readReg r = s'.readReg r) :
    s.src ra = s'.src ra ∧ s.operandB b = s'.operandB b :=
  ⟨src_congr_regs fun r hr => h r (List.mem_append_left _ hr),
    operandB_congr_regs fun r hr => h r (List.mem_append_right _ hr)⟩

section Operands
variable {ra : Src} {b : OperandB} (rd : Reg)

theorem sameResult_writeUnary (f : U256 → U256) (h : ∀ r ∈ ra.regs, s.readReg r = s'.readReg r) :
    SameResult [rd] (writeResult rd (f (s.src ra)) s) (writeResult rd (f (s'.src ra)) s') := by
  rw [src_congr_regs h]
  exact sameResult_writeResult rd _

theorem sameResult_writeBinary (f : U256 → U256 → U256) (h : ∀ r ∈ ra.regs ++ b.regs, s.readReg r = s'.readReg r) :
    SameResult [rd] (writeResult rd (f (s.src ra) (s.operandB b)) s)
      (writeResult rd (f (s'.src ra) (s'.operandB b)) s') := by
  obtain ⟨ha, hb⟩ := operands_congr_regs h
  rw [ha, hb]
  exact sameResult_writeResult rd _

theorem sameResult_flagBinary (f : U256 → U256 → Bool) (h : ∀ r ∈ ra.regs ++ b.regs, s.readReg r = s'.readReg r) :
    SameResult [] (answer (f (s.src ra) (s.operandB b)) [] s) (answer (f (s'.src ra) (s'.operandB b)) [] s') := by
  obtain ⟨ha, hb⟩ := operands_congr_regs h
  rw [ha, hb]
  exact sameResult_answer _ _

theorem sameResult_answerUnary (flag : U256 → Bool) (data : U256 → List Byte)
    (h : ∀ r ∈ ra.regs, s.readReg r = s'.readReg r) :
    SameResult [] (answer (flag (s.src ra)) (data (s.src ra)) s) (answer (flag (s'.src ra)) (data (s'.src ra)) s') := by
  rw [src_congr_regs h]
  exact sameResult_answer _ _

end Operands

/-! ### The commands that can raise an error -/

theorem sameResult_execStr {ra : Src} (base : Nat) (m : BitVec 16) (h : ∀ r ∈ ra.regs, s.readReg r = s'.readReg r) :
    SameResult [] (execStr ra base m s) (execStr ra base m s') := by
  unfold execStr
  apply sameResult_whenLegal
  exact sameResult_answerUnary (fun _ => false) (formatText base m.toNat) h

theorem sameResult_execParseLegal (rd : Reg) (text : List Byte) (base : Nat) :
    SameResult [rd] (execParseLegal rd text base s) (execParseLegal rd text base s') := by
  unfold execParseLegal
  cases parseText base text with
  | none => exact sameResult_raise (by decide) _
  | some v => exact sameResult_writeResult rd v

section Divide
variable {ra : Src} {b : OperandB}

theorem sameResult_execDivmodLegal (rd re : Reg) (h : ∀ r ∈ ra.regs ++ b.regs, s.readReg r = s'.readReg r) :
    SameResult [rd, re] (execDivmodLegal rd re ra b s) (execDivmodLegal rd re ra b s') := by
  obtain ⟨ha, hb⟩ := operands_congr_regs h
  unfold execDivmodLegal
  rw [ha, hb]
  cases uDivmod (s'.src ra) (s'.operandB b) with
  | none => exact sameResult_raise (by decide) _
  | some qr => exact sameResult_writeResult_writeReg rd re qr.1 qr.2

theorem sameResult_execDiv (rd : Reg) (h : ∀ r ∈ ra.regs ++ b.regs, s.readReg r = s'.readReg r) :
    SameResult [rd] (execDiv rd ra b s) (execDiv rd ra b s') := by
  obtain ⟨ha, hb⟩ := operands_congr_regs h
  unfold execDiv
  rw [ha, hb]
  cases uDivmod (s'.src ra) (s'.operandB b) with
  | none => exact sameResult_raise (by decide) _
  | some qr => exact sameResult_writeResult rd qr.1

theorem sameResult_execMod (rd : Reg) (h : ∀ r ∈ ra.regs ++ b.regs, s.readReg r = s'.readReg r) :
    SameResult [rd] (execMod rd ra b s) (execMod rd ra b s') := by
  obtain ⟨ha, hb⟩ := operands_congr_regs h
  unfold execMod
  rw [ha, hb]
  cases uDivmod (s'.src ra) (s'.operandB b) with
  | none => exact sameResult_raise (by decide) _
  | some qr => exact sameResult_writeResult rd qr.2

end Divide

/-- Settles O15, one case for each command: each names its operands and the function of them it answers with or writes. -/
theorem resultDependsOnSourcesOnly : Obligations.ResultDependsOnSourcesOnly := by
  intro i s s' h
  change SameResult i.destinations (exec i s) (exec i s')
  cases i with
  | ldu rd n => exact sameResult_writeResult rd _
  | lds rd n => exact sameResult_writeResult rd _
  | ldb rd t => exact sameResult_writeResult rd _
  | ldh rd x => exact sameResult_writeResult rd _
  | ldp rd u l => exact sameResult_writeResult rd _
  | ldq rd q3 q2 q1 q0 => exact sameResult_writeResult rd _
  | parse rd text base => exact sameResult_whenLegal _ (sameResult_execParseLegal rd text base)
  | eq ra b => exact sameResult_flagBinary flagEq h
  | ne ra b => exact sameResult_flagBinary flagNe h
  | lt ra b => exact sameResult_flagBinary flagLt h
  | gt ra b => exact sameResult_flagBinary flagGt h
  | le ra b => exact sameResult_flagBinary flagLe h
  | ge ra b => exact sameResult_flagBinary flagGe h
  | land ra b => exact sameResult_flagBinary flagLand h
  | lor ra b => exact sameResult_flagBinary flagLor h
  | lnot ra => exact sameResult_answerUnary flagLnot (fun _ => []) h
  | and rd ra b => exact sameResult_writeBinary rd uAnd h
  | or rd ra b => exact sameResult_writeBinary rd uOr h
  | xor rd ra b => exact sameResult_writeBinary rd uXor h
  | not rd ra => exact sameResult_writeUnary rd uNot h
  | shl rd ra b => exact sameResult_writeBinary rd uShl h
  | shr rd ra b => exact sameResult_writeBinary rd uShr h
  | add rd ra b => exact sameResult_writeBinary rd uAdd h
  | sub rd ra b => exact sameResult_writeBinary rd uSub h
  | inc rd ra => exact sameResult_writeUnary rd (fun a => uAdd a .ONE) h
  | dec rd ra => exact sameResult_writeUnary rd (fun a => uSub a .ONE) h
  | neg rd ra => exact sameResult_writeUnary rd (fun a => uSub .ZERO a) h
  | pos rd ra => exact sameResult_writeUnary rd (fun a => a) h
  | mul rd ra b => exact sameResult_writeBinary rd uMul h
  | divmod rd re ra b => exact sameResult_whenLegal _ (sameResult_execDivmodLegal rd re h)
  | div rd ra b => exact sameResult_execDiv rd h
  | mod rd ra b => exact sameResult_execMod rd h
  | cvt w ra => exact sameResult_answerUnary (fun _ => false) (cvtData w) h
  | tst ra => exact sameResult_answerUnary flagTst (fun _ => []) h
  | bits ra => exact sameResult_answerUnary (fun _ => false) (fun a => bytesBE (uBits a) 2) h
  | str ra base m => exact sameResult_execStr base m h
  | exportBits ra => exact sameResult_answerUnary (fun _ => false) exportData h
  | exportTrunc ra => exact sameResult_answerUnary (fun _ => false) (exportTruncData Config.truncZeroLen.val) h

end Sys2Proof.Machine
end

section
/-! PROOF. The long division of R176 computes quotient and remainder, and the in-place forms of R226 (O53). The loop at bit `i`
holds `(a / 2^i) / b`, moved up by `i` bits, and `(a / 2^i) % b`. -/

namespace Sys2Proof.Machine

/-! ### Bits of a value -/

/-- Bit `i` of a value is bit `i` of the integer it denotes (R7). -/
theorem vbit_eq_testBit (a : U256) (i : Nat) : a.vbit i = a.val.testBit i := by
  rw [U256.val, Nat.mul_comm, Nat.testBit_two_pow_mul_add _ a.lower.isLt]
  rfl

/-- A value is below two to its bit-length (R188). -/
theorem val_lt_two_pow_uBits (a : U256) : a.val < 2 ^ uBits a := by
  have hl := a.lower.isLt
  have hu := toNat_lt_two_pow_lBits a.upper
  unfold uBits
  split
  · calc a.val < (a.upper.toNat + 1) * 2 ^ 128 := by rw [U256.val]; omega
      _ ≤ 2 ^ lBits a.upper * 2 ^ 128 := Nat.mul_le_mul_right _ hu
      _ = 2 ^ (128 + lBits a.upper) := by rw [Nat.pow_add, Nat.mul_comm]
  · next hz =>
    have hz : a.upper = 0 := by simpa using hz
    simpa [U256.val, hz] using toNat_lt_two_pow_lBits a.lower

/-- Where the low bits of `m` are clear, `or` with a number that fits them is addition. -/
theorem or_eq_add_of_dvd {m n k : Nat} (hm : 2 ^ k ∣ m) (hn : n < 2 ^ k) : m ||| n = m + n := by
  obtain ⟨c, rfl⟩ := hm
  exact (Nat.two_pow_add_eq_or_of_lt hn c).symm

theorem lOr_one_shl_toNat {x : Limb} {i : Nat} (hi : i < 128) (hx : 2 ^ (i + 1) ∣ x.toNat) :
    (lOr x (1#128 <<< i)).toNat = x.toNat + 2 ^ i := by
  have hone : (1#128 <<< i).toNat = 2 ^ i := by
    rw [BitVec.toNat_shiftLeft, Nat.shiftLeft_eq]
    simpa using Nat.mod_eq_of_lt (Nat.pow_lt_pow_right Nat.one_lt_two hi)
  rw [lOr_toNat, hone, or_eq_add_of_dvd hx (Nat.pow_lt_pow_succ Nat.one_lt_two)]

/-- Setting bit `i` of a quotient whose bits `i` and below are clear adds `2^i` (R176). -/
theorem setBit_val {q : U256} {i : Nat} (hi : i < 256) (hq : 2 ^ (i + 1) ∣ q.val) :
    (setBit q i).val = q.val + 2 ^ i := by
  have hl := q.lower.isLt
  unfold setBit
  split
  · next h =>
    have hlow : 2 ^ (i + 1) ∣ q.lower.toNat :=
      (Nat.dvd_add_right (Dvd.dvd.mul_left (Nat.pow_dvd_pow 2 h) _)).mp hq
    simp only [U256.val, lOr_one_shl_toNat h hlow]
    omega
  · next h =>
    obtain ⟨j, rfl⟩ : ∃ j, i = 128 + j := ⟨i - 128, by omega⟩
    rw [Nat.add_sub_cancel_left]
    obtain ⟨k, hk⟩ := hq
    have hval : q.upper.toNat * 2 ^ 128 + q.lower.toNat = 2 ^ (j + 1) * k * 2 ^ 128 := by
      rw [← U256.val, hk, Nat.add_assoc, Nat.pow_add]
      ring
    have hup : q.upper.toNat = 2 ^ (j + 1) * k := by omega
    simp only [U256.val, lOr_one_shl_toNat (by omega : j < 128) ⟨k, hup⟩, Nat.pow_add]
    ring

/-! ### One step of the division -/

theorem uShl_one (r : U256) :
    uShl r .ONE = ⟨lOr (lShl r.upper 1) (lShr r.lower 127), lShl r.lower 1⟩ := rfl

/-- The remainder shifted left, with a bit of the dividend brought down into it (R176). -/
def shiftIn (r : U256) (c : Bool) : U256 := ⟨(uShl r .ONE).upper, lOr (uShl r .ONE).lower (carryLimb c)⟩

theorem divStep_eq (a b : U256) (i : Nat) (q r : U256) :
    divStep a b i q r =
      if uGe (shiftIn r (a.vbit i)) b then (setBit q i, uSub (shiftIn r (a.vbit i)) b)
      else (q, shiftIn r (a.vbit i)) := rfl

theorem shiftIn_val (r : U256) (c : Bool) : (shiftIn r c).val = (2 * r.val + c.toNat) % 2 ^ 256 := by
  have hu := r.upper.isLt
  have hl := r.lower.isLt
  have hc : c.toNat < 2 ^ 1 := Bool.toNat_lt c
  have hcarry : (carryLimb c).toNat = c.toNat := by cases c <;> rfl
  have h1 : (1 : Fin 128).val = 1 := rfl
  have h127 : (127 : Fin 128).val = 127 := rfl
  have hupper : (lOr (lShl r.upper 1) (lShr r.lower 127)).toNat =
      r.upper.toNat * 2 ^ 1 % 2 ^ 128 + r.lower.toNat / 2 ^ 127 := by
    rw [lOr_toNat, lShl_toNat, lShr_toNat, h1, h127]
    exact or_eq_add_of_dvd (k := 1) (by omega) (by omega)
  have hlower : (lOr (lShl r.lower 1) (carryLimb c)).toNat = r.lower.toNat * 2 ^ 1 % 2 ^ 128 + c.toNat := by
    rw [lOr_toNat, lShl_toNat, h1, hcarry]
    exact or_eq_add_of_dvd (k := 1) (by omega) hc
  rw [shiftIn, uShl_one, U256.val, hupper, hlower, U256.val]
  omega

/-- The loop at bit `i`: quotient and remainder of the dividend's bits `i` and above. -/
def DivInv (a b : U256) (i : Nat) (q r : U256) : Prop :=
  q.val = a.val / 2 ^ i / b.val * 2 ^ i ∧ r.val = a.val / 2 ^ i % b.val

/-- One more bit of a dividend: its quotient doubles, and gains one where the new remainder reaches the divisor. -/
theorem div_mod_two_mul_add (n c : Nat) {b : Nat} (hb : 0 < b) (hc : c < 2) :
    (b ≤ 2 * (n % b) + c → (2 * n + c) / b = 2 * (n / b) + 1 ∧ (2 * n + c) % b = 2 * (n % b) + c - b) ∧
    (2 * (n % b) + c < b → (2 * n + c) / b = 2 * (n / b) ∧ (2 * n + c) % b = 2 * (n % b) + c) := by
  have hmod := Nat.mod_lt n hb
  have hn := Nat.div_add_mod n b
  constructor
  · intro h
    rw [Nat.div_mod_unique hb]
    exact ⟨by rw [Nat.mul_add, Nat.mul_left_comm]; omega, by omega⟩
  · intro h
    rw [Nat.div_mod_unique hb]
    exact ⟨by rw [Nat.mul_left_comm]; omega, h⟩

theorem divStep_inv {a b q r : U256} {i : Nat} (hb : b.val ≠ 0) (hi : i < 256) (h : DivInv a b (i + 1) q r) :
    DivInv a b i (divStep a b i q r).1 (divStep a b i q r).2 := by
  obtain ⟨hq, hr⟩ := h
  have hpos := Nat.pos_of_ne_zero hb
  have hc : (a.vbit i).toNat < 2 := Bool.toNat_lt _
  have hsplit : a.val / 2 ^ i = 2 * (a.val / 2 ^ (i + 1)) + (a.vbit i).toNat := by
    rw [vbit_eq_testBit, Nat.toNat_testBit, Nat.pow_succ, ← Nat.div_div_eq_div_mul]
    omega
  obtain ⟨hge, hlt⟩ := div_mod_two_mul_add (a.val / 2 ^ (i + 1)) (a.vbit i).toNat hpos hc
  rw [← hsplit, ← hr] at hge hlt
  -- the shifted remainder is at most the dividend, so no bit is lost at the top
  have hfit : 2 * r.val + (a.vbit i).toNat < 2 ^ 256 := by
    have ha := a.val_lt
    have h1 := Nat.div_le_self a.val (2 ^ i)
    have h2 := Nat.mod_le (a.val / 2 ^ (i + 1)) b.val
    omega
  have hshift := (shiftIn_val r (a.vbit i)).trans (Nat.mod_eq_of_lt hfit)
  rw [DivInv, divStep_eq]
  split
  · next hcmp =>
    rw [uGe_iff, hshift] at hcmp
    obtain ⟨hquot, hrem⟩ := hge hcmp
    constructor
    · rw [setBit_val hi (hq ▸ Nat.dvd_mul_left _ _), hquot, hq, Nat.pow_succ]
      ring
    · rw [uSub_val, hshift, hrem]
      have := b.val_lt
      omega
  · next hcmp =>
    rw [uGe_iff, hshift, not_le] at hcmp
    obtain ⟨hquot, hrem⟩ := hlt hcmp
    exact ⟨by rw [hquot, hq, Nat.pow_succ]; ring, by rw [hshift, hrem]⟩

/-! ### The divider -/

theorem divLoop_inv {a b : U256} (hb : b.val ≠ 0) {n : Nat} (hn : n ≤ 256) {q r : U256} (h : DivInv a b n q r) :
    DivInv a b 0 (divLoop a b n q r).1 (divLoop a b n q r).2 := by
  induction n generalizing q r with
  | zero => exact h
  | succ n ih => exact ih (by omega) (divStep_inv hb (by omega) h)

/-- `divmod(a, b)` for a nonzero divisor: the exact quotient and remainder (R175, R176). -/
theorem uDivmod_eq_some (a b : U256) (hb : b.val ≠ 0) :
    ∃ q r, uDivmod a b = some (q, r) ∧ q.val = a.val / b.val ∧ r.val = a.val % b.val := by
  obtain ⟨hless, hequal⟩ := uDivmod_early a b hb
  rcases Nat.lt_trichotomy a.val b.val with hlt | heq | hgt
  · exact ⟨_, _, hless hlt, (Nat.div_eq_of_lt hlt).symm, (Nat.mod_eq_of_lt hlt).symm⟩
  · refine ⟨_, _, hequal heq, ?_, ?_⟩
    · rw [heq, Nat.div_self (Nat.pos_of_ne_zero hb)]; rfl
    · rw [heq, Nat.mod_self]; rfl
  · have hzero : uEq b .ZERO = false := by rw [← Bool.not_eq_true, uEq_iff]; exact hb
    have hnlt : uLt a b = false := by rw [← Bool.not_eq_true, uLt_iff]; omega
    have hne : uEq a b = false := by rw [← Bool.not_eq_true, uEq_iff]; omega
    have hstart : DivInv a b (uBits a) .ZERO .ZERO := by
      simp [DivInv, Nat.div_eq_of_lt (val_lt_two_pow_uBits a)]
    obtain ⟨hq, hr⟩ := divLoop_inv hb (uBits_le a) hstart
    have hrun : uDivmod a b = some (divLoop a b (uBits a) .ZERO .ZERO) := by simp [uDivmod, hzero, hnlt, hne]
    exact ⟨_, _, hrun, by simpa using hq, by simpa using hr⟩

/-! ### In-place forms (R225, R226) -/

/-- `DIVMOD` with two destinations and a nonzero divisor (R177): both operands are read in the state before it. -/
theorem exec_divmod {rd re : Reg} (hd : rd ≠ re) (ra : Src) (b : OperandB) (s : State) (hb : (s.operandB b).val ≠ 0) :
    ∃ q r, exec (.divmod rd re ra b) s = writeResult re r (s.writeReg rd q) ∧
      q.val = (s.src ra).val / (s.operandB b).val ∧ r.val = (s.src ra).val % (s.operandB b).val := by
  obtain ⟨q, r, hqr, hq, hr⟩ := uDivmod_eq_some (s.src ra) (s.operandB b) hb
  have hwf : (Instr.divmod rd re ra b).wf = true := decide_eq_true hd
  refine ⟨q, r, ?_, hq, hr⟩
  change whenLegal (Instr.divmod rd re ra b).wf (execDivmodLegal rd re ra b) s = _
  rw [hwf, whenLegal_true, execDivmodLegal, hqr]

theorem uSub_self (a : U256) : uSub a a = ⟨0, 0⟩ := by
  apply U256.val_inj.mp
  have hval : (⟨0, 0⟩ : U256).val = 0 := rfl
  rw [uSub_val, hval]
  omega

/-- Settles O53, from the divider's result and the rules for reading after a write. -/
theorem inPlaceForms : Obligations.InPlaceForms := by
  refine ⟨fun x y s hxy hb => ?divmod, fun x s => ?sub, fun x s => ?add⟩
  case divmod =>
    obtain ⟨q, r, hexec, hq, hr⟩ := exec_divmod hxy (.v x) (.src (.v y)) s hb
    refine ⟨_, hexec, ?_, ?_, fun z hzx hzy => ?_⟩
    · rw [State.respond_readReg, State.readReg_writeReg_other _ _ _ hxy, State.readReg_writeReg_same]
      exact hq
    · rw [State.respond_readReg, State.readReg_writeReg_same]
      exact hr
    · rw [State.respond_readReg, State.readReg_writeReg_other _ _ _ hzy, State.readReg_writeReg_other _ _ _ hzx]
  case sub =>
    change writeResult x (uSub (s.readReg x) (s.readReg x)) s = _
    rw [uSub_self]
    rfl
  case add =>
    refine ⟨_, rfl, ?_, fun z hz => ?_⟩
    · rw [State.respond_readReg, State.readReg_writeReg_same, uAdd_val, Nat.two_mul]
      rfl
    · rw [State.respond_readReg, State.readReg_writeReg_other _ _ _ hz]

end Sys2Proof.Machine
end

section
/-! PROOF. What every command does to the state of `10_state.md`: the ways it can end, said once for all 38 commands
(`exec_commandEnd`), and from them the registers it leaves alone (O14) and the invariant every step keeps (O2, O3). -/

namespace Sys2Proof.Machine

/-! ### The ways a command ends -/

/-- The error statuses a command can end with (R206, R207; for ill-formed terms log entry 12). -/
def MayRaise (i : Instr) : Status → Prop
  | .ok => False
  | .invalidCharacter => i.opcode = .parse
  | .divisionByZero => i.opcode = .divmod ∨ i.opcode = .div ∨ i.opcode = .mod
  | .illegalCommand => i.wf = false

/-- Every way the command `i` can end from `s`: with the registers it names written, with a flag, with data, or with an error. -/
inductive CommandEnd (i : Instr) (s : State) : Host.Outcome State Fault Refusal → Prop
  | write (rd : Reg) (v : U256) (hd : i.destinations = [rd]) : CommandEnd i s (writeResult rd v s)
  | writeTwo (rd re : Reg) (q r : U256) (hd : i.destinations = [rd, re]) :
      CommandEnd i s (writeResult re r (s.writeReg rd q))
  | flag (c : Bool) (hd : i.destinations = []) (hf : i.returnsFlag = true) : CommandEnd i s (answer c [] s)
  | data (bytes : List Byte) (hd : i.destinations = []) (hr : i.returnsData = true)
      (hlen : bytes.length ≤ Config.textMax) : CommandEnd i s (answer false bytes s)
  | error (e : Status) (he : MayRaise i e) : CommandEnd i s (raise e s)

section Ends
variable {i : Instr} {s : State}

theorem CommandEnd.of_whenLegal {k : State → Host.Outcome State Fault Refusal} (h : CommandEnd i s (k s)) :
    CommandEnd i s (whenLegal i.wf k s) := by
  cases hwf : i.wf with
  | false => exact .error .illegalCommand hwf
  | true => exact h

theorem commandEnd_execParseLegal (rd : Reg) (text : List Byte) (base : Nat) :
    CommandEnd (.parse rd text base) s (execParseLegal rd text base s) := by
  unfold execParseLegal
  cases parseText base text with
  | none => exact .error .invalidCharacter rfl
  | some v => exact .write rd v rfl

theorem commandEnd_execDivmodLegal (rd re : Reg) (ra : Src) (b : OperandB) :
    CommandEnd (.divmod rd re ra b) s (execDivmodLegal rd re ra b s) := by
  unfold execDivmodLegal
  cases uDivmod (s.src ra) (s.operandB b) with
  | none => exact .error .divisionByZero (.inl rfl)
  | some qr => exact .writeTwo rd re qr.1 qr.2 rfl

theorem commandEnd_execDiv (rd : Reg) (ra : Src) (b : OperandB) :
    CommandEnd (.div rd ra b) s (execDiv rd ra b s) := by
  unfold execDiv
  cases uDivmod (s.src ra) (s.operandB b) with
  | none => exact .error .divisionByZero (.inr (.inl rfl))
  | some qr => exact .write rd qr.1 rfl

theorem commandEnd_execMod (rd : Reg) (ra : Src) (b : OperandB) :
    CommandEnd (.mod rd ra b) s (execMod rd ra b s) := by
  unfold execMod
  cases uDivmod (s.src ra) (s.operandB b) with
  | none => exact .error .divisionByZero (.inr (.inr rfl))
  | some qr => exact .write rd qr.2 rfl

/-! ### The data of a response fits it (R52) -/

theorem cvtData_fits (w : CvtWidth) (a : U256) : (cvtData w a).length ≤ Config.textMax := by
  rw [cvtData_length]
  cases w <;> decide

/-- The minimum length is a 16-bit number, and a value has at most 256 digits (R75, R189). -/
theorem formatText_fits (base : Nat) (m : BitVec 16) (a : U256) :
    (formatText base m.toNat a).length ≤ Config.textMax := by
  have hm := m.isLt
  have hdigits := digitsOf_length base a
  rw [formatText_length, Config.textMax]
  omega

theorem exportTruncData_fits (zeroLen : Fin 2) (a : U256) :
    (exportTruncData zeroLen.val a).length ≤ Config.textMax := by
  have hlen := exportTruncData_length zeroLen.val a
  rw [Config.textMax]
  omega

theorem commandEnd_execStr (ra : Src) (base : Nat) (m : BitVec 16) :
    CommandEnd (.str ra base m) s (execStr ra base m s) := by
  unfold execStr
  exact .of_whenLegal (.data (formatText base m.toNat (s.src ra)) rfl rfl (formatText_fits base m _))

/-- Every command ends in one of the ways of `CommandEnd`. -/
theorem exec_commandEnd (i : Instr) (s : State) : CommandEnd i s (exec i s) := by
  cases i with
  | ldu rd | lds rd | ldb rd | ldh rd | ldp rd | ldq rd => exact .write rd _ rfl
  | and rd | or rd | xor rd | not rd | shl rd | shr rd => exact .write rd _ rfl
  | add rd | sub rd | inc rd | dec rd | neg rd | pos rd | mul rd => exact .write rd _ rfl
  | eq | ne | lt | gt | le | ge | land | lor | lnot | tst => exact .flag _ rfl rfl
  | parse rd text base => exact .of_whenLegal (commandEnd_execParseLegal rd text base)
  | divmod rd re ra b => exact .of_whenLegal (commandEnd_execDivmodLegal rd re ra b)
  | div rd ra b => exact commandEnd_execDiv rd ra b
  | mod rd ra b => exact commandEnd_execMod rd ra b
  | cvt w ra => exact .data _ rfl rfl (cvtData_fits w _)
  | bits ra => exact .data _ rfl rfl ((bytesBE_length _ _).trans_le (by decide))
  | str ra base m => exact commandEnd_execStr ra base m
  | exportBits ra => exact .data _ rfl rfl ((exportData_length _).trans_le (by decide))
  | exportTrunc ra => exact .data _ rfl rfl (exportTruncData_fits _ _)

/-! ### The next state of a command -/

theorem Response.wf_ok (flag : Bool) {data : List Byte} (h : data.length ≤ Config.textMax) :
    Response.wf ⟨.ok, flag, data⟩ :=
  ⟨fun hne => absurd rfl hne, h⟩

theorem Response.wf_empty (e : Status) : Response.wf ⟨e, false, []⟩ :=
  ⟨fun _ => ⟨rfl, rfl⟩, Nat.zero_le _⟩

/-- However a command ends, its next state differs in registers it names and in the response, which has the form of R52; an
error leaves every register (R34, R204). -/
theorem CommandEnd.eq_next {o : Host.Outcome State Fault Refusal} (h : CommandEnd i s o) :
    ∃ (regs : Vector U256 8) (r : Response),
      o = .next { s with regs := regs, rsp := some r, inExec := none } ∧ r.wf ∧
      (∀ d : Reg, d ∉ i.destinations → regs[d] = s.readReg d) ∧ (r.status ≠ .ok → regs = s.regs) := by
  cases h with
  | write rd v hd =>
    refine ⟨(s.writeReg rd v).regs, ⟨.ok, false, []⟩, rfl, Response.wf_empty _, fun d hmem => ?_, fun hne => absurd rfl hne⟩
    exact State.readReg_writeReg_other _ _ _ (by simpa [hd] using hmem)
  | writeTwo rd re q r hd =>
    refine ⟨((s.writeReg rd q).writeReg re r).regs, ⟨.ok, false, []⟩, rfl, Response.wf_empty _, fun d hmem => ?_,
      fun hne => absurd rfl hne⟩
    obtain ⟨hrd, hre⟩ : d ≠ rd ∧ d ≠ re := by simpa [hd] using hmem
    exact (State.readReg_writeReg_other _ _ _ hre).trans (State.readReg_writeReg_other _ _ _ hrd)
  | flag c => exact ⟨s.regs, ⟨.ok, c, []⟩, rfl, Response.wf_ok c (Nat.zero_le _), fun _ _ => rfl, fun _ => rfl⟩
  | data bytes _ _ hlen =>
    exact ⟨s.regs, ⟨.ok, false, bytes⟩, rfl, Response.wf_ok false hlen, fun _ _ => rfl, fun _ => rfl⟩
  | error e => exact ⟨s.regs, ⟨e, false, []⟩, rfl, Response.wf_empty e, fun _ _ => rfl, fun _ => rfl⟩

end Ends

/-- Settles O14: the command's next state, read register by register. -/
theorem onlyNamedDestinationsWritten : Obligations.OnlyNamedDestinationsWritten := by
  intro i s t r hexec hrsp
  obtain ⟨regs, r', hnext, -, hframe, herror⟩ := (exec_commandEnd i s).eq_next
  obtain rfl := Host.Outcome.next.inj (hexec.symm.trans hnext)
  obtain rfl := Option.some.inj hrsp
  exact ⟨hframe, fun hne => State.readReg_congr (herror hne)⟩

/-! ### The invariant (R41, R51, R52, R64) -/

section Invariant
variable {s t : State}

/-- With no command in execution the invariant speaks of the responses alone. -/
theorem inv_of_inExec_none (he : s.inExec = none) (hw : ∀ r ∈ s.responses, r.wf) : s.Inv :=
  ⟨hw, fun _ hp => by simp [he] at hp⟩

theorem responses_wf_taken (hw : ∀ r ∈ s.responses, r.wf) : ∀ r ∈ s.taken, r.wf :=
  fun r hr => hw r (List.mem_append_left _ hr)

/-- Taking the pending response moves it to the end of those taken (R64). -/
@[simp] theorem responses_takeResponse (s : State) : s.takeResponse.responses = s.responses := by
  simp [State.responses]

@[simp] theorem responses_accepted (s : State) (rest : List HostEvent) : (s.accepted rest).responses = s.responses := by
  simp [State.responses]

@[simp] theorem responses_applyReset (s : State) (rest : List HostEvent) : (s.applyReset rest).responses = s.taken := by
  simp [State.responses]

/-- A packet carried out ends with a response of the form of R52, legal or not, and nothing in execution. -/
theorem completePacket_eq_next {p : Packet} (h : completePacket p s = .next t) :
    t.inExec = none ∧ t.taken = s.taken ∧ ∃ r, t.rsp = some r ∧ r.wf := by
  rcases completePacket_cases p s with ⟨-, i, -, hrun⟩ | ⟨-, e, -, hrun⟩ | ⟨-, hrun⟩
  · obtain ⟨regs, r, hnext, hwf, -, -⟩ := (exec_commandEnd i s).eq_next
    obtain rfl := Host.Outcome.next.inj (h.symm.trans (hrun.trans hnext))
    exact ⟨rfl, rfl, r, rfl, hwf⟩
  · obtain rfl := raise_eq_next.mp (hrun.symm.trans h)
    exact ⟨rfl, rfl, _, rfl, Response.wf_empty _⟩
  · cases h.symm.trans hrun

/-- The new response joins those already taken. -/
theorem completePacket_inv {p : Packet} (hw : ∀ r ∈ s.taken, r.wf) (h : completePacket p s = .next t) : t.Inv := by
  obtain ⟨he, htaken, r, hrsp, hr⟩ := completePacket_eq_next h
  refine inv_of_inExec_none he fun r' hr' => ?_
  rw [State.responses, htaken, hrsp] at hr'
  rcases List.mem_append.mp hr' with hold | hnew
  · exact hw r' hold
  · obtain rfl : r' = r := by simpa using hnew
    exact hr

/-- A packet taken into execution exists, and the response before it has been taken. -/
theorem acceptPacket_inv {p : Packet} {rest : List HostEvent} (hw : ∀ r ∈ s.responses, r.wf)
    (h : acceptPacket p rest s = .next t) : t.Inv := by
  unfold acceptPacket at h
  split at h
  · next hp =>
    obtain rfl := Host.Outcome.next.inj h
    refine ⟨fun r hr => hw r ?_, fun q hq => ?_⟩
    · rw [← responses_accepted s rest]
      exact hr
    · obtain rfl := Option.some.inj hq
      exact ⟨hp, s.accepted_rsp rest⟩
  · cases h

end Invariant

/-- Settles O3, one case for each thing a step can do. -/
theorem stepKeepsInvariant : Obligations.StepKeepsInvariant := by
  intro s t hinv hnext
  have ⟨hw, _⟩ := hinv
  have htaken := responses_wf_taken hw
  rcases step_cases s with ⟨rest, -, hreset⟩ | ⟨p, -, -, hcomplete⟩ | ⟨-, -, hidle⟩ | ⟨p, rest, -, -, hcommand⟩ |
    ⟨p, rest, -, -, haccept⟩ | ⟨rest, -, he, htake⟩ | ⟨rest, -, -, hinterleaved⟩
  · obtain rfl := Host.Outcome.next.inj (hreset.symm.trans hnext)
    exact inv_of_inExec_none rfl (by rwa [responses_applyReset])
  · exact completePacket_inv htaken (hcomplete.symm.trans hnext)
  · obtain rfl := Host.Outcome.next.inj (hidle.symm.trans hnext)
    exact hinv
  · exact completePacket_inv (responses_wf_taken (by rwa [responses_accepted])) (hcommand.symm.trans hnext)
  · exact acceptPacket_inv hw (haccept.symm.trans hnext)
  · obtain rfl := Host.Outcome.next.inj (htake.symm.trans hnext)
    exact inv_of_inExec_none (s := s.accepted rest) ((s.accepted_inExec rest).trans he) (by rwa [responses_accepted])
  · cases hinterleaved.symm.trans hnext

/-- Settles O2: nothing is in execution and there is no response. -/
theorem resetMeetsInvariant : Obligations.ResetMeetsInvariant :=
  inv_of_inExec_none rfl fun _ hr => absurd hr List.not_mem_nil

end Sys2Proof.Machine
end

section
/-! PROOF. Two steps over an accepted command, a reset that discards it, the reset state, and the register file (O7, O9, O1,
O27; spec R32, R33, R41, R43, R56, R221). -/

namespace Sys2Proof.Machine

variable {s t : State} {p : Packet}

/-! ### Carrying out a packet -/

theorem completePacket_of_decode {i : Instr} (hp : presentable p = true) (hd : decode p = .ok i) (s : State) :
    completePacket p s = exec i s := by
  rw [completePacket, if_pos hp, hd]

theorem acceptPacket_of_presentable (hp : presentable p = true) (rest : List HostEvent) (s : State) :
    acceptPacket p rest s = .next { s.accepted rest with inExec := some p } := if_pos hp

/-- No command reads which packet is in execution, and each ends with none: every arm comes down to `respond`. -/
theorem exec_with_inExec (i : Instr) (s : State) (e : Option Packet) : exec i { s with inExec := e } = exec i s := by
  cases i <;> rfl

theorem completePacket_with_inExec (p : Packet) (s : State) (e : Option Packet) :
    completePacket p { s with inExec := e } = completePacket p s := by
  unfold completePacket
  cases presentable p with
  | false => rfl
  | true =>
    cases decode p with
    | ok i => exact exec_with_inExec i s e
    | error _ => rfl

/-! ### Two steps (R41, R56, R221) -/

theorem run_two_of_next (h : step s = .next t) : Host.Core.run Sys2Proof.core 2 s = step t :=
  (run_succ_next 1 h).trans (run_one t)

/-- The step that accepts a presentable packet: it is in execution, and the previous response has been taken. -/
theorem step_of_accept_presentable {rest : List HostEvent} (hport : s.port = .accept p :: rest) (he : s.inExec = none)
    (hp : presentable p = true) : step s = .next { s.accepted rest with inExec := some p } :=
  (step_of_accept hport he).trans (acceptPacket_of_presentable hp rest s)

/-- Accepting a packet, field by field (R64; log entry 2). -/
theorem accepted_eq (s : State) (rest : List HostEvent) :
    s.accepted rest =
      { regs := s.regs, inExec := s.inExec, rsp := none, port := rest, taken := s.taken ++ s.rsp.toList } := by
  obtain ⟨regs, inExec, rsp, port, taken⟩ := s
  cases rsp with
  | none => simp [State.accepted, State.takeResponse]
  | some r => rfl

/-- What stood at the port before a packet was accepted is not seen after it. -/
theorem accepted_with_port (s : State) (port rest : List HostEvent) :
    State.accepted { s with port := port } rest = s.accepted rest := by
  rw [accepted_eq, accepted_eq]

/-- Two steps over an accepted command with no reset after it carry it out. -/
theorem run_two_of_accept {rest : List HostEvent} (hport : s.port = .accept p :: rest) (he : s.inExec = none)
    (hp : presentable p = true) (hrest : ∀ rest', rest ≠ .reset :: rest') :
    Host.Core.run Sys2Proof.core 2 s = completePacket p (s.accepted rest) :=
  (run_two_of_next (step_of_accept_presentable hport he hp)).trans
    ((step_of_inExec rfl hrest).trans (completePacket_with_inExec p (s.accepted rest) _))

/-- Settles O7: both sides carry out the packet on the state that has accepted it. -/
theorem acceptThenCompleteIsAtomic : Obligations.AcceptThenCompleteIsAtomic := by
  intro s p rest he hp hrest
  have haccept := run_two_of_accept (s := { s with port := .accept p :: rest }) rfl he hp hrest
  have hcommand := step_of_command (s := { s with port := .command p :: rest }) rfl he
  rw [accepted_with_port] at haccept hcommand
  exact haccept.trans hcommand.symm

/-! ### Reset (R43, R220, R221) -/

@[simp] theorem State.reset_readReg (r : Reg) : State.reset.readReg r = ⟨0, 0⟩ := by
  simp [State.readReg, State.reset, U256.ZERO]

@[simp] theorem State.applyReset_readReg (s : State) (rest : List HostEvent) (r : Reg) :
    (s.applyReset rest).readReg r = ⟨0, 0⟩ := State.reset_readReg r

/-- Settles O1: the first packet presented is carried out on the reset state itself. -/
theorem resetState : Obligations.ResetState := by
  refine ⟨fun r => by simp, rfl, rfl, fun p i hp hd => ?_⟩
  rw [step_present, completePacket_of_decode hp hd]
  rfl

/-- Settles O9. The accepted command is gone before its step comes; the response it displaced has been taken. -/
theorem resetDiscardsCommand : Obligations.ResetDiscardsCommand := by
  refine ⟨fun s p rest hport he hp => ?accepted, fun s r rest hport _ => ?pending,
    fun s rest rest' q i hport hrest hq hd => ?next⟩
  case accepted =>
    have haccept := step_of_accept_presentable hport he hp
    refine ⟨_, (run_two_of_next haccept).trans (step_of_reset rfl), ?_, rfl, rfl, State.applyReset_readReg _ _⟩
    rw [responses_applyReset]
    exact s.accepted_taken (.reset :: rest)
  case pending =>
    exact ⟨_, step_of_reset hport, responses_applyReset s rest, rfl, rfl, State.applyReset_readReg s rest⟩
  case next =>
    rw [run_two_of_next (step_of_reset hport), step_of_command hrest rfl, completePacket_of_decode hq hd]
    rfl

/-! ### Registers and specifiers (R32, R33, R77) -/

theorem source_eq_error {r : BitVec 4} (h : 11 ≤ r.toNat) : source r = .error .badSpecifier := by
  have hreg : ¬ r.toNat < 8 := by omega
  have hne : ∀ c : BitVec 4, c.toNat < 11 → r ≠ c := by
    rintro c hc rfl
    omega
  rw [source, dif_neg hreg, if_neg (hne 8 (by decide)), if_neg (hne 9 (by decide)), if_neg (hne 10 (by decide))]

theorem destination_eq_error {r : BitVec 4} (h : 8 ≤ r.toNat) : destination r = .error .badSpecifier :=
  dif_neg (Nat.not_lt.mpr h)

theorem State.afterWrite_readReg (s : State) (rd z : Reg) (v : U256) :
    (s.afterWrite rd v).readReg z = if z = rd then v else s.readReg z :=
  s.readReg_writeReg rd v z

/-- Settles O27: the legal specifiers are those of the encoder, the rest are rejected. -/
theorem registersAndSpecifiers : Obligations.RegistersAndSpecifiers :=
  ⟨fun r _ => ⟨source_spec (.v r), destination_spec r, rfl⟩,
    source_spec .zero, source_spec .one, source_spec .max,
    fun _ => source_eq_error, fun _ => destination_eq_error,
    fun _ => ⟨U256.val_ZERO, U256.val_ONE, U256.val_MAX⟩, State.afterWrite_readReg⟩

end Sys2Proof.Machine
end

section
/-! PROOF. Packets carried out one after another: a command's registers and response depend on the register file alone, so a
run of packets is their sequential application (O16, O6, O10; spec R50, R56, R57, R59, R64), and the form of every response (O13;
spec R52). -/

namespace Sys2Proof.Machine

variable {s t : State} {p : Packet}

/-! ### The flag and the data of a response (R52) -/

/-- Only a command whose result is a boolean sets the flag, only a conversion command returns data. -/
theorem CommandEnd.response_fields {i : Instr} {o : Host.Outcome State Fault Refusal} (h : CommandEnd i s o) {r : Response}
    (hnext : o = .next t) (hrsp : t.rsp = some r) :
    (i.returnsFlag = false → r.flag = false) ∧ (i.returnsData = false → r.data = []) := by
  cases h with
  | write | writeTwo | error =>
    obtain rfl := Host.Outcome.next.inj hnext
    obtain rfl := Option.some.inj hrsp
    exact ⟨fun _ => rfl, fun _ => rfl⟩
  | flag c hd hf =>
    obtain rfl := Host.Outcome.next.inj hnext
    obtain rfl := Option.some.inj hrsp
    exact ⟨fun hno => absurd (hf.symm.trans hno) (by decide), fun _ => rfl⟩
  | data bytes hd hr =>
    obtain rfl := Host.Outcome.next.inj hnext
    obtain rfl := Option.some.inj hrsp
    exact ⟨fun _ => rfl, fun hno => absurd (hr.symm.trans hno) (by decide)⟩

theorem completePacket_of_decode_error {e : Illegal} (hp : presentable p = true) (hd : decode p = .error e) (s : State) :
    completePacket p s = raise .illegalCommand s := by
  rw [completePacket, if_pos hp, hd]

/-- Settles O13, from the ways a command ends. -/
theorem everyCommandAnswers : Obligations.EveryCommandAnswers := by
  refine ⟨⟨rfl, rfl, rfl, rfl⟩, fun i s => ?_, fun p e s hp hd => completePacket_of_decode_error hp hd s⟩
  have hend := exec_commandEnd i s
  obtain ⟨regs, r, hnext, ⟨herror, hlen⟩, -, -⟩ := hend.eq_next
  obtain ⟨hflag, hdata⟩ := hend.response_fields hnext rfl
  exact ⟨regs, r, hnext, herror, hflag, hdata, hlen⟩

/-! ### A command depends on the register file alone (R9, R59) -/

/-- Register files that read the same everywhere are equal. -/
theorem regs_ext (h : ∀ d : Reg, s.readReg d = t.readReg d) : s.regs = t.regs :=
  Vector.ext fun i hi => h ⟨i, hi⟩

/-- From any two states with one register file a command ends with the same registers and the same response: what it writes
depends on its sources (O15), what it does not write stays (O14). -/
theorem exec_of_regs_eq (i : Instr) {s s' : State} (hs : s.regs = s'.regs) :
    ∃ (regs : Vector U256 8) (r : Response),
      exec i s = .next { s with regs := regs, rsp := some r, inExec := none } ∧
      exec i s' = .next { s' with regs := regs, rsp := some r, inExec := none } := by
  obtain ⟨regs, r, hnext, -, -, -⟩ := (exec_commandEnd i s).eq_next
  obtain ⟨regs', r', hnext', -, -, -⟩ := (exec_commandEnd i s').eq_next
  obtain ⟨t, t', r'', ht, ht', hr, hr', hwritten⟩ :=
    resultDependsOnSourcesOnly i s s' fun d _ => State.readReg_congr hs d
  obtain ⟨hframe, herror⟩ := onlyNamedDestinationsWritten i s t r'' ht hr
  obtain ⟨hframe', herror'⟩ := onlyNamedDestinationsWritten i s' t' r'' ht' hr'
  have hregs : t.regs = t'.regs := regs_ext fun d => by
    by_cases hok : r''.status = .ok
    · by_cases hd : d ∈ i.destinations
      · exact hwritten hok d hd
      · rw [hframe d hd, hframe' d hd, State.readReg_congr hs]
    · rw [herror hok d, herror' hok d, State.readReg_congr hs]
  obtain rfl := Host.Outcome.next.inj (ht.symm.trans hnext)
  obtain rfl := Host.Outcome.next.inj (ht'.symm.trans hnext')
  obtain rfl := Option.some.inj hr
  obtain rfl := Option.some.inj hr'
  obtain rfl : regs = regs' := hregs
  exact ⟨regs, r', hnext, hnext'⟩

/-- A command with no destination leaves the register file as it was. -/
theorem regs_of_no_destinations {i : Instr} (hi : i.destinations = []) (h : exec i s = .next t) : t.regs = s.regs := by
  obtain ⟨regs, r, hnext, -, hframe, -⟩ := (exec_commandEnd i s).eq_next
  obtain rfl := Host.Outcome.next.inj (h.symm.trans hnext)
  exact regs_ext fun d => hframe d (by simp [hi])

/-- Settles O16: the second run starts from the register file the first one left. -/
theorem readingCommandsAreIdempotent : Obligations.ReadingCommandsAreIdempotent := by
  intro i s hi
  obtain ⟨regs, r, hnext, -⟩ := exec_of_regs_eq i (s := s) rfl
  obtain rfl : regs = s.regs := regs_of_no_destinations hi hnext
  refine ⟨r, hnext, fun taken port => ?_⟩
  obtain ⟨regs', r', hfirst, hagain⟩ :=
    exec_of_regs_eq i (s := s) (s' := { s with rsp := none, inExec := none, taken := taken, port := port }) rfl
  obtain ⟨rfl, rfl⟩ : s.regs = regs' ∧ r = r' := by simpa using hnext.symm.trans hfirst
  exact hagain

/-! ### Sequential execution (R56, R59) -/

/-- Carrying out a packet, too, depends on the register file alone. -/
theorem completePacket_of_regs_eq (hp : presentable p = true) {s s' : State} (hs : s.regs = s'.regs) :
    ∃ (regs : Vector U256 8) (r : Response),
      completePacket p s = .next { s with regs := regs, rsp := some r, inExec := none } ∧
      completePacket p s' = .next { s' with regs := regs, rsp := some r, inExec := none } := by
  cases hd : decode p with
  | ok i =>
    rw [completePacket_of_decode hp hd, completePacket_of_decode hp hd]
    exact exec_of_regs_eq i hs
  | error e =>
    rw [completePacket_of_decode_error hp hd, completePacket_of_decode_error hp hd]
    exact ⟨s.regs, ⟨.illegalCommand, false, []⟩, rfl, by rw [hs]; rfl⟩

/-- A packet carried out in any state does to the registers and answers what `applyPacket` says. -/
theorem completePacket_eq_applyPacket (hp : presentable p = true) (s : State) :
    ∃ r : Response, (applyPacket p s.regs).2 = some r ∧
      completePacket p s = .next { s with regs := (applyPacket p s.regs).1, rsp := some r, inExec := none } := by
  obtain ⟨regs, r, halone, hnext⟩ :=
    completePacket_of_regs_eq hp (s := { State.reset with regs := s.regs }) (s' := s) rfl
  have happly : applyPacket p s.regs = (regs, some r) := by rw [applyPacket, halone]
  rw [happly]
  exact ⟨r, rfl, hnext⟩

/-- A step over a packet at the port: the previous response is taken, the packet applied, its response pending (R56, R64). -/
theorem step_of_command_presentable {rest : List HostEvent} (hport : s.port = .command p :: rest) (he : s.inExec = none)
    (hp : presentable p = true) :
    ∃ r : Response, (applyPacket p s.regs).2 = some r ∧
      step s = .next { regs := (applyPacket p s.regs).1, inExec := none, rsp := some r, port := rest,
                       taken := s.taken ++ s.rsp.toList } := by
  have hpacket := completePacket_eq_applyPacket hp (s.accepted rest)
  rw [accepted_eq] at hpacket
  rw [step_of_command hport he, accepted_eq]
  exact hpacket

/-- Settles O6: the registers and the response are those of `applyPacket`. -/
theorem oneResponsePerPacket : Obligations.OneResponsePerPacket := by
  intro s p rest hport he hp
  obtain ⟨r, -, hstep⟩ := step_of_command_presentable hport he hp
  exact ⟨_, r, hstep⟩

/-- Settles O10, by induction on the packets: after the first step the state is again one with nothing in execution. -/
theorem commandsRunInOrder : Obligations.CommandsRunInOrder := by
  intro ps
  induction ps with
  | nil =>
    intro s he _ hport
    exact ⟨s, rfl, rfl, (List.append_nil _).symm, rfl, he, hport⟩
  | cons p ps ih =>
    intro s he hps hport
    obtain ⟨hp, hrest⟩ := List.forall_mem_cons.mp hps
    obtain ⟨r, hr, hstep⟩ := step_of_command_presentable hport he hp
    obtain ⟨t, hrun, hregs, hresponses, hlen, ht, htport⟩ :=
      ih { regs := (applyPacket p s.regs).1, inExec := none, rsp := some r, port := ps.map .command,
           taken := s.taken ++ s.rsp.toList } rfl hrest rfl
    refine ⟨t, (run_succ_next _ hstep).trans hrun, hregs, ?responses, ?length, ht, htport⟩
    case responses => simpa [applyPackets, hr, State.responses] using hresponses
    case length => simpa [applyPackets, hr, Nat.add_comm 1] using hlen

end Sys2Proof.Machine
end

section
/-! PROOF. When a step stops (O12; spec R51, R63, U2), and what the host's other events do (O8; spec R64, R211, R220). -/

namespace Sys2Proof.Machine

variable {s : State} {p : Packet}

/-! ### The two stops -/

/-- A packet that exists is answered; no other is carried out (R51). -/
theorem completePacket_eq_fault (p : Packet) (s : State) (f : Fault) :
    completePacket p s = .fault f ↔ presentable p = false := by
  cases hp : presentable p with
  | false => simp [completePacket, hp]
  | true =>
    obtain ⟨r, -, hnext⟩ := completePacket_eq_applyPacket hp s
    simp [hnext]

theorem completePacket_ne_refused (p : Packet) (s : State) (r : Refusal) : completePacket p s ≠ .refused r := by
  cases hp : presentable p with
  | false => simp [completePacket, hp]
  | true =>
    obtain ⟨r, -, hnext⟩ := completePacket_eq_applyPacket hp s
    simp [hnext]

theorem acceptPacket_eq_fault (p : Packet) (rest : List HostEvent) (s : State) (f : Fault) :
    acceptPacket p rest s = .fault f ↔ presentable p = false := by
  cases hp : presentable p <;> simp [acceptPacket, hp]

theorem acceptPacket_ne_refused (p : Packet) (rest : List HostEvent) (s : State) (r : Refusal) :
    acceptPacket p rest s ≠ .refused r := by
  cases hp : presentable p <;> simp [acceptPacket, hp]

/-- Settles O12, one case for each thing a step can do. -/
theorem stepStopsOnlyOnImpossibleInput : Obligations.StepStopsOnlyOnImpossibleInput := by
  refine ⟨fun s f => ?fault, fun s r => ?refused⟩
  case fault =>
    rcases step_cases s with ⟨rest, hport, hstep⟩ | ⟨p, hport, he, hstep⟩ | ⟨hport, he, hstep⟩ |
      ⟨p, rest, hport, he, hstep⟩ | ⟨p, rest, hport, he, hstep⟩ | ⟨rest, hport, he, hstep⟩ | ⟨rest, hport, he, hstep⟩
    · simp [hstep, hport]
    · simp [hstep, hport, he, completePacket_eq_fault]
    · simp [hstep, hport, he]
    · simp [hstep, hport, he, completePacket_eq_fault]
    · simp [hstep, hport, he, acceptPacket_eq_fault]
    · simp [hstep, hport, he]
    · simp [hstep, hport, he]
  case refused =>
    rcases step_cases s with ⟨rest, hport, hstep⟩ | ⟨p, hport, he, hstep⟩ | ⟨hport, he, hstep⟩ |
      ⟨p, rest, hport, he, hstep⟩ | ⟨p, rest, hport, he, hstep⟩ | ⟨rest, hport, he, hstep⟩ | ⟨rest, hport, he, hstep⟩
    · simp [hstep, hport]
    · simp [hstep, he, completePacket_ne_refused]
    · simp [hstep, hport]
    · simp [hstep, hport, completePacket_ne_refused]
    · simp [hstep, hport, acceptPacket_ne_refused]
    · simp [hstep, hport]
    · simp [hstep, hport, he, eq_comm]

/-! ### Taking a response, idling, reset -/

/-- Settles O8. Taking is accepting with no packet, so `accepted_eq` gives the next state. -/
theorem hostEventsAtThePorts : Obligations.HostEventsAtThePorts := by
  have htake : ∀ {s : State} {rest : List HostEvent}, s.port = .take :: rest → s.inExec = none →
      step s = .next { regs := s.regs, inExec := s.inExec, rsp := none, port := rest, taken := s.taken ++ s.rsp.toList } :=
    fun hport he => (step_of_take hport he).trans (congrArg _ (accepted_eq _ _))
  refine ⟨fun s r rest hport he hrsp => ?pending, fun s rest hport he hrsp => ?nothing, fun s => step_of_idle,
    fun s rest => step_of_reset⟩
  case pending => rw [htake hport he, hrsp]; rfl
  case nothing => rw [htake hport he, hrsp, Option.toList_none, List.append_nil]

end Sys2Proof.Machine
end

section
/-! PROOF. What a packet that decodes looks like: its payload is the one the encoder writes, and its command is well-formed
(O25, O4; spec R51, R55, R56, R74 to R76, R80); operand b (O28; spec R53, R76). -/

namespace Sys2Proof

/-! ### The bytes of a number (R53) -/

/-- A payload spells `x` exactly when it has the length of its image and denotes the same number. -/
theorem eq_bytesBE_iff {w len : Nat} (h : w = 8 * len) (pl : List Byte) (x : BitVec w) :
    pl = bytesBE x.toNat len ↔ pl.length = len ∧ x.toNat = be pl := by
  have hx : x.toNat < 256 ^ len := by
    have hpow : (256 : Nat) ^ len = 2 ^ w := by rw [h, pow_mul]; rfl
    rw [hpow]
    exact x.isLt
  constructor
  · rintro rfl
    exact ⟨bytesBE_length _ _, by rw [be_bytesBE, Nat.mod_eq_of_lt hx]⟩
  · rintro ⟨rfl, hbe⟩
    rw [hbe, bytesBE_be]

/-- Settles O28, from the fields and payload that spell operand b. -/
theorem operandBForms : Obligations.OperandBForms := by
  refine ⟨fun f pl b hn => ?source, fun f pl b hn => ?narrow, fun _ _ => rfl, fun _ _ => ⟨rfl, rfl⟩⟩
  case source =>
    cases b with
    | src r => simp [operandB_eq_ok, hn, OperandB.n, OperandB.spec, OperandB.payload, and_comm, eq_comm (a := r.spec)]
    | narrow h => simp [operandB_eq_ok, hn, OperandB.n]
  case narrow =>
    cases b with
    | src r => simp [operandB_eq_ok, hn, OperandB.n]
    | narrow h =>
      simp [operandB_eq_ok, hn, OperandB.n, OperandB.spec, OperandB.payload, eq_bytesBE_iff (len := 16) rfl pl h]

/-! ### The payload of a packet that decodes, format by format -/

section Formats
variable {f : Fields} {pl : List Byte} {i : Instr}

theorem payload_of_payloadBits {α : Type} {w len : Nat} {k : BitVec w → Decoded α} {a : α}
    (h : (payloadBits w len pl >>= k) = .ok a) (hw : w = 8 * len) : ∃ x, k x = .ok a ∧ pl = bytesBE x.toNat len := by
  obtain ⟨x, hbits, hk⟩ := bind_eq_ok.mp h
  exact ⟨x, hk, (payloadBits_eq_ok w len pl x hw).mp hbits⟩

theorem payload_of_formatR3 {k : Reg × Src × OperandB → Decoded Instr} (h : (formatR3 f pl >>= k) = .ok i) :
    ∃ rd ra b, k (rd, ra, b) = .ok i ∧ pl = b.payload := by
  obtain ⟨⟨rd, ra, b⟩, hformat, hk⟩ := bind_eq_ok.mp h
  obtain ⟨-, -, -, -, -, -, hpl⟩ := (formatR3_eq_ok ..).mp hformat
  exact ⟨rd, ra, b, hk, hpl⟩

theorem payload_of_formatR2 {k : Reg × Src → Decoded Instr} (h : (formatR2 f pl >>= k) = .ok i) :
    ∃ rd ra, k (rd, ra) = .ok i ∧ pl = [] := by
  obtain ⟨⟨rd, ra⟩, hformat, hk⟩ := bind_eq_ok.mp h
  obtain ⟨-, -, -, -, -, -, hpl⟩ := (formatR2_eq_ok ..).mp hformat
  exact ⟨rd, ra, hk, hpl⟩

theorem payload_of_formatR4 {k : Reg × Reg × Src × OperandB → Decoded Instr} (h : (formatR4 f pl >>= k) = .ok i) :
    ∃ rd re ra b, k (rd, re, ra, b) = .ok i ∧ pl = b.payload ∧ destinationsDiffer rd re := by
  obtain ⟨⟨rd, re, ra, b⟩, hformat, hk⟩ := bind_eq_ok.mp h
  obtain ⟨-, -, -, -, -, -, hpl, hne⟩ := (formatR4_eq_ok ..).mp hformat
  exact ⟨rd, re, ra, b, hk, hpl, hne⟩

theorem payload_of_formatC2 {k : Src × OperandB → Decoded Instr} (h : (formatC2 f pl >>= k) = .ok i) :
    ∃ ra b, k (ra, b) = .ok i ∧ pl = b.payload := by
  obtain ⟨⟨ra, b⟩, hformat, hk⟩ := bind_eq_ok.mp h
  obtain ⟨-, -, -, -, -, -, hpl⟩ := (formatC2_eq_ok ..).mp hformat
  exact ⟨ra, b, hk, hpl⟩

theorem payload_of_formatC1Plain {k : Src → Decoded Instr} (h : (formatC1Plain f pl >>= k) = .ok i) :
    ∃ ra, k ra = .ok i ∧ pl = [] := by
  obtain ⟨ra, hformat, hk⟩ := bind_eq_ok.mp h
  obtain ⟨-, -, hpl⟩ := (formatC1Plain_eq_ok ..).mp hformat
  exact ⟨ra, hk, hpl⟩

end Formats

/-- The payload of a native integer at each width (R73 (a), R74). -/
theorem payload_of_nativeOperand {aux : BitVec 8} {pl : List Byte} {n : Native} (h : nativeOperand aux pl = .ok n) :
    pl = n.payload := by
  unfold nativeOperand at h
  split_ifs at h
  all_goals
    obtain ⟨x, hn, hpl⟩ := payload_of_payloadBits h rfl
    cases hn
    exact hpl

theorem baseLegal_of_baseAux {aux : BitVec 8} {base : Nat} (h : baseAux aux = .ok base) : baseLegal base := by
  obtain ⟨_, hlegal, hbase⟩ := bind_eq_ok.mp h
  cases hbase
  exact of_decide_eq_true (require_ok hlegal)

theorem take_drop_append_drop (pl : List Byte) {k n m : Nat} (h : k + n = m) :
    (pl.drop k).take n ++ pl.drop m = pl.drop k := by
  rw [← h, ← List.drop_drop, List.take_append_drop]

/-- `n` payload bytes read as a number of `8 * n` bits are the bytes of that number (R53). -/
theorem bytesBE_ofNat_take_drop {w n : Nat} (hw : w = 8 * n) (pl : List Byte) {k : Nat} (hk : k + n ≤ pl.length) :
    bytesBE (BitVec.ofNat w (be ((pl.drop k).take n))).toNat n = (pl.drop k).take n := by
  have hlen : ((pl.drop k).take n).length = n := by
    rw [List.length_take, List.length_drop]
    omega
  have hbytes := bytesBE_ofNat_be w ((pl.drop k).take n) (by rw [hlen, hw])
  rwa [hlen] at hbytes

theorem bytesBE_limbAt (pl : List Byte) {k : Nat} (hk : k + 16 ≤ pl.length) :
    bytesBE (limbAt pl k).toNat 16 = (pl.drop k).take 16 := bytesBE_ofNat_take_drop rfl pl hk

theorem bytesBE_quarterAt (pl : List Byte) {k : Nat} (hk : k + 8 ≤ pl.length) :
    bytesBE (quarterAt pl k).toNat 8 = (pl.drop k).take 8 := bytesBE_ofNat_take_drop rfl pl hk

/-- A 32-byte payload is its two limbs (R74, `LDP`). -/
theorem limbs_of_payload {pl : List Byte} (h : pl.length = 32) :
    bytesBE (limbAt pl 0).toNat 16 ++ bytesBE (limbAt pl 16).toNat 16 = pl := by
  rw [bytesBE_limbAt pl (by omega), bytesBE_limbAt pl (by omega),
    List.take_of_length_le (l := pl.drop 16) (by simp [h]), take_drop_append_drop pl rfl, List.drop_zero]

/-- A 32-byte payload is its four quarter-limbs (R74, `LDQ`). -/
theorem quarters_of_payload {pl : List Byte} (h : pl.length = 32) :
    bytesBE (quarterAt pl 0).toNat 8 ++ bytesBE (quarterAt pl 8).toNat 8 ++ bytesBE (quarterAt pl 16).toNat 8 ++
      bytesBE (quarterAt pl 24).toNat 8 = pl := by
  rw [bytesBE_quarterAt pl (by omega), bytesBE_quarterAt pl (by omega), bytesBE_quarterAt pl (by omega),
    bytesBE_quarterAt pl (by omega), List.take_of_length_le (l := pl.drop 24) (by simp [h]),
    List.append_assoc, List.append_assoc, take_drop_append_drop pl rfl, take_drop_append_drop pl rfl,
    take_drop_append_drop pl rfl, List.drop_zero]

/-! ### The payload of a packet that decodes, command by command -/

/-- Operands decode only from the payload that spells them, and only to a well-formed command (R79, R80). -/
theorem payload_of_decodeOperands {op : Opcode} {f : Fields} {pl : List Byte} {i : Instr}
    (h : decodeOperands op f pl = .ok i) : pl = encodePayload i ∧ i.wf = true := by
  cases op with
  | and | or | xor | shl | shr | add | sub | mul | div | mod =>
    obtain ⟨rd, ra, b, hk, hpl⟩ := payload_of_formatR3 h
    cases hk
    exact ⟨hpl, rfl⟩
  | not | inc | dec | neg | pos =>
    obtain ⟨rd, ra, hk, hpl⟩ := payload_of_formatR2 h
    cases hk
    exact ⟨hpl, rfl⟩
  | divmod =>
    obtain ⟨rd, re, ra, b, hk, hpl, hne⟩ := payload_of_formatR4 h
    cases hk
    exact ⟨hpl, decide_eq_true hne⟩
  | eq | ne | lt | gt | le | ge | land | lor =>
    obtain ⟨ra, b, hk, hpl⟩ := payload_of_formatC2 h
    cases hk
    exact ⟨hpl, rfl⟩
  | lnot | tst | bits | exportBits | exportTrunc =>
    obtain ⟨ra, hk, hpl⟩ := payload_of_formatC1Plain h
    cases hk
    exact ⟨hpl, rfl⟩
  | ldu | lds =>
    obtain ⟨rd, -, h⟩ := bind_eq_ok.mp h
    obtain ⟨n, hn, hk⟩ := bind_eq_ok.mp h
    cases hk
    exact ⟨payload_of_nativeOperand hn, rfl⟩
  | ldb =>
    obtain ⟨rd, -, h⟩ := bind_eq_ok.mp h
    obtain ⟨t, -, h⟩ := bind_eq_ok.mp h
    obtain ⟨_, hpl, hk⟩ := bind_eq_ok.mp h
    cases hk
    exact ⟨(noPayload_eq_ok pl _).mp hpl, rfl⟩
  | ldh =>
    obtain ⟨rd, -, h⟩ := bind_eq_ok.mp h
    obtain ⟨_, -, h⟩ := bind_eq_ok.mp h
    obtain ⟨x, hk, hpl⟩ := payload_of_payloadBits h rfl
    cases hk
    exact ⟨hpl, rfl⟩
  | ldp =>
    obtain ⟨rd, -, h⟩ := bind_eq_ok.mp h
    obtain ⟨_, -, h⟩ := bind_eq_ok.mp h
    obtain ⟨_, hlen, hk⟩ := bind_eq_ok.mp h
    cases hk
    exact ⟨(limbs_of_payload (beq_iff_eq.mp (require_ok hlen))).symm, rfl⟩
  | ldq =>
    obtain ⟨rd, -, h⟩ := bind_eq_ok.mp h
    obtain ⟨_, -, h⟩ := bind_eq_ok.mp h
    obtain ⟨_, hlen, hk⟩ := bind_eq_ok.mp h
    cases hk
    exact ⟨(quarters_of_payload (beq_iff_eq.mp (require_ok hlen))).symm, rfl⟩
  | parse =>
    obtain ⟨rd, -, h⟩ := bind_eq_ok.mp h
    obtain ⟨base, hbase, h⟩ := bind_eq_ok.mp h
    obtain ⟨_, hfits, hk⟩ := bind_eq_ok.mp h
    cases hk
    exact ⟨rfl, decide_eq_true ⟨baseLegal_of_baseAux hbase, of_decide_eq_true (require_ok hfits)⟩⟩
  | cvt =>
    obtain ⟨ra, -, h⟩ := bind_eq_ok.mp h
    obtain ⟨w, -, h⟩ := bind_eq_ok.mp h
    obtain ⟨_, hpl, hk⟩ := bind_eq_ok.mp h
    cases hk
    exact ⟨(noPayload_eq_ok pl _).mp hpl, rfl⟩
  | str =>
    obtain ⟨ra, -, h⟩ := bind_eq_ok.mp h
    obtain ⟨base, hbase, h⟩ := bind_eq_ok.mp h
    obtain ⟨m, hk, hpl⟩ := payload_of_payloadBits h rfl
    cases hk
    exact ⟨hpl, decide_eq_true (baseLegal_of_baseAux hbase)⟩

/-- A packet that decodes carries the payload the encoder writes, and its command is well-formed (R79, R80). -/
theorem payload_of_decode {p : Packet} {i : Instr} (h : decode p = .ok i) :
    p.payload = encodePayload i ∧ i.wf = true := by
  rw [decode, decodeFields] at h
  split at h
  · cases h
  · obtain ⟨_, -, h⟩ := bind_eq_ok.mp h
    exact payload_of_decodeOperands h

/-! ### Its length (R55) -/

theorem Native.payload_length (n : Native) : n.payload.length = n.bytes := by
  cases n <;> exact bytesBE_length _ _

theorem OperandB.payload_length (b : OperandB) : b.payload.length = b.bytes := by
  cases b with
  | src r => rfl
  | narrow h => exact bytesBE_length _ _

theorem encodePayload_length (i : Instr) : (encodePayload i).length = i.payloadBytes := by
  cases i with
  | ldu _ n | lds _ n => exact n.payload_length
  | ldh | str => exact bytesBE_length _ _
  | ldp | ldq => simp [encodePayload, Instr.payloadBytes]
  | parse | ldb | lnot | not | inc | dec | neg | pos | cvt | tst | bits | exportBits | exportTrunc => rfl
  | eq _ b | ne _ b | lt _ b | gt _ b | le _ b | ge _ b | land _ b | lor _ b => exact b.payload_length
  | and _ _ b | or _ _ b | xor _ _ b | shl _ _ b | shr _ _ b => exact b.payload_length
  | add _ _ b | sub _ _ b | mul _ _ b | divmod _ _ _ b | div _ _ b | mod _ _ b => exact b.payload_length

theorem Native.bytes_fits (n : Native) : n.bytes ≤ Config.textMax := by
  cases n <;> simp [Native.bytes, Config.textMax]

theorem OperandB.bytes_fits (b : OperandB) : b.bytes ≤ Config.textMax := by
  rw [← b.payload_length]
  exact Laws.EncodedLength.operandB_fits b

/-- Only the text of `PARSE` can be longer than a packet allows (R51, R55). -/
theorem payloadBytes_fits {i : Instr} (h : i.wf = true) : i.payloadBytes ≤ Config.textMax := by
  cases i with
  | ldu _ n | lds _ n => exact n.bytes_fits
  | parse =>
    obtain ⟨-, hfits⟩ := of_decide_eq_true h
    exact hfits
  | ldh | str | ldp | ldq => simp [Instr.payloadBytes, Config.textMax]
  | ldb | lnot | not | inc | dec | neg | pos | cvt | tst | bits | exportBits | exportTrunc => exact Nat.zero_le _
  | eq _ b | ne _ b | lt _ b | gt _ b | le _ b | ge _ b | land _ b | lor _ b => exact b.bytes_fits
  | and _ _ b | or _ _ b | xor _ _ b | shl _ _ b | shr _ _ b => exact b.bytes_fits
  | add _ _ b | sub _ _ b | mul _ _ b | divmod _ _ _ b | div _ _ b | mod _ _ b => exact b.bytes_fits

/-- Settles O25: the payload is the encoder's. -/
theorem payloadLengths : Obligations.PayloadLengths := by
  intro p i h
  obtain ⟨hpl, hwf⟩ := payload_of_decode h
  have hlen : p.payload.length = i.payloadBytes := by rw [hpl, encodePayload_length]
  exact ⟨hlen, hlen.trans_le (payloadBytes_fits hwf)⟩

namespace Machine

/-- Settles O4: nothing stands between the port and `exec` but accepting the packet. -/
theorem stepRunsDecodedCommand : Obligations.StepRunsDecodedCommand := by
  refine ⟨fun s p rest i hport he hp hd => ?port, fun s p i he hreset hp hd => ?execution⟩
  case port =>
    obtain ⟨-, hwf⟩ := payload_of_decode hd
    rw [step_of_command hport he, accepted_eq, completePacket_of_decode hp hd]
    exact ⟨hwf, rfl⟩
  case execution =>
    obtain ⟨-, hwf⟩ := payload_of_decode hd
    rw [step_of_inExec he hreset, completePacket_of_decode hp hd]
    exact ⟨hwf, rfl⟩

end Machine

end Sys2Proof
end

section
/-! PROOF. The 32-byte big-endian image of a value, exported and imported (O57, O34; spec R53, R74, R105, R106, R190). -/

namespace Sys2Proof.Machine

/-- The exported bytes, as one big-endian number, are the value (R190). -/
theorem be_exportData (a : U256) : be (exportData a) = a.val := by
  have hlen : (lBytes a.lower).length = 16 := bytesBE_length _ _
  rw [exportData, be_append, be_lBytes, be_lBytes, hlen, U256.val]
  norm_num

/-- Settles O57: the image is the bytes of the two limbs. -/
theorem exportResult : Obligations.ExportResult := by
  intro ra s
  exact ⟨lBytes (s.src ra).upper, lBytes (s.src ra).lower, rfl, bytesBE_length _ _, bytesBE_length _ _,
    be_lBytes _, be_lBytes _, be_exportData _⟩

/-! ### Import -/

/-- The weights of the four quarter-limbs (R106). -/
theorem quarterValue_val (q3 q2 q1 q0 : Quarter) :
    (quarterValue q3 q2 q1 q0).val = q3.toNat * 2 ^ 192 + q2.toNat * 2 ^ 128 + q1.toNat * 2 ^ 64 + q0.toNat := by
  rw [quarterValue, U256.val, lFromHalves_toNat, lFromHalves_toNat]
  ring

theorem be_bytesBE_quarter (q : Quarter) : be (bytesBE q.toNat 8) = q.toNat := by
  have hq := q.isLt
  rw [be_bytesBE]
  exact Nat.mod_eq_of_lt (by omega)

/-- The two limbs of a 32-byte payload are its value: an `LDP` payload has the layout `EXPORT` returns (R74, R105, R190). -/
theorem limbAt_val {pl : List Byte} (h : pl.length = 32) : U256.val ⟨limbAt pl 0, limbAt pl 16⟩ = be pl := by
  have himage : exportData ⟨limbAt pl 0, limbAt pl 16⟩ = pl := limbs_of_payload h
  rw [← be_exportData, himage]

/-- The four quarter-limbs of a 32-byte payload are its value (R74, R106). -/
theorem quarterAt_val {pl : List Byte} (h : pl.length = 32) :
    (quarterValue (quarterAt pl 0) (quarterAt pl 8) (quarterAt pl 16) (quarterAt pl 24)).val = be pl := by
  rw [quarterValue_val]
  conv_rhs => rw [← quarters_of_payload h]
  simp only [be_append, be_bytesBE_quarter, bytesBE_length]
  ring

theorem formatL_fieldsL (op : Opcode) (rd : Reg) (aux : BitVec 8) : formatL (fieldsL op rd aux) = .ok rd :=
  (formatL_eq_ok ..).mpr ⟨rfl, rfl, rfl, rfl, rfl⟩

/-- Decoding a packet whose word the encoder wrote in format `L` goes on to the operands (R70, R71). -/
theorem decode_fieldsL (op : Opcode) (rd : Reg) (aux : BitVec 8) (pl : List Byte) :
    decode ⟨pack (fieldsL op rd aux), pl⟩ = decodeOperands op (fieldsL op rd aux) pl := by
  have hop : Opcode.ofCode? (fieldsL op rd aux).op = some op := Opcode.ofCode?_code op
  rw [decode, unpack_pack, decodeFields, hop]
  rfl

theorem decode_ldp (rd : Reg) {pl : List Byte} (h : pl.length = 32) :
    decode ⟨pack (fieldsL .ldp rd 0), pl⟩ = .ok (.ldp rd (limbAt pl 0) (limbAt pl 16)) := by
  rw [decode_fieldsL, decodeOperands, formatL_fieldsL, h]
  rfl

theorem decode_ldq (rd : Reg) {pl : List Byte} (h : pl.length = 32) :
    decode ⟨pack (fieldsL .ldq rd 0), pl⟩ =
      .ok (.ldq rd (quarterAt pl 0) (quarterAt pl 8) (quarterAt pl 16) (quarterAt pl 24)) := by
  rw [decode_fieldsL, decodeOperands, formatL_fieldsL, h]
  rfl

/-- Settles O34: both commands write a value that denotes the payload, so they write the same one. -/
theorem ldpLdqImportBytes : Obligations.LdpLdqImportBytes := by
  intro rd pl s h
  have hsame : quarterValue (quarterAt pl 0) (quarterAt pl 8) (quarterAt pl 16) (quarterAt pl 24) =
      ⟨limbAt pl 0, limbAt pl 16⟩ := U256.val_inj.mp ((quarterAt_val h).trans (limbAt_val h).symm)
  refine ⟨_, _, ⟨limbAt pl 0, limbAt pl 16⟩, decode_ldp rd h, decode_ldq rd h, limbAt_val h, rfl, ?_⟩
  rw [← hsame]
  rfl

end Sys2Proof.Machine
end

section
/-! PROOF. The command word as a sum of fields (O26), and the round trip of the encoder and the decoder (O21, O22; spec R70 to R74,
R79): a format decodes exactly the fields the encoder writes in it. -/

namespace Sys2Proof

/-! ### The fields of a word (R70) -/

/-- Appending puts the left part at the weight of the right part's width. -/
theorem toNat_append_eq_add {m n : Nat} (x : BitVec m) (y : BitVec n) : (x ++ y).toNat = x.toNat * 2 ^ n + y.toNat := by
  rw [BitVec.toNat_append, ← Nat.shiftLeft_add_eq_or_of_lt y.isLt, Nat.shiftLeft_eq]

/-- Settles O26: each append puts what is left of it at the weight of its width. -/
theorem wordIsSumOfFields : Obligations.WordIsSumOfFields := by
  refine ⟨fun f => ?_, unpack_pack, pack_unpack⟩
  simp only [pack, toNat_append_eq_add]
  ring

/-! ### The parts of a command (R71, R73, R74) -/

theorem nativeOperand_payload (n : Native) : nativeOperand n.aux n.payload = .ok n := by
  cases n with
  | w8 x | w16 x | w32 x | w64 x =>
    simp only [nativeOperand, Native.aux, Native.payload]
    simp [payloadBits_bytesBE, pure, Except.pure]

theorem aux_of_nativeOperand {aux : BitVec 8} {pl : List Byte} {n : Native} (h : nativeOperand aux pl = .ok n) :
    aux = n.aux := by
  unfold nativeOperand at h
  split_ifs at h with h8 h16 h32 h64
  all_goals
    obtain ⟨x, -, hn⟩ := bind_eq_ok.mp h
    cases hn
    assumption

theorem cvtWidth_eq_ok (aux : BitVec 8) (w : CvtWidth) : cvtWidth aux = .ok w ↔ aux = w.aux := by
  cases w <;> revert aux <;> decide

theorem booleanAux_eq_ok (aux : BitVec 8) (t : Bool) : booleanAux aux = .ok t ↔ aux = if t then 1 else 0 := by
  revert aux t; decide

theorem baseAux_eq_ok (aux : BitVec 8) (base : Nat) :
    baseAux aux = .ok base ↔ aux = BitVec.ofNat 8 base ∧ baseLegal base := by
  simp only [baseAux, bind_eq_ok, require_eq_ok, decide_eq_true_eq, pure, Except.pure, Except.ok.injEq]
  constructor
  · rintro ⟨_, hlegal, rfl⟩
    exact ⟨by simp, hlegal⟩
  · rintro ⟨rfl, hlegal⟩
    have hsmall : base < 256 := hlegal.2.trans_lt (by decide)
    have hval : (BitVec.ofNat 8 base).toNat = base := by simpa using hsmall
    exact ⟨(), by rwa [hval], hval⟩

theorem ofNat_be_bytesBE {w len : Nat} (h : w = 8 * len) (x : BitVec w) :
    BitVec.ofNat w (be (bytesBE x.toNat len)) = x := by
  obtain ⟨-, hx⟩ := payloadBits_ok (payloadBits_bytesBE w len x h)
  exact hx.symm

theorem limbAt_of_bytes {pl : List Byte} {k : Nat} {x : Limb} (h : (pl.drop k).take 16 = bytesBE x.toNat 16) :
    limbAt pl k = x := by
  rw [limbAt, h]
  exact ofNat_be_bytesBE (len := 16) rfl x

theorem quarterAt_of_bytes {pl : List Byte} {k : Nat} {x : Quarter} (h : (pl.drop k).take 8 = bytesBE x.toNat 8) :
    quarterAt pl k = x := by
  rw [quarterAt, h]
  exact ofNat_be_bytesBE (len := 8) rfl x

/-! ### The formats decode exactly the fields the encoder writes (R71) -/

section Formats
variable {op : Opcode} {f : Fields} {pl : List Byte}

theorem fieldsL_of_formatL {rd : Reg} (hop : f.op = op.code) (hz : f.z = 0) (h : formatL f = .ok rd) :
    f = fieldsL op rd f.aux := by
  cases f
  simp_all [formatL_eq_ok, fieldsL]

theorem fieldsR3_of_formatR3 {rd : Reg} {ra : Src} {b : OperandB} (hop : f.op = op.code) (hz : f.z = 0)
    (h : formatR3 f pl = .ok (rd, ra, b)) : f = fieldsR3 op rd ra b := by
  cases f
  simp_all [formatR3_eq_ok, fieldsR3]

theorem fieldsR2_of_formatR2 {rd : Reg} {ra : Src} (hop : f.op = op.code) (hz : f.z = 0)
    (h : formatR2 f pl = .ok (rd, ra)) : f = fieldsR2 op rd ra := by
  cases f
  simp_all [formatR2_eq_ok, fieldsR2]

theorem fieldsR4_of_formatR4 {rd re : Reg} {ra : Src} {b : OperandB} (hop : f.op = op.code) (hz : f.z = 0)
    (h : formatR4 f pl = .ok (rd, re, ra, b)) : f = ⟨op.code, b.n, 0, rd.spec, re.spec, ra.spec, b.spec, 0⟩ := by
  cases f
  simp_all [formatR4_eq_ok]

theorem fieldsC2_of_formatC2 {ra : Src} {b : OperandB} (hop : f.op = op.code) (hz : f.z = 0)
    (h : formatC2 f pl = .ok (ra, b)) : f = fieldsC2 op ra b := by
  cases f
  simp_all [formatC2_eq_ok, fieldsC2]

theorem fieldsC1_of_formatC1 {ra : Src} (hop : f.op = op.code) (hz : f.z = 0) (h : formatC1 f = .ok ra) :
    f = fieldsC1 op ra f.aux := by
  cases f
  simp_all [formatC1_eq_ok, fieldsC1]

theorem fieldsC1_of_formatC1Plain {ra : Src} (hop : f.op = op.code) (hz : f.z = 0)
    (h : formatC1Plain f pl = .ok ra) : f = fieldsC1 op ra 0 := by
  cases f
  simp_all [formatC1Plain_eq_ok, fieldsC1]

theorem formatR3_fieldsR3 (op : Opcode) (rd : Reg) (ra : Src) (b : OperandB) :
    formatR3 (fieldsR3 op rd ra b) b.payload = .ok (rd, ra, b) :=
  (formatR3_eq_ok ..).mpr ⟨rfl, rfl, rfl, rfl, rfl, rfl, rfl⟩

theorem formatR2_fieldsR2 (op : Opcode) (rd : Reg) (ra : Src) : formatR2 (fieldsR2 op rd ra) [] = .ok (rd, ra) :=
  (formatR2_eq_ok ..).mpr ⟨rfl, rfl, rfl, rfl, rfl, rfl, rfl⟩

theorem formatC2_fieldsC2 (op : Opcode) (ra : Src) (b : OperandB) :
    formatC2 (fieldsC2 op ra b) b.payload = .ok (ra, b) :=
  (formatC2_eq_ok ..).mpr ⟨rfl, rfl, rfl, rfl, rfl, rfl, rfl⟩

theorem formatC1_fieldsC1 (op : Opcode) (ra : Src) (aux : BitVec 8) : formatC1 (fieldsC1 op ra aux) = .ok ra :=
  (formatC1_eq_ok ..).mpr ⟨rfl, rfl, rfl, rfl, rfl⟩

theorem formatC1Plain_fieldsC1 (op : Opcode) (ra : Src) : formatC1Plain (fieldsC1 op ra 0) [] = .ok ra :=
  (formatC1Plain_eq_ok ..).mpr ⟨⟨rfl, rfl, rfl, rfl, rfl⟩, rfl, rfl⟩

end Formats

/-! ### The two halves of the round trip (R79) -/

/-- Operands decode only from the fields the encoder writes for the command, which has the opcode of the word (R70 to R73). -/
theorem fields_of_decodeOperands {op : Opcode} {f : Fields} {pl : List Byte} {i : Instr} (hop : f.op = op.code)
    (hz : f.z = 0) (h : decodeOperands op f pl = .ok i) : f = encodeFields i ∧ i.opcode = op := by
  cases op with
  | and | or | xor | shl | shr | add | sub | mul | div | mod =>
    obtain ⟨⟨rd, ra, b⟩, hformat, hk⟩ := bind_eq_ok.mp h
    cases hk
    exact ⟨fieldsR3_of_formatR3 hop hz hformat, rfl⟩
  | not | inc | dec | neg | pos =>
    obtain ⟨⟨rd, ra⟩, hformat, hk⟩ := bind_eq_ok.mp h
    cases hk
    exact ⟨fieldsR2_of_formatR2 hop hz hformat, rfl⟩
  | divmod =>
    obtain ⟨⟨rd, re, ra, b⟩, hformat, hk⟩ := bind_eq_ok.mp h
    cases hk
    exact ⟨fieldsR4_of_formatR4 hop hz hformat, rfl⟩
  | eq | ne | lt | gt | le | ge | land | lor =>
    obtain ⟨⟨ra, b⟩, hformat, hk⟩ := bind_eq_ok.mp h
    cases hk
    exact ⟨fieldsC2_of_formatC2 hop hz hformat, rfl⟩
  | lnot | tst | bits | exportBits | exportTrunc =>
    obtain ⟨ra, hformat, hk⟩ := bind_eq_ok.mp h
    cases hk
    exact ⟨fieldsC1_of_formatC1Plain hop hz hformat, rfl⟩
  | ldu | lds =>
    obtain ⟨rd, hformat, h⟩ := bind_eq_ok.mp h
    obtain ⟨n, hn, hk⟩ := bind_eq_ok.mp h
    cases hk
    rw [fieldsL_of_formatL hop hz hformat, aux_of_nativeOperand hn]
    exact ⟨rfl, rfl⟩
  | ldb =>
    obtain ⟨rd, hformat, h⟩ := bind_eq_ok.mp h
    obtain ⟨t, haux, h⟩ := bind_eq_ok.mp h
    obtain ⟨_, -, hk⟩ := bind_eq_ok.mp h
    cases hk
    rw [fieldsL_of_formatL hop hz hformat, (booleanAux_eq_ok ..).mp haux]
    exact ⟨rfl, rfl⟩
  | ldh | ldp | ldq =>
    obtain ⟨rd, hformat, h⟩ := bind_eq_ok.mp h
    obtain ⟨_, haux, h⟩ := bind_eq_ok.mp h
    obtain ⟨_, -, hk⟩ := bind_eq_ok.mp h
    cases hk
    rw [fieldsL_of_formatL hop hz hformat, beq_iff_eq.mp (require_ok haux)]
    exact ⟨rfl, rfl⟩
  | parse =>
    obtain ⟨rd, hformat, h⟩ := bind_eq_ok.mp h
    obtain ⟨base, hbase, h⟩ := bind_eq_ok.mp h
    obtain ⟨_, -, hk⟩ := bind_eq_ok.mp h
    cases hk
    obtain ⟨haux, -⟩ := (baseAux_eq_ok ..).mp hbase
    rw [fieldsL_of_formatL hop hz hformat, haux]
    exact ⟨rfl, rfl⟩
  | cvt =>
    obtain ⟨ra, hformat, h⟩ := bind_eq_ok.mp h
    obtain ⟨w, haux, h⟩ := bind_eq_ok.mp h
    obtain ⟨_, -, hk⟩ := bind_eq_ok.mp h
    cases hk
    rw [fieldsC1_of_formatC1 hop hz hformat, (cvtWidth_eq_ok ..).mp haux]
    exact ⟨rfl, rfl⟩
  | str =>
    obtain ⟨ra, hformat, h⟩ := bind_eq_ok.mp h
    obtain ⟨base, hbase, h⟩ := bind_eq_ok.mp h
    obtain ⟨m, -, hk⟩ := bind_eq_ok.mp h
    cases hk
    obtain ⟨haux, -⟩ := (baseAux_eq_ok ..).mp hbase
    rw [fieldsC1_of_formatC1 hop hz hformat, haux]
    exact ⟨rfl, rfl⟩

/-- The operands of a well-formed command decode from what the encoder writes (R79). -/
theorem decodeOperands_encode {i : Instr} (hwf : i.wf = true) :
    decodeOperands i.opcode (encodeFields i) (encodePayload i) = .ok i := by
  cases i with
  | and | or | xor | shl | shr | add | sub | mul | div | mod => exact bind_eq_ok.mpr ⟨_, formatR3_fieldsR3 .., rfl⟩
  | not | inc | dec | neg | pos => exact bind_eq_ok.mpr ⟨_, formatR2_fieldsR2 .., rfl⟩
  | eq | ne | lt | gt | le | ge | land | lor => exact bind_eq_ok.mpr ⟨_, formatC2_fieldsC2 .., rfl⟩
  | lnot | tst | bits | exportBits | exportTrunc => exact bind_eq_ok.mpr ⟨_, formatC1Plain_fieldsC1 .., rfl⟩
  | divmod rd re ra b =>
    have hdiffer : rd ≠ re := of_decide_eq_true hwf
    exact bind_eq_ok.mpr
      ⟨(rd, re, ra, b), (formatR4_eq_ok ..).mpr ⟨rfl, rfl, rfl, rfl, rfl, rfl, rfl, hdiffer⟩, rfl⟩
  | ldu rd n | lds rd n =>
    exact bind_eq_ok.mpr ⟨rd, Machine.formatL_fieldsL .., bind_eq_ok.mpr ⟨n, nativeOperand_payload n, rfl⟩⟩
  | ldb rd t =>
    exact bind_eq_ok.mpr ⟨rd, Machine.formatL_fieldsL .., bind_eq_ok.mpr ⟨t, (booleanAux_eq_ok ..).mpr rfl, rfl⟩⟩
  | ldh rd x =>
    exact bind_eq_ok.mpr ⟨rd, Machine.formatL_fieldsL .., bind_eq_ok.mpr ⟨(), rfl,
      bind_eq_ok.mpr ⟨x, payloadBits_bytesBE 128 16 x rfl, rfl⟩⟩⟩
  | ldp rd u l =>
    refine bind_eq_ok.mpr ⟨rd, Machine.formatL_fieldsL .., bind_eq_ok.mpr ⟨(), rfl, bind_eq_ok.mpr ⟨(), ?_, ?_⟩⟩⟩
    · simp [encodePayload]
    · rw [limbAt_of_bytes (x := u), limbAt_of_bytes (x := l)]
      · rfl
      all_goals simp [encodePayload]
  | ldq rd q3 q2 q1 q0 =>
    refine bind_eq_ok.mpr ⟨rd, Machine.formatL_fieldsL .., bind_eq_ok.mpr ⟨(), rfl, bind_eq_ok.mpr ⟨(), ?_, ?_⟩⟩⟩
    · simp [encodePayload]
    · rw [quarterAt_of_bytes (x := q3), quarterAt_of_bytes (x := q2), quarterAt_of_bytes (x := q1),
        quarterAt_of_bytes (x := q0)]
      · rfl
      all_goals simp [encodePayload, List.drop_append, List.drop_of_length_le]
  | parse rd text base =>
    obtain ⟨hbase, hfits⟩ : baseLegal base ∧ textFits text := of_decide_eq_true hwf
    exact bind_eq_ok.mpr ⟨rd, Machine.formatL_fieldsL .., bind_eq_ok.mpr ⟨base, (baseAux_eq_ok ..).mpr ⟨rfl, hbase⟩,
      bind_eq_ok.mpr ⟨(), (require_eq_ok ..).mpr (decide_eq_true hfits), rfl⟩⟩⟩
  | cvt w ra =>
    exact bind_eq_ok.mpr ⟨ra, formatC1_fieldsC1 .., bind_eq_ok.mpr ⟨w, (cvtWidth_eq_ok ..).mpr rfl, rfl⟩⟩
  | str ra base m =>
    have hbase : baseLegal base := of_decide_eq_true hwf
    exact bind_eq_ok.mpr ⟨ra, formatC1_fieldsC1 .., bind_eq_ok.mpr ⟨base, (baseAux_eq_ok ..).mpr ⟨rfl, hbase⟩,
      bind_eq_ok.mpr ⟨m, payloadBits_bytesBE 16 2 m rfl, rfl⟩⟩⟩

/-- A packet decodes to a command exactly when it has the command's opcode, bit 24 is 0 and its operands decode. -/
theorem decode_eq_ok (p : Packet) (i : Instr) :
    decode p = .ok i ↔ (unpack p.word).op = i.opcode.code ∧ (unpack p.word).z = 0 ∧
      decodeOperands i.opcode (unpack p.word) p.payload = .ok i := by
  constructor
  · intro h
    rw [decode, decodeFields] at h
    split at h
    case h_1 => cases h
    case h_2 op hcode =>
      obtain ⟨_, hz, hoperands⟩ := bind_eq_ok.mp h
      have hop := (Opcode.code_of_ofCode? hcode).symm
      have hz := beq_iff_eq.mp (require_ok hz)
      obtain ⟨-, rfl⟩ := fields_of_decodeOperands hop hz hoperands
      exact ⟨hop, hz, hoperands⟩
  · rintro ⟨hop, hz, hoperands⟩
    rw [decode, decodeFields, hop, Opcode.ofCode?_code]
    exact bind_eq_ok.mpr ⟨(), (require_eq_ok ..).mpr (beq_iff_eq.mpr hz), hoperands⟩

@[simp] theorem encodeFields_op (i : Instr) : (encodeFields i).op = i.opcode.code := by cases i <;> rfl

/-- The reserved bit is 0 in every encoding (R70). -/
@[simp] theorem encodeFields_z (i : Instr) : (encodeFields i).z = 0 := by cases i <;> rfl

theorem decode_encode {i : Instr} (hwf : i.wf = true) : decode (encode i) = .ok i := by
  rw [decode_eq_ok, encode, unpack_pack]
  exact ⟨encodeFields_op i, encodeFields_z i, decodeOperands_encode hwf⟩

theorem encode_of_decode {p : Packet} {i : Instr} (h : decode p = .ok i) : encode i = p := by
  obtain ⟨hop, hz, hoperands⟩ := (decode_eq_ok p i).mp h
  obtain ⟨hfields, -⟩ := fields_of_decodeOperands hop hz hoperands
  obtain ⟨hpayload, -⟩ := payload_of_decode h
  rw [encode, ← hfields, ← hpayload, pack_unpack]

theorem encode_presentable {i : Instr} (hwf : i.wf = true) : Machine.presentable (encode i) = true := by
  refine decide_eq_true ?_
  rw [encode, encodePayload_length]
  exact payloadBytes_fits hwf

/-- Settles O21. -/
theorem decodeOfEncode : Obligations.DecodeOfEncode :=
  fun _ hwf => ⟨decode_encode hwf, encode_presentable hwf⟩

/-- Bit 24 of a word is its reserved field (R70). -/
theorem getLsbD_24 (w : BitVec 32) : w.getLsbD 24 = (unpack w).z.getLsbD 0 := by
  simp [unpack]

/-- Settles O22: the decoder reads the fields and the payload the encoder writes. -/
theorem encodeOfDecode : Obligations.EncodeOfDecode := by
  refine ⟨fun p i h => ?_, fun p q i hp hq => ?_⟩
  · obtain ⟨-, hz, -⟩ := (decode_eq_ok p i).mp h
    obtain ⟨-, hwf⟩ := payload_of_decode h
    refine ⟨encode_of_decode h, hwf, ?_⟩
    rw [getLsbD_24, hz]
    rfl
  · exact (encode_of_decode hp).symm.trans (encode_of_decode hq)

end Sys2Proof
end

section
/-! PROOF. The decoder and the opcode table (O23; spec R80, R85). Each row of the table is its format's; its mask fixes the opcode, bit 24,
`N` where there is no narrow form, and the bits its ranges exclude; what is left, the ranges and the payload length, is what the format
decodes. -/

namespace Sys2Proof

/-! ### The rows of the table, by format (R71, R85) -/

def rowL (op : Opcode) (auxMask : BitVec 32) (auxMin auxMax : Nat) (payload : PayloadRule) : OpRow :=
  ⟨op, op.code ++ 0#26, 0xFF8FFF00 ||| auxMask, 7, 0, 0, 0, auxMin, auxMax, payload, false⟩

def rowR3 (op : Opcode) : OpRow := ⟨op, op.code ++ 0#26, 0xFD8F00FF, 7, 0, 10, 10, 0, 0, .byForm, false⟩

def rowR2 (op : Opcode) : OpRow := ⟨op, op.code ++ 0#26, 0xFF8F0FFF, 7, 0, 10, 0, 0, 0, .exact 0, false⟩

def rowR4 (op : Opcode) : OpRow := ⟨op, op.code ++ 0#26, 0xFD8800FF, 7, 7, 10, 10, 0, 0, .byForm, true⟩

def rowC2 (op : Opcode) : OpRow := ⟨op, op.code ++ 0#26, 0xFDFF00FF, 0, 0, 10, 10, 0, 0, .byForm, false⟩

def rowC1 (op : Opcode) (auxMask : BitVec 32) (auxMin auxMax : Nat) (payload : PayloadRule) : OpRow :=
  ⟨op, op.code ++ 0#26, 0xFFFF0F00 ||| auxMask, 0, 0, 10, 0, auxMin, auxMax, payload, false⟩

/-- The row of an opcode. -/
def rowOf (op : Opcode) : OpRow :=
  match op with
  | .ldu | .lds => rowL op 0xFC 0 3 .byAux
  | .ldb => rowL op 0xFE 0 1 (.exact 0)
  | .ldh => rowL op 0xFF 0 0 (.exact 16)
  | .ldp | .ldq => rowL op 0xFF 0 0 (.exact 32)
  | .parse => rowL op 0xC0 2 36 (.upTo 65535)
  | .and | .or | .xor | .shl | .shr | .add | .sub | .mul | .div | .mod => rowR3 op
  | .not | .inc | .dec | .neg | .pos => rowR2 op
  | .divmod => rowR4 op
  | .eq | .ne | .lt | .gt | .le | .ge | .land | .lor => rowC2 op
  | .cvt => rowC1 op 0xF8 0 4 (.exact 0)
  | .str => rowC1 op 0xC0 2 36 (.exact 2)
  | .lnot | .tst | .bits | .exportBits | .exportTrunc => rowC1 op 0xFF 0 0 (.exact 0)

theorem opcodeTable_eq : opcodeTable = Opcode.all.map rowOf := by decide

theorem rowOf_mem (op : Opcode) : rowOf op ∈ opcodeTable := by
  have hall : op ∈ Opcode.all := by cases op <;> decide
  rw [opcodeTable_eq]
  exact List.mem_map_of_mem hall

theorem eq_rowOf_of_mem {row : OpRow} (h : row ∈ opcodeTable) : row = rowOf row.opcode := by
  revert row; decide

/-! ### What a row's `match` and `mask` say beyond its ranges -/

/-- The bits that a field of at most `hi` never sets. -/
def rangeMask (w hi : Nat) : BitVec w := BitVec.allOnes w <<< Nat.size hi

/-- The mask the ranges call for: the opcode, `N` where there is no narrow form, bit 24, and the bits each range excludes. -/
def OpRow.rangesMask (row : OpRow) : Fields :=
  ⟨BitVec.allOnes 6, if row.payload = .byForm then 0 else BitVec.allOnes 1, BitVec.allOnes 1, rangeMask 4 row.rdMax,
    rangeMask 4 row.reMax, rangeMask 4 row.raMax, rangeMask 4 row.rbMax, rangeMask 8 row.auxMax⟩

theorem pattern_mask_of_mem {row : OpRow} (h : row ∈ opcodeTable) :
    row.pattern = pack ⟨row.opcode.code, 0, 0, 0, 0, 0, 0, 0⟩ ∧ row.mask = pack row.rangesMask := by
  revert row; decide

/-- A field in its range sets no masked bit. -/
theorem and_rangeMask {w hi : Nat} {x : BitVec w} (h : x.toNat ≤ hi) : x &&& rangeMask w hi = 0 := by
  have hlt : x.toNat < 2 ^ Nat.size hi := h.trans_lt (Nat.lt_size_self hi)
  apply BitVec.eq_of_getLsbD_eq
  intro k hk
  by_cases hlow : k < Nat.size hi
  · simp [rangeMask, hlow]
  · have hbit : x.getLsbD k = false :=
      Nat.testBit_lt_two_pow (hlt.trans_le (Nat.pow_le_pow_right (by decide) (not_lt.mp hlow)))
    simp [hbit]

/-- Masking a word masks its fields (R70, R85). -/
theorem and_pack_eq_pack (w : BitVec 32) (m c : Fields) :
    w &&& pack m = pack c ↔ (unpack w).op &&& m.op = c.op ∧ (unpack w).n &&& m.n = c.n ∧ (unpack w).z &&& m.z = c.z ∧
      (unpack w).rd &&& m.rd = c.rd ∧ (unpack w).re &&& m.re = c.re ∧ (unpack w).ra &&& m.ra = c.ra ∧
      (unpack w).rb &&& m.rb = c.rb ∧ (unpack w).aux &&& m.aux = c.aux := by
  have hinj : w &&& pack m = pack c ↔ unpack (w &&& pack m) = c :=
    ⟨fun h => by rw [h, unpack_pack], fun h => by rw [← h, pack_unpack]⟩
  have hand : unpack (w &&& pack m) = ⟨(unpack w).op &&& m.op, (unpack w).n &&& m.n, (unpack w).z &&& m.z,
      (unpack w).rd &&& m.rd, (unpack w).re &&& m.re, (unpack w).ra &&& m.ra, (unpack w).rb &&& m.rb,
      (unpack w).aux &&& m.aux⟩ := by
    conv_rhs => rw [← unpack_pack m]
    simp only [unpack, BitVec.extractLsb'_and]
  rw [hinj, hand, ← Fields.mk.injEq]

/-- `N` is masked where there is no narrow form. -/
theorem and_narrowMask (c : Prop) [Decidable c] (n : BitVec 1) :
    n &&& (if c then 0 else BitVec.allOnes 1) = 0 ↔ (¬c → n = 0) := by
  split_ifs with hc
  · simp [hc]
  · rw [BitVec.and_allOnes, forall_prop_of_true hc]

/-- What a row asks of the operand fields and the payload length: the ranges, the length, the constraint (R85). -/
def OpRow.InRange (row : OpRow) (f : Fields) (len : Nat) : Prop :=
  f.rd.toNat ≤ row.rdMax ∧ f.re.toNat ≤ row.reMax ∧ f.ra.toNat ≤ row.raMax ∧
  (if f.n = 1 then f.rb = 0 else f.rb.toNat ≤ row.rbMax) ∧ row.auxMin ≤ f.aux.toNat ∧ f.aux.toNat ≤ row.auxMax ∧
  row.payload.admits f len = true ∧ (row.distinct = false ∨ f.rd ≠ f.re)

theorem admits_eq_true (row : OpRow) (p : Packet) :
    row.admits p = true ↔ p.word &&& row.mask = row.pattern ∧ row.InRange (unpack p.word) p.payload.length := by
  simp [OpRow.admits, OpRow.InRange, and_assoc]

/-- In range, `rb` is at most its bound, in the narrow form too. -/
theorem rb_le_of_inRange {row : OpRow} {f : Fields} {len : Nat} (h : row.InRange f len) : f.rb.toNat ≤ row.rbMax := by
  obtain ⟨-, -, -, hrb, -⟩ := h
  split at hrb
  · simp [hrb]
  · exact hrb

/-- A word of fields in range matches a row exactly by its opcode, bit 24 and, without a narrow form, `N`. -/
theorem and_mask_eq_pattern {row : OpRow} (hrow : row ∈ opcodeTable) {w : BitVec 32} {len : Nat}
    (h : row.InRange (unpack w) len) : w &&& row.mask = row.pattern ↔
      (unpack w).op = row.opcode.code ∧ (row.payload ≠ .byForm → (unpack w).n = 0) ∧ (unpack w).z = 0 := by
  have hrb := rb_le_of_inRange h
  obtain ⟨hrd, hre, hra, -, -, haux, -⟩ := h
  obtain ⟨hpattern, hmask⟩ := pattern_mask_of_mem hrow
  rw [hpattern, hmask, and_pack_eq_pack]
  simp only [OpRow.rangesMask, and_rangeMask hrd, and_rangeMask hre, and_rangeMask hra, and_rangeMask hrb, and_rangeMask haux,
    BitVec.and_allOnes, and_narrowMask, and_true, Ne]

/-- A row admits a packet of its opcode with bit 24 clear, `N` clear without a narrow form, and everything in range. -/
theorem admits_iff {row : OpRow} (hrow : row ∈ opcodeTable) (p : Packet) :
    row.admits p = true ↔ (unpack p.word).op = row.opcode.code ∧ (unpack p.word).z = 0 ∧
      (row.payload ≠ .byForm → (unpack p.word).n = 0) ∧ row.InRange (unpack p.word) p.payload.length := by
  rw [admits_eq_true, and_congr_left (and_mask_eq_pattern hrow)]
  tauto

/-! ### Which fields decode, format by format -/

theorem exists_reg_spec (b : BitVec 4) : (∃ r : Reg, r.spec = b) ↔ b.toNat ≤ 7 := by
  revert b; decide

theorem exists_src_spec (b : BitVec 4) : (∃ r : Src, r.spec = b) ↔ b.toNat ≤ 10 := by
  constructor
  · rintro ⟨r, rfl⟩
    cases r with
    | v r => revert r; decide
    | zero | one | max => decide
  · intro h
    have hsource : (source b).toBool = true := by revert b; decide
    cases hr : source b with
    | ok r => exact ⟨r, spec_of_source hr⟩
    | error e => simp [hr, Except.toBool] at hsource

/-- A number with these bytes exists exactly when there are as many as it is wide (R53, R74). -/
theorem exists_bytesBE {w len : Nat} (h : w = 8 * len) (pl : List Byte) :
    (∃ x : BitVec w, pl = bytesBE x.toNat len) ↔ pl.length = len := by
  constructor
  · rintro ⟨x, rfl⟩
    exact bytesBE_length _ _
  · rintro rfl
    exact ⟨_, (bytesBE_ofNat_be w pl h).symm⟩

theorem exists_operandB_iff {P : OperandB → Prop} : (∃ b, P b) ↔ (∃ r, P (.src r)) ∨ ∃ x, P (.narrow x) := by
  constructor
  · rintro ⟨b, hb⟩
    cases b with
    | src r => exact .inl ⟨r, hb⟩
    | narrow x => exact .inr ⟨x, hb⟩
  · rintro (⟨r, hr⟩ | ⟨x, hx⟩)
    · exact ⟨_, hr⟩
    · exact ⟨_, hx⟩

/-- Operand b has an encoding in these fields and this payload length: a source and no payload, or the 16-byte form (R76). -/
theorem exists_operandB (f : Fields) (pl : List Byte) :
    (∃ b : OperandB, f.n = b.n ∧ f.rb = b.spec ∧ pl = b.payload) ↔
      (if f.n = 1 then f.rb = 0 else f.rb.toNat ≤ 10) ∧ PayloadRule.admits .byForm f pl.length = true := by
  have hn : f.n = 0 ∨ f.n = 1 := by generalize f.n = n; revert n; decide
  rw [exists_operandB_iff]
  rcases hn with hn | hn
  · simp [hn, OperandB.n, OperandB.spec, OperandB.payload, PayloadRule.admits, ← exists_src_spec, eq_comm (b := f.rb)]
  · simp [hn, OperandB.n, OperandB.spec, OperandB.payload, PayloadRule.admits, exists_bytesBE]

/-- What a row asks of a packet beside its opcode and bit 24. -/
def OpRow.Fits (row : OpRow) (f : Fields) (len : Nat) : Prop :=
  (row.payload ≠ .byForm → f.n = 0) ∧ row.InRange f len

theorem toNat_eq_zero {w : Nat} (x : BitVec w) : x.toNat = 0 ↔ x = 0#w := by
  rw [BitVec.toNat_eq, BitVec.toNat_zero]

theorem reg_spec_inj {r r' : Reg} : r.spec = r'.spec ↔ r = r' := by
  revert r r'; decide

section Formats
variable (op : Opcode) (f : Fields) (pl : List Byte)

theorem exists_formatR3 : (∃ x, formatR3 f pl = .ok x) ↔ (rowR3 op).Fits f pl.length := by
  simp only [formatR3_eq_ok, Prod.exists, exists_and_left, exists_and_right, exists_reg_spec, exists_src_spec, exists_operandB]
  simp [OpRow.Fits, OpRow.InRange, rowR3, toNat_eq_zero]
  tauto

theorem exists_formatR2 : (∃ x, formatR2 f pl = .ok x) ↔ (rowR2 op).Fits f pl.length := by
  simp only [formatR2_eq_ok, Prod.exists, exists_and_left, exists_and_right, exists_reg_spec, exists_src_spec]
  simp [OpRow.Fits, OpRow.InRange, rowR2, toNat_eq_zero, PayloadRule.admits]
  tauto

/-- The destinations differ exactly when their specifiers do (R80 (8)). -/
theorem formatR4_eq_ok_of_fields (x : Reg × Reg × Src × OperandB) :
    formatR4 f pl = .ok x ↔ f.aux = 0 ∧ f.rd ≠ f.re ∧ x.1.spec = f.rd ∧ x.2.1.spec = f.re ∧ x.2.2.1.spec = f.ra ∧
      f.n = x.2.2.2.n ∧ f.rb = x.2.2.2.spec ∧ pl = x.2.2.2.payload := by
  rw [formatR4_eq_ok, Ne, ← reg_spec_inj]
  constructor
  · rintro ⟨haux, hrd, hre, hra, hn, hrb, hpl, hne⟩
    exact ⟨haux, hrd ▸ hre ▸ hne, hrd, hre, hra, hn, hrb, hpl⟩
  · rintro ⟨haux, hne, hrd, hre, hra, hn, hrb, hpl⟩
    exact ⟨haux, hrd, hre, hra, hn, hrb, hpl, hrd ▸ hre ▸ hne⟩

theorem exists_formatR4 : (∃ x, formatR4 f pl = .ok x) ↔ (rowR4 op).Fits f pl.length := by
  simp only [formatR4_eq_ok_of_fields, Prod.exists, exists_and_left, exists_and_right, exists_reg_spec, exists_src_spec,
    exists_operandB]
  simp [OpRow.Fits, OpRow.InRange, rowR4, toNat_eq_zero]
  tauto

theorem exists_formatC2 : (∃ x, formatC2 f pl = .ok x) ↔ (rowC2 op).Fits f pl.length := by
  simp only [formatC2_eq_ok, Prod.exists, exists_and_left, exists_and_right, exists_src_spec, exists_operandB]
  simp [OpRow.Fits, OpRow.InRange, rowC2, toNat_eq_zero]
  tauto

variable {f} in
/-- A row of format `L` asks for the format, the range of `aux` and the payload length. -/
theorem rowL_fits (auxMask : BitVec 32) (auxMin auxMax : Nat) {payload : PayloadRule} (h : payload ≠ .byForm) (len : Nat) :
    (rowL op auxMask auxMin auxMax payload).Fits f len ↔
      (∃ rd, formatL f = .ok rd) ∧ (auxMin ≤ f.aux.toNat ∧ f.aux.toNat ≤ auxMax) ∧ payload.admits f len = true := by
  simp only [formatL_eq_ok, exists_and_left, exists_reg_spec]
  simp [OpRow.Fits, OpRow.InRange, rowL, toNat_eq_zero, h]
  tauto

variable {f} in
/-- A row of format `C1` asks for the format, the range of `aux` and the payload length. -/
theorem rowC1_fits (auxMask : BitVec 32) (auxMin auxMax : Nat) {payload : PayloadRule} (h : payload ≠ .byForm) (len : Nat) :
    (rowC1 op auxMask auxMin auxMax payload).Fits f len ↔
      (∃ ra, formatC1 f = .ok ra) ∧ (auxMin ≤ f.aux.toNat ∧ f.aux.toNat ≤ auxMax) ∧ payload.admits f len = true := by
  simp only [formatC1_eq_ok, exists_and_left, exists_src_spec]
  simp [OpRow.Fits, OpRow.InRange, rowC1, toNat_eq_zero, h]
  tauto

end Formats

/-! ### Which values of `aux` and which payloads decode (R55, R73) -/

theorem exists_booleanAux (aux : BitVec 8) : (∃ t, booleanAux aux = .ok t) ↔ 0 ≤ aux.toNat ∧ aux.toNat ≤ 1 := by
  simp only [booleanAux_eq_ok]
  revert aux; decide

theorem exists_cvtWidth (aux : BitVec 8) : (∃ w, cvtWidth aux = .ok w) ↔ 0 ≤ aux.toNat ∧ aux.toNat ≤ 4 := by
  constructor
  · rintro ⟨w, h⟩
    obtain rfl := (cvtWidth_eq_ok aux w).mp h
    cases w <;> decide
  · rintro ⟨-, h⟩
    have hwidth : (cvtWidth aux).toBool = true := by revert aux; decide
    cases hw : cvtWidth aux with
    | ok w => exact ⟨w, rfl⟩
    | error e => simp [hw, Except.toBool] at hwidth

theorem exists_baseAux (aux : BitVec 8) : (∃ base, baseAux aux = .ok base) ↔ 2 ≤ aux.toNat ∧ aux.toNat ≤ 36 := by
  constructor
  · rintro ⟨base, h⟩
    obtain ⟨_, hlegal, -⟩ := bind_eq_ok.mp h
    exact of_decide_eq_true (require_ok hlegal)
  · intro h
    exact ⟨aux.toNat, (baseAux_eq_ok ..).mpr ⟨by simp, h⟩⟩

theorem exists_noAux (aux : BitVec 8) : (∃ u, noAux aux = .ok u) ↔ 0 ≤ aux.toNat ∧ aux.toNat ≤ 0 := by
  simp [noAux, toNat_eq_zero]

theorem exists_requireLength (k : Nat) (f : Fields) (pl : List Byte) (e : Illegal) :
    (∃ u, require (pl.length == k) e = .ok u) ↔ PayloadRule.admits (.exact k) f pl.length = true := by
  simp [PayloadRule.admits]

theorem exists_payloadBits {w len : Nat} (h : w = 8 * len) (f : Fields) (pl : List Byte) :
    (∃ x : BitVec w, payloadBits w len pl = .ok x) ↔ PayloadRule.admits (.exact len) f pl.length = true := by
  simp only [payloadBits_eq_ok w len pl _ h, exists_bytesBE h, PayloadRule.admits, beq_iff_eq]

/-- A width code calls for `2^aux` bytes (R55, R73 (a)). -/
theorem Native.payload_length_eq (n : Native) : n.payload.length = 2 ^ n.aux.toNat := by
  cases n <;> exact bytesBE_length _ _

theorem Native.aux_le (n : Native) : n.aux.toNat ≤ 3 := by
  cases n <;> simp [Native.aux]

/-- A payload of the length of one width decodes to a number of that width. -/
theorem exists_native {w len : Nat} (hw : w = 8 * len) {mk : BitVec w → Native} {aux : BitVec 8} {pl : List Byte}
    (haux : ∀ x, (mk x).aux = aux) (hmk : ∀ x, (mk x).payload = bytesBE x.toNat len) (hlen : pl.length = len) :
    ∃ n, nativeOperand aux pl = .ok n := by
  obtain ⟨x, hx⟩ := (exists_bytesBE hw pl).mpr hlen
  rw [hx, ← hmk x, ← haux x]
  exact ⟨mk x, nativeOperand_payload _⟩

theorem exists_nativeOperand (f : Fields) (pl : List Byte) :
    (∃ n, nativeOperand f.aux pl = .ok n) ↔
      (0 ≤ f.aux.toNat ∧ f.aux.toNat ≤ 3) ∧ PayloadRule.admits .byAux f pl.length = true := by
  rw [PayloadRule.admits, beq_iff_eq]
  constructor
  · rintro ⟨n, h⟩
    rw [aux_of_nativeOperand h, payload_of_nativeOperand h]
    exact ⟨⟨Nat.zero_le _, n.aux_le⟩, n.payload_length_eq⟩
  · rintro ⟨⟨-, haux⟩, hlen⟩
    have hwidth : f.aux = 0 ∨ f.aux = 1 ∨ f.aux = 2 ∨ f.aux = 3 := by
      revert haux
      generalize f.aux = aux
      revert aux
      decide
    rcases hwidth with h | h | h | h <;> rw [h] at hlen ⊢
    · exact exists_native (mk := .w8) rfl (fun _ => rfl) (fun _ => rfl) hlen
    · exact exists_native (mk := .w16) rfl (fun _ => rfl) (fun _ => rfl) hlen
    · exact exists_native (mk := .w32) rfl (fun _ => rfl) (fun _ => rfl) hlen
    · exact exists_native (mk := .w64) rfl (fun _ => rfl) (fun _ => rfl) hlen

/-! ### Which operands decode, opcode by opcode -/

theorem exists_bind_iff {α β : Type} {x : Decoded α} {k : α → Decoded β} {P Q : Prop} (hx : (∃ a, x = .ok a) ↔ P)
    (hk : ∀ a, (∃ b, k a = .ok b) ↔ Q) : (∃ b, (x >>= k) = .ok b) ↔ P ∧ Q := by
  simp only [bind_eq_ok, ← hx]
  constructor
  · rintro ⟨b, a, ha, hb⟩
    exact ⟨⟨a, ha⟩, (hk a).mp ⟨b, hb⟩⟩
  · rintro ⟨⟨a, ha⟩, hq⟩
    obtain ⟨b, hb⟩ := (hk a).mpr hq
    exact ⟨b, a, ha, hb⟩

/-- A decoder whose last step cannot fail. -/
theorem exists_bind_of_total {α β : Type} {x : Decoded α} {k : α → Decoded β} {P : Prop} (hx : (∃ a, x = .ok a) ↔ P)
    (hk : ∀ a, ∃ b, k a = .ok b) : (∃ b, (x >>= k) = .ok b) ↔ P :=
  (exists_bind_iff hx fun a => iff_true_intro (hk a)).trans (and_iff_left trivial)

/-- Operands of an opcode decode exactly from the fields and the payload length its row asks for. -/
theorem exists_decodeOperands (op : Opcode) (f : Fields) (pl : List Byte) :
    (∃ i, decodeOperands op f pl = .ok i) ↔ (rowOf op).Fits f pl.length := by
  cases op with
  | and | or | xor | shl | shr | add | sub | mul | div | mod =>
    exact exists_bind_of_total (exists_formatR3 _ f pl) fun _ => ⟨_, rfl⟩
  | not | inc | dec | neg | pos => exact exists_bind_of_total (exists_formatR2 _ f pl) fun _ => ⟨_, rfl⟩
  | divmod => exact exists_bind_of_total (exists_formatR4 _ f pl) fun _ => ⟨_, rfl⟩
  | eq | ne | lt | gt | le | ge | land | lor => exact exists_bind_of_total (exists_formatC2 _ f pl) fun _ => ⟨_, rfl⟩
  | lnot | tst | bits | exportBits | exportTrunc =>
    rw [rowOf, rowC1_fits _ _ _ _ (by decide)]
    exact exists_bind_of_total
      (exists_bind_iff Iff.rfl fun _ => exists_bind_iff (exists_noAux f.aux) fun _ =>
        exists_bind_of_total (exists_requireLength 0 f pl _) fun _ => ⟨_, rfl⟩) fun _ => ⟨_, rfl⟩
  | ldu | lds =>
    rw [rowOf, rowL_fits _ _ _ _ (by decide)]
    exact exists_bind_iff Iff.rfl fun _ => exists_bind_of_total (exists_nativeOperand f pl) fun _ => ⟨_, rfl⟩
  | ldb =>
    rw [rowOf, rowL_fits _ _ _ _ (by decide)]
    exact exists_bind_iff Iff.rfl fun _ => exists_bind_iff (exists_booleanAux f.aux) fun _ =>
      exists_bind_of_total (exists_requireLength 0 f pl _) fun _ => ⟨_, rfl⟩
  | ldh =>
    rw [rowOf, rowL_fits _ _ _ _ (by decide)]
    exact exists_bind_iff Iff.rfl fun _ => exists_bind_iff (exists_noAux f.aux) fun _ =>
      exists_bind_of_total (exists_payloadBits (len := 16) rfl f pl) fun _ => ⟨_, rfl⟩
  | ldp | ldq =>
    rw [rowOf, rowL_fits _ _ _ _ (by decide)]
    exact exists_bind_iff Iff.rfl fun _ => exists_bind_iff (exists_noAux f.aux) fun _ =>
      exists_bind_of_total (exists_requireLength 32 f pl _) fun _ => ⟨_, rfl⟩
  | parse =>
    rw [rowOf, rowL_fits _ _ _ _ (by decide)]
    exact exists_bind_iff Iff.rfl fun _ => exists_bind_iff (exists_baseAux f.aux) fun _ =>
      exists_bind_of_total (by simp [PayloadRule.admits, Config.textMax]) fun _ => ⟨_, rfl⟩
  | cvt =>
    rw [rowOf, rowC1_fits _ _ _ _ (by decide)]
    exact exists_bind_iff Iff.rfl fun _ => exists_bind_iff (exists_cvtWidth f.aux) fun _ =>
      exists_bind_of_total (exists_requireLength 0 f pl _) fun _ => ⟨_, rfl⟩
  | str =>
    rw [rowOf, rowC1_fits _ _ _ _ (by decide)]
    exact exists_bind_iff Iff.rfl fun _ => exists_bind_iff (exists_baseAux f.aux) fun _ =>
      exists_bind_of_total (exists_payloadBits (len := 2) rfl f pl) fun _ => ⟨_, rfl⟩

@[simp] theorem rowOf_opcode (op : Opcode) : (rowOf op).opcode = op := by cases op <;> rfl

/-- The row of an opcode admits exactly the packets that decode to a command of that opcode. -/
theorem rowOf_admits (op : Opcode) (p : Packet) :
    (rowOf op).admits p = true ↔ ∃ i, decode p = .ok i ∧ i.opcode = op := by
  rw [admits_iff (rowOf_mem op), rowOf_opcode]
  change _ ∧ _ ∧ (rowOf op).Fits _ _ ↔ _
  rw [← exists_decodeOperands]
  constructor
  · rintro ⟨hop, hz, i, hi⟩
    obtain ⟨-, rfl⟩ := fields_of_decodeOperands hop hz hi
    exact ⟨i, (decode_eq_ok p i).mpr ⟨hop, hz, hi⟩, rfl⟩
  · rintro ⟨i, hd, rfl⟩
    obtain ⟨hop, hz, hi⟩ := (decode_eq_ok p i).mp hd
    exact ⟨hop, hz, i, hi⟩

/-- Settles O23: each row admits the packets of its opcode. -/
theorem decoderMatchesOpcodeTable : Obligations.DecoderMatchesOpcodeTable := by
  refine ⟨fun p => ⟨?_, ?_⟩, fun p i row hd hrow hadmits => ?_⟩
  · rintro ⟨i, hd⟩
    exact ⟨rowOf i.opcode, rowOf_mem _, (rowOf_admits ..).mpr ⟨i, hd, rfl⟩⟩
  · rintro ⟨row, hrow, hadmits⟩
    rw [eq_rowOf_of_mem hrow] at hadmits
    obtain ⟨i, hd, -⟩ := (rowOf_admits ..).mp hadmits
    exact ⟨i, hd⟩
  · rw [eq_rowOf_of_mem hrow] at hadmits
    obtain ⟨i', hd', hop⟩ := (rowOf_admits ..).mp hadmits
    obtain rfl := Except.ok.inj (hd.symm.trans hd')
    exact hop.symm

end Sys2Proof
end

section
/-! PROOF. Packets and terms that are no legal command (O5, O20, O24; spec R78, R80, R203), the worked encodings (O29; R84) and the
pseudo-instructions (O30; R83). -/

namespace Sys2Proof.Machine

/-- Settles O5: nothing stands between the port and the error answer but accepting the packet. -/
theorem illegalPacketAnswered : Obligations.IllegalPacketAnswered := by
  refine ⟨fun s p rest e hport he hp hd => ?port, fun s p e he hreset hp hd => ?execution⟩
  case port =>
    rw [step_of_command hport he, accepted_eq, completePacket_of_decode_error hp hd]
    rfl
  case execution =>
    rw [step_of_inExec he hreset, completePacket_of_decode_error hp hd]
    rfl

theorem whenLegal_of_not_legal {legal : Bool} (h : legal = false) (k : State → Host.Outcome State Fault Refusal) (s : State) :
    whenLegal legal k s = .next (s.afterError .illegalCommand) := by
  subst h
  rfl

/-- Settles O20: `exec` asks for a legal term before anything else. -/
theorem illFormedTermsAnswerIllegal : Obligations.IllFormedTermsAnswerIllegal := by
  intro i s hwf
  cases i with
  | parse rd text base => exact whenLegal_of_not_legal hwf (execParseLegal rd text base) s
  | divmod rd re ra b => exact whenLegal_of_not_legal hwf (execDivmodLegal rd re ra b) s
  | str ra base m =>
    exact whenLegal_of_not_legal hwf (fun s => answer false (formatText base m.toNat (s.src ra)) s) s
  | ldu | lds | ldb | ldh | ldp | ldq | eq | ne | lt | gt | le | ge | land | lor | lnot => cases hwf
  | and | or | xor | not | shl | shr | add | sub | inc | dec | neg | pos | mul | div | mod => cases hwf
  | cvt | tst | bits | exportBits | exportTrunc => cases hwf

/-- The opcode is the six most significant bits of the word (R70). -/
theorem unpack_op_toNat (w : BitVec 32) : (unpack w).op.toNat = (w >>> 26).toNat := by
  have hw := w.isLt
  simp only [unpack, BitVec.extractLsb'_toNat, BitVec.toNat_ushiftRight, Nat.shiftRight_eq_div_pow]
  omega

/-- The opcode numbers R78 leaves unassigned stand for no command. -/
theorem ofCode?_unassigned (c : BitVec 6)
    (h : c.toNat ∈ [0x00, 0x0E, 0x0F, 0x13, 0x14, 0x15, 0x16, 0x17, 0x1C, 0x1D, 0x1E, 0x1F, 0x22, 0x23, 0x24, 0x25,
      0x26, 0x27, 0x2E, 0x2F, 0x34, 0x35, 0x36, 0x37, 0x3E, 0x3F]) : Opcode.ofCode? c = none := by
  revert c; decide

theorem completePacket_of_unassigned {p : Packet} (hp : presentable p = true) (h : Opcode.ofCode? (unpack p.word).op = none)
    (s : State) : completePacket p s = .next (s.afterError .illegalCommand) := by
  have hd : decode p = .error .unassignedOpcode := by rw [decode, decodeFields, h]
  exact completePacket_of_decode_error hp hd s

theorem presentable_of_length_le {p : Packet} (h : p.payload.length ≤ 65535) : presentable p = true := by
  rw [presentable, Config.textMax]
  exact decide_eq_true h

/-- Settles O24: no command has such an opcode; the two named words have the opcodes 0x00 and 0x3F. -/
theorem unassignedOpcodesIllegal : Obligations.UnassignedOpcodesIllegal := by
  have hunassigned : ∀ (w : BitVec 32) (pl : List Byte) (s : State), Opcode.ofCode? (unpack w).op = none →
      pl.length ≤ 65535 → completePacket ⟨w, pl⟩ s = .next (s.afterError .illegalCommand) :=
    fun w pl s h hpl => completePacket_of_unassigned (p := ⟨w, pl⟩) (presentable_of_length_le hpl) h s
  refine ⟨fun w pl s hw hpl => ?_, fun pl s hpl => ⟨?_, ?_⟩⟩
  · rw [← unpack_op_toNat] at hw
    exact hunassigned w pl s (ofCode?_unassigned _ hw) hpl
  · exact hunassigned 0 pl s (by decide) hpl
  · exact hunassigned 0xFFFFFFFF pl s (by decide) hpl

/-- Settles O29: the encodings are computed, and decoding undoes them. -/
theorem workedEncodings : Obligations.WorkedEncodings := by
  have hdecode : ∀ x : Instr × Packet, x.1.wf = true ∧ encode x.1 = x.2 → decode x.2 = .ok x.1 ∧ encode x.1 = x.2 :=
    fun x ⟨hwf, hencode⟩ => ⟨hencode ▸ decode_encode hwf, hencode⟩
  intro x hx
  apply hdecode
  revert x
  decide

/-- `MOV` and `CLR` are `POS`, which writes its source to its destination (R83, R166). -/
theorem exec_pos (rd : Reg) (ra : Src) (s : State) : exec (.pos rd ra) s = .next (s.afterWrite rd (s.src ra)) := rfl

/-- Settles O30. -/
theorem pseudoInstructions : Obligations.PseudoInstructions := by
  refine ⟨fun s rd ra => exec_pos rd ra s, fun s rd => exec_pos rd .zero s, fun rd b => ?_, fun ra => rfl⟩
  exact ⟨rfl, rfl, rfl, rfl, rfl, rfl, rfl, rfl, rfl, rfl, rfl, rfl⟩

end Sys2Proof.Machine
end

section
/-! PROOF. The multiplier of R172 (spec R170 to R173): ten of the sixteen products of quarter-limbs, cut into halves and summed in
slots of weight `2^64`, are the product of the integers mod `2^256`. -/

namespace Sys2Proof.Machine

/-- The low half of a partial product, in an accumulation slot (R172). -/
def partialLo (p q : Quarter) : Limb := slotTerm (lo64 (lMul64 p q))

/-- The high half of a partial product, in an accumulation slot (R172). -/
def partialHi (p q : Quarter) : Limb := slotTerm (hi64 (lMul64 p q))

/-- The four slots as one value: what does not fit a slot's quarter-limb goes on to the next, and out of the last nowhere (R172). -/
def carrySlots (s0 s1 s2 s3 : Limb) : U256 :=
  let t2 := s2 + slotTerm (hi64 s1)
  let t3 := s3 + slotTerm (hi64 t2)
  ⟨lFromHalves (lo64 t3) (lo64 t2), lFromHalves (lo64 s1) (lo64 s0)⟩

/-- The sum of the entries of a slot. -/
def slotSum (x : Limb) (l : List Limb) : Limb := l.foldl (· + ·) x

/-- The multiplier is its ten kept partial products, summed in four slots and carried from slot to slot. -/
theorem uMul_eq_carrySlots (a b : U256) :
    uMul a b =
      let a3 := hi64 a.upper; let a2 := lo64 a.upper; let a1 := hi64 a.lower; let a0 := lo64 a.lower
      let b3 := hi64 b.upper; let b2 := lo64 b.upper; let b1 := hi64 b.lower; let b0 := lo64 b.lower
      carrySlots (partialLo a0 b0)
        (slotSum (partialHi a0 b0) [partialLo a0 b1, partialLo a1 b0])
        (slotSum (partialHi a0 b1) [partialHi a1 b0, partialLo a0 b2, partialLo a1 b1, partialLo a2 b0])
        (slotSum (partialHi a0 b2) [partialHi a1 b1, partialHi a2 b0, partialLo a0 b3, partialLo a1 b2,
          partialLo a2 b1, partialLo a3 b0]) := rfl

theorem slotTerm_toNat (q : Quarter) : (slotTerm q).toNat = q.toNat := by
  have hq := q.isLt
  rw [slotTerm, BitVec.toNat_setWidth]
  exact Nat.mod_eq_of_lt (by omega)

theorem partialLo_toNat (p q : Quarter) : (partialLo p q).toNat = p.toNat * q.toNat % 2 ^ 64 := by
  rw [partialLo, slotTerm_toNat, lo64_toNat, lMul64_toNat]

theorem partialHi_toNat (p q : Quarter) : (partialHi p q).toNat = p.toNat * q.toNat / 2 ^ 64 := by
  rw [partialHi, slotTerm_toNat, hi64_toNat, lMul64_toNat]

/-- A slot's entry before anything is summed: it fits a quarter-limb. -/
def FitsQuarter (x : Limb) : Prop := x.toNat < 2 ^ 64

@[simp] theorem partialLo_fits (p q : Quarter) : FitsQuarter (partialLo p q) := by
  rw [FitsQuarter, partialLo, slotTerm_toNat]
  exact (lo64 _).isLt

@[simp] theorem partialHi_fits (p q : Quarter) : FitsQuarter (partialHi p q) := by
  rw [FitsQuarter, partialHi, slotTerm_toNat]
  exact (hi64 _).isLt

theorem slotSum_toNat_of_room {x : Limb} {l : List Limb} (hx : x.toNat + 2 ^ 64 * l.length < 2 ^ 127)
    (hl : ∀ y ∈ l, FitsQuarter y) :
    (slotSum x l).toNat = x.toNat + (l.map BitVec.toNat).sum ∧ (slotSum x l).toNat < 2 ^ 127 := by
  induction l generalizing x with
  | nil => exact ⟨rfl, hx⟩
  | cons y l ih =>
    obtain ⟨hy, hl⟩ := List.forall_mem_cons.mp hl
    rw [FitsQuarter] at hy
    rw [List.length_cons] at hx
    have hadd : (x + y).toNat = x.toNat + y.toNat := BitVec.toNat_add_of_lt (by omega)
    obtain ⟨hsum, hroom⟩ := ih (x := x + y) (by omega) hl
    refine ⟨hsum.trans ?_, hroom⟩
    rw [hadd, List.map_cons, List.sum_cons, Nat.add_assoc]

/-- A slot has at most seven entries: they do not overflow it, and leave room for a carry (R172). -/
theorem slotSum_toNat {x : Limb} {l : List Limb} (hlen : l.length ≤ 6) (hfits : ∀ y ∈ x :: l, FitsQuarter y) :
    (slotSum x l).toNat = x.toNat + (l.map BitVec.toNat).sum ∧ (slotSum x l).toNat < 2 ^ 127 := by
  obtain ⟨hx, hl⟩ := List.forall_mem_cons.mp hfits
  rw [FitsQuarter] at hx
  exact slotSum_toNat_of_room (by omega) hl

/-- Carrying keeps the weighted sum of the slots, as long as slot 0 is one quarter-limb and slot 2 has room for a carry. -/
theorem carrySlots_val {s0 s1 s2 s3 : Limb} (h0 : FitsQuarter s0) (h2 : s2.toNat < 2 ^ 127) :
    (carrySlots s0 s1 s2 s3).val =
      (s3.toNat * 2 ^ 192 + s2.toNat * 2 ^ 128 + s1.toNat * 2 ^ 64 + s0.toNat) % 2 ^ 256 := by
  have h1 := s1.isLt
  rw [FitsQuarter] at h0
  simp only [carrySlots, U256.val, lFromHalves_toNat, lo64_toNat, hi64_toNat, BitVec.toNat_add, slotTerm_toNat]
  omega

/-- A value as the weighted sum of its quarter-limbs (R6). -/
theorem val_eq_quarters (a : U256) :
    a.val = (hi64 a.upper).toNat * 2 ^ 192 + (lo64 a.upper).toNat * 2 ^ 128 +
      (hi64 a.lower).toNat * 2 ^ 64 + (lo64 a.lower).toNat := by
  simp only [U256.val, lo64_toNat, hi64_toNat]
  omega

/-- Long multiplication in four digits of base `w`: below `w^4` only the ten products of weight at most `w^3` count, and of those
of weight `w^3` only the low halves. -/
theorem four_digit_product (w a0 a1 a2 a3 b0 b1 b2 b3 : Nat) :
    (a3 * w ^ 3 + a2 * w ^ 2 + a1 * w + a0) * (b3 * w ^ 3 + b2 * w ^ 2 + b1 * w + b0) ≡
      (a0 * b2 / w + a1 * b1 / w + a2 * b0 / w + a0 * b3 % w + a1 * b2 % w + a2 * b1 % w + a3 * b0 % w) * w ^ 3 +
      (a0 * b1 / w + a1 * b0 / w + a0 * b2 % w + a1 * b1 % w + a2 * b0 % w) * w ^ 2 +
      (a0 * b0 / w + a0 * b1 % w + a1 * b0 % w) * w + a0 * b0 % w [MOD w ^ 4] := by
  have hsplit (p q : Nat) : p * q = w * (p * q / w) + p * q % w := (Nat.div_add_mod _ _).symm
  -- what the multiplier drops, all of it of weight `w^4` and above
  have hdropped := Nat.mul_add_mod (w ^ 4) (a0 * b3 / w + a1 * b2 / w + a2 * b1 / w + a3 * b0 / w +
    (a1 * b3 + a2 * b2 + a3 * b1) + (a2 * b3 + a3 * b2) * w + a3 * b3 * w ^ 2)
  refine (congrArg (· % w ^ 4) ?_).trans (hdropped _)
  linear_combination hsplit a0 b0 + w * (hsplit a0 b1 + hsplit a1 b0) +
    w ^ 2 * (hsplit a0 b2 + hsplit a1 b1 + hsplit a2 b0) +
    w ^ 3 * (hsplit a0 b3 + hsplit a1 b2 + hsplit a2 b1 + hsplit a3 b0)

/-- `val(mul(a, b)) = val(a) * val(b) mod 2^256` (R170, R173). -/
theorem uMul_val (a b : U256) : (uMul a b).val = a.val * b.val % 2 ^ 256 := by
  rw [uMul_eq_carrySlots, val_eq_quarters a, val_eq_quarters b]
  generalize hi64 a.upper = a3, lo64 a.upper = a2, hi64 a.lower = a1, lo64 a.lower = a0,
    hi64 b.upper = b3, lo64 b.upper = b2, hi64 b.lower = b1, lo64 b.lower = b0
  obtain ⟨h1, -⟩ := slotSum_toNat (x := partialHi a0 b0) (l := [partialLo a0 b1, partialLo a1 b0]) (by simp) (by simp)
  obtain ⟨h2, hroom⟩ := slotSum_toNat (x := partialHi a0 b1)
    (l := [partialHi a1 b0, partialLo a0 b2, partialLo a1 b1, partialLo a2 b0]) (by simp) (by simp)
  obtain ⟨h3, -⟩ := slotSum_toNat (x := partialHi a0 b2)
    (l := [partialHi a1 b1, partialHi a2 b0, partialLo a0 b3, partialLo a1 b2, partialLo a2 b1, partialLo a3 b0])
    (by simp) (by simp)
  rw [carrySlots_val (partialLo_fits a0 b0) hroom, h1, h2, h3]
  have hproduct := four_digit_product (2 ^ 64) a0.toNat a1.toNat a2.toNat a3.toNat b0.toNat b1.toNat b2.toNat b3.toNat
  simp only [← pow_mul] at hproduct
  simp only [List.map_cons, List.map_nil, List.sum_cons, List.sum_nil, partialLo_toNat, partialHi_toNat]
  rw [hproduct]
  exact congrArg (· % 2 ^ 256) (by ring)

end Sys2Proof.Machine
end

section
/-! PROOF. The load commands (O31 to O33, O35; spec R100 to R106, R190, C4). -/

namespace Sys2Proof.Machine

/-! ### Integers (R101 to R104) -/

theorem val_mk (u l : Limb) : U256.val ⟨u, l⟩ = u.toNat * 2 ^ 128 + l.toNat := rfl

theorem val_of_upper_zero (l : Limb) : U256.val ⟨0, l⟩ = l.toNat := by
  simp [val_mk]

theorem val_setWidth {w : Nat} (hw : w ≤ 128) (n : BitVec w) : U256.val ⟨0, n.setWidth 128⟩ = n.toNat := by
  rw [val_of_upper_zero, BitVec.toNat_setWidth_of_le hw]

theorem nativeUnsigned_val (n : Native) : (nativeUnsigned n).val = n.unsigned := by
  cases n with
  | w8 n | w16 n | w32 n | w64 n => exact val_setWidth (by decide) n

theorem booleanValue_val (t : Bool) : (booleanValue t).val = if t then 1 else 0 := by cases t <;> rfl

/-- Settles O31. -/
theorem lduLdbLdhResults : Obligations.LduLdbLdhResults :=
  ⟨fun _ n _ => ⟨nativeUnsigned n, nativeUnsigned_val n, rfl⟩,
    fun _ t _ => ⟨booleanValue t, booleanValue_val t, rfl⟩,
    fun _ h _ => ⟨⟨0, h⟩, rfl, rfl, rfl⟩⟩

/-- A lower limb whose sign fills the upper limb is its signed number mod `2^256` (R102, C4). -/
theorem val_signLimb (l : Limb) : (U256.val ⟨signLimb l.msb, l⟩ : Int) = l.toInt % 2 ^ 256 := by
  have hl := l.isLt
  rw [BitVec.toInt_eq_msb_cond, signLimb, val_mk]
  have hzero : (0 : Limb).toNat = 0 := rfl
  split
  · rw [BitVec.toNat_allOnes]
    omega
  · rw [hzero]
    omega

/-- Sign extension to a limb keeps the signed number, and with it the sign (R19, R102). -/
theorem val_signExtend {w : Nat} (hw : w ≤ 128) (n : BitVec w) :
    (U256.val ⟨signLimb n.msb, n.signExtend 128⟩ : Int) = n.toInt % 2 ^ 256 := by
  have hint : (n.signExtend 128).toInt = n.toInt := BitVec.toInt_signExtend_of_le hw
  have hmsb : n.msb = (n.signExtend 128).msb := by rw [BitVec.msb_eq_toInt, BitVec.msb_eq_toInt, hint]
  rw [hmsb, val_signLimb, hint]

theorem nativeSigned_val (n : Native) : ((nativeSigned n).val : Int) = n.signed % 2 ^ 256 := by
  cases n with
  | w8 n | w16 n | w32 n | w64 n => exact val_signExtend (by decide) n

theorem signLimb_msb {w : Nat} (n : BitVec w) : signLimb n.msb = if n.toInt < 0 then BitVec.allOnes 128 else 0 := by
  rw [BitVec.msb_eq_toInt]
  simp only [signLimb, decide_eq_true_eq]

theorem nativeSigned_upper (n : Native) :
    (nativeSigned n).upper = if n.signed < 0 then BitVec.allOnes 128 else 0 := by
  cases n with
  | w8 n | w16 n | w32 n | w64 n => exact signLimb_msb n

/-- Settles O32. -/
theorem ldsResult : Obligations.LdsResult :=
  fun _ n _ => ⟨nativeSigned n, nativeSigned_val n, nativeSigned_upper n, rfl⟩

/-! ### Parts (R105, R106, R190) -/

/-- Settles O33. -/
theorem ldpLdqResults : Obligations.LdpLdqResults :=
  ⟨fun _ u l _ => ⟨⟨u, l⟩, rfl, rfl, rfl⟩,
    fun _ q3 q2 q1 q0 _ => ⟨quarterValue q3 q2 q1 q0, quarterValue_val q3 q2 q1 q0, rfl⟩⟩

/-- The two limbs of an exported image are the value itself: both denote the same 256-bit number (R190). -/
theorem limbAt_exportData (a : U256) : (⟨limbAt (exportData a) 0, limbAt (exportData a) 16⟩ : U256) = a :=
  U256.val_inj.mp ((limbAt_val (exportData_length a)).trans (be_exportData a))

/-- Settles O35: every 32-byte payload decodes, and the image has 32 bytes. -/
theorem ldpRestoresExport : Obligations.LdpRestoresExport := by
  intro ra rd s s'
  have hwrite (u l : Limb) : exec (.ldp rd u l) s' = .next (s'.afterWrite rd ⟨u, l⟩) := rfl
  refine ⟨exportData (s.src ra), _, rfl, decode_ldp rd (exportData_length _), ?_⟩
  rw [hwrite, limbAt_exportData]

end Sys2Proof.Machine
end

section
/-! PROOF. The radix converter (O36, O37, O39; spec R107 to R110, R189). -/

namespace Sys2Proof.Machine

/-! ### Digits and characters (R108, R189) -/

/-- Settles O36: the three ranges are disjoint, so `digit` tests them in any order. -/
theorem digitValues : Obligations.DigitValues := by
  intro c
  refine ⟨fun h => ?_, fun h => ?_, fun h => ?_, fun ⟨h0, h1, h2⟩ => ?_⟩ <;> unfold digit
  · rw [if_pos h]
  · rw [if_neg (by omega), if_pos h]
  · rw [if_neg (by omega), if_neg (by omega), if_pos h]
  · rw [if_neg h0, if_neg h1, if_neg h2]

/-- A digit's character has that digit's value, and is no upper-case letter (R108, R189). -/
theorem digit_dchar : ∀ {d : Nat}, d < 36 → digit (dchar d) = some d := by decide

theorem dchar_not_upper : ∀ {d : Nat}, d < 36 → ¬(0x41 ≤ (dchar d).toNat ∧ (dchar d).toNat ≤ 0x5A) := by decide

/-- A character with its case folded to upper (R108). -/
def toUpper (c : Byte) : Byte := if 0x61 ≤ c.toNat ∧ c.toNat ≤ 0x7A then c - 0x20 else c

/-- The two cases of a letter have the same digit value (R108). -/
theorem digit_toUpper : ∀ c : Byte, digit (toUpper c) = digit c := by decide

/-! ### Horner evaluation (R107, R109) -/

theorem fromNat_val_of_lt {n : Nat} (h : n < 2 ^ 256) : (U256.fromNat n).val = n :=
  (U256.val_fromNat n).trans (Nat.mod_eq_of_lt h)

/-- One Horner step on a legal digit. -/
theorem hornerStep_of_digit {base d : Nat} {c : Byte} (hc : digit c = some d) (hd : d < base) (hbase : base ≤ 36)
    (v : U256) :
    ∃ w, hornerStep base v c = some w ∧ w.val ≡ v.val * base + d [MOD 2 ^ 256] := by
  refine ⟨uAdd (uMul v (.fromNat base)) (.fromNat d), by simp [hornerStep, hc, hd], ?_⟩
  rw [uAdd_val, uMul_val, fromNat_val_of_lt (by omega), fromNat_val_of_lt (by omega)]
  exact (Nat.mod_modEq _ _).trans ((Nat.mod_modEq _ _).add_right d)

/-- Horner evaluation from `v` on: `v` moves up by the number of digits, and their value comes below it. -/
theorem horner_of_digits {base : Nat} (hbase : base ≤ 36) {text : List Byte} {ds : List Nat}
    (htext : text.map digit = ds.map some) (hds : ∀ d ∈ ds, d < base) (v : U256) :
    ∃ w, horner base v text = some w ∧
      w.val ≡ v.val * base ^ ds.length + Nat.ofDigits base ds.reverse [MOD 2 ^ 256] := by
  induction ds generalizing text v with
  | nil =>
    obtain rfl : text = [] := by simpa using htext
    exact ⟨v, rfl, by simp [Nat.ModEq]⟩
  | cons d ds ih =>
    obtain ⟨c, text, rfl, hc, htext⟩ := List.map_eq_cons_iff.mp htext
    obtain ⟨hd, hds⟩ := List.forall_mem_cons.mp hds
    obtain ⟨v', hstep, hv'⟩ := hornerStep_of_digit hc hd hbase v
    obtain ⟨w, hrun, hw⟩ := ih htext hds v'
    refine ⟨w, by rw [horner, hstep, ← hrun], hw.trans (((hv'.mul_right _).add_right _).trans ?_)⟩
    rw [List.reverse_cons, Nat.ofDigits_append, Nat.ofDigits_singleton, List.length_reverse, List.length_cons]
    exact congrArg (· % 2 ^ 256) (by ring)

/-- A text of legal digits has their value in the base, mod `2^256` (R109). -/
theorem parseText_of_digits {base : Nat} (hbase : base ≤ 36) {text : List Byte} {ds : List Nat}
    (htext : text.map digit = ds.map some) (hds : ∀ d ∈ ds, d < base) :
    ∃ v, parseText base text = some v ∧ v.val = Nat.ofDigits base ds.reverse % 2 ^ 256 := by
  obtain ⟨v, hrun, hv⟩ := horner_of_digits hbase htext hds .ZERO
  rw [U256.val_ZERO, Nat.zero_mul, Nat.zero_add] at hv
  exact ⟨v, hrun, (Nat.mod_eq_of_lt v.val_lt).symm.trans hv⟩

theorem parse_wf {base : Nat} (h2 : 2 ≤ base) (h36 : base ≤ 36) (rd : Reg) {text : List Byte} (hlen : text.length ≤ 65535) :
    (Instr.parse rd text base).wf = true := decide_eq_true ⟨⟨h2, h36⟩, hlen⟩

/-- A legal `PARSE` of a text that has a value writes it (R107). -/
theorem exec_parse {base : Nat} {text : List Byte} {v : U256} {rd : Reg} (hwf : (Instr.parse rd text base).wf = true)
    (hv : parseText base text = some v) (s : State) : exec (.parse rd text base) s = .next (s.afterWrite rd v) := by
  change execParse rd text base s = _
  rw [execParse, hwf, whenLegal_true, execParseLegal, hv]
  rfl

/-- Settles O37. -/
theorem parseClosedForm : Obligations.ParseClosedForm := by
  intro rd text base ds s h2 h36 hlen htext hds
  obtain ⟨v, hparse, hv⟩ := parseText_of_digits h36 htext hds
  exact ⟨v, hv, exec_parse (parse_wf h2 h36 rd hlen) hparse s⟩

/-! ### Formatting (R189) -/

/-- Dividing by a base leaves a digit, which is in the lower limb (R176, R189). -/
theorem uDivmod_base {base : Nat} (h2 : 2 ≤ base) (h36 : base ≤ 36) (v : U256) :
    ∃ q r, uDivmod v (.fromNat base) = some (q, r) ∧ q.val = v.val / base ∧ r.lower.toNat = v.val % base := by
  have hbase : (U256.fromNat base).val = base := fromNat_val_of_lt (by omega)
  obtain ⟨q, r, hdivmod, hq, hr⟩ := uDivmod_eq_some v (.fromNat base) (by omega)
  rw [hbase] at hq hr
  refine ⟨q, r, hdivmod, hq, ?_⟩
  have hlt := Nat.mod_lt v.val (by omega : base > 0)
  rw [← hr] at hlt ⊢
  simp only [U256.val] at hlt ⊢
  omega

/-- Each pass at least halves the value, so the digit loop comes to zero before its bound and spells the value's digits, the least
significant first (R189, R229). -/
theorem digitsLoop_eq {base : Nat} (h2 : 2 ≤ base) (h36 : base ≤ 36) {fuel : Nat} {v : U256} (hv : v.val < 2 ^ fuel) :
    digitsLoop base fuel v = (Nat.digits base v.val).map dchar := by
  induction fuel generalizing v with
  | zero =>
    have hzero : v.val = 0 := by omega
    rw [hzero, Nat.digits_zero, List.map_nil, digitsLoop]
  | succ fuel ih =>
    by_cases hzero : v.val = 0
    · have hnz : ¬uNonzero v = true := fun h => (uNonzero_iff v).mp h hzero
      rw [digitsLoop, if_neg hnz, hzero, Nat.digits_zero, List.map_nil]
    · obtain ⟨q, r, hdivmod, hq, hr⟩ := uDivmod_base h2 h36 v
      have hhalf : q.val < 2 ^ fuel := by
        rw [hq]
        exact Nat.div_lt_of_lt_mul (hv.trans_le (by rw [Nat.pow_succ']; exact Nat.mul_le_mul_right _ h2))
      rw [digitsLoop, if_pos ((uNonzero_iff v).mpr hzero), hdivmod, Nat.digits_def' h2 (Nat.pos_of_ne_zero hzero),
        List.map_cons, ← hq, ← hr, ← ih hhalf]

/-- The text is the characters of digits below the base, the most significant first, and `n` is their value. -/
def Spells (base : Nat) (text : List Byte) (n : Nat) : Prop :=
  ∃ ds : List Nat, text = ds.map dchar ∧ (∀ d ∈ ds, d < base) ∧ Nat.ofDigits base ds.reverse = n

/-- The digits of a value spell it; zero has the one digit 0 (R189, D16). -/
theorem digitsOf_spells {base : Nat} (h2 : 2 ≤ base) (h36 : base ≤ 36) (a : U256) : Spells base (digitsOf base a) a.val := by
  unfold digitsOf
  split
  · refine ⟨(Nat.digits base a.val).reverse, ?_, fun d hd => ?_, ?_⟩
    · rw [digitsLoop_eq h2 h36 a.val_lt, List.map_reverse]
    · exact Nat.digits_lt_base h2 (List.mem_reverse.mp hd)
    · rw [List.reverse_reverse, Nat.ofDigits_digits]
  · next hzero =>
    have hval : a.val = 0 := by rwa [uNonzero_iff, not_not] at hzero
    refine ⟨[0], rfl, List.forall_mem_singleton.mpr (by omega), ?_⟩
    rw [hval, List.reverse_singleton, Nat.ofDigits_singleton]

/-- Zeros before a text do not change what it spells. -/
theorem Spells.pad {base n : Nat} {text : List Byte} (hbase : 2 ≤ base) (h : Spells base text n) (k : Nat) :
    Spells base (List.replicate k zeroChar ++ text) n := by
  obtain ⟨ds, rfl, hds, hval⟩ := h
  refine ⟨List.replicate k 0 ++ ds, ?_, fun d hd => ?_, ?_⟩
  · rw [List.map_append, List.map_replicate]
    rfl
  · rcases List.mem_append.mp hd with hpad | hd
    · rw [List.eq_of_mem_replicate hpad]
      omega
    · exact hds d hd
  · rw [List.reverse_append, List.reverse_replicate, Nat.ofDigits_append_replicate_zero, hval]

/-- The formatted text spells the value, whatever the minimum length (R189). -/
theorem formatText_spells {base : Nat} (h2 : 2 ≤ base) (h36 : base ≤ 36) (m : Nat) (a : U256) :
    Spells base (formatText base m a) a.val :=
  (digitsOf_spells h2 h36 a).pad h2 _

/-! ### There and back (R110) -/

/-- `PARSE` reads back what a text spells (R109, R110). -/
theorem Spells.parseText_eq {base n : Nat} {text : List Byte} (h36 : base ≤ 36) (h : Spells base text n) :
    ∃ v, parseText base text = some v ∧ v.val = n % 2 ^ 256 := by
  obtain ⟨ds, rfl, hds, rfl⟩ := h
  have hdigits : (ds.map dchar).map digit = ds.map some := by
    rw [List.map_map]
    exact List.map_congr_left fun d hd => digit_dchar ((hds d hd).trans_le h36)
  exact parseText_of_digits h36 hdigits hds

theorem Spells.not_upper {base n : Nat} {text : List Byte} (h36 : base ≤ 36) (h : Spells base text n) :
    ∀ c ∈ text, ¬(0x41 ≤ c.toNat ∧ c.toNat ≤ 0x5A) := by
  obtain ⟨ds, rfl, hds, -⟩ := h
  exact List.forall_mem_map.mpr fun d hd => dchar_not_upper ((hds d hd).trans_le h36)

/-- Parsing a formatted value gives back the value itself, since it is below `2^256` (R110). -/
theorem parseText_formatText {base : Nat} (h2 : 2 ≤ base) (h36 : base ≤ 36) (m : Nat) (a : U256) :
    parseText base (formatText base m a) = some a := by
  obtain ⟨v, hparse, hv⟩ := (formatText_spells h2 h36 m a).parseText_eq h36
  rw [Nat.mod_eq_of_lt a.val_lt] at hv
  rw [hparse, U256.val_inj.mp hv]

/-- A legal `STR` answers the formatted text (R189). -/
theorem exec_str {base : Nat} (h2 : 2 ≤ base) (h36 : base ≤ 36) (ra : Src) (m : BitVec 16) (s : State) :
    exec (.str ra base m) s = .next (s.afterAnswer false (formatText base m.toNat (s.src ra))) := by
  have hwf : (Instr.str ra base m).wf = true := decide_eq_true ⟨h2, h36⟩
  change execStr ra base m s = _
  rw [execStr, hwf, whenLegal_true, answer]
  rfl

/-- A step of Horner evaluation reads a character through its digit alone, so the case of a letter does not count (R108). -/
theorem hornerStep_toUpper (base : Nat) (v : U256) (c : Byte) : hornerStep base v (toUpper c) = hornerStep base v c := by
  rw [hornerStep, hornerStep, digit_toUpper]

theorem horner_map_toUpper (base : Nat) (v : U256) (text : List Byte) :
    horner base v (text.map toUpper) = horner base v text := by
  induction text generalizing v with
  | nil => rfl
  | cons c text ih =>
    rw [List.map_cons, horner, horner, hornerStep_toUpper]
    cases hornerStep base v c with
    | none => rfl
    | some w => exact ih w

/-- `PARSE` takes both cases, whether the text is legal or not (R110). -/
theorem exec_parse_map_toUpper (rd : Reg) (base : Nat) (text : List Byte) (s : State) :
    exec (.parse rd (text.map toUpper) base) s = exec (.parse rd text base) s := by
  have hlegal : execParseLegal rd (text.map toUpper) base = execParseLegal rd text base := by
    funext s
    rw [execParseLegal, execParseLegal, parseText, horner_map_toUpper, parseText]
  have hwf : (Instr.parse rd (text.map toUpper) base).wf = (Instr.parse rd text base).wf := by
    simp only [Instr.wf, textFits, List.length_map]
  change whenLegal _ (execParseLegal rd (text.map toUpper) base) s = whenLegal _ (execParseLegal rd text base) s
  rw [hlegal, hwf]

/-- Settles O39. -/
theorem parseUndoesStr : Obligations.ParseUndoesStr := by
  refine ⟨fun ra rd base m s s' h2 h36 => ?_, exec_parse_map_toUpper⟩
  have hwf := parse_wf h2 h36 rd (formatText_fits base m (s.src ra))
  exact ⟨formatText base m.toNat (s.src ra), exec_str h2 h36 ra m s, (formatText_spells h2 h36 _ _).not_upper h36,
    exec_parse hwf (parseText_formatText h2 h36 _ _) s'⟩

end Sys2Proof.Machine
end

section
/-! PROOF. The comparison and logical commands, `TST`, and the laws of the order (O40 to O42; spec R120 to R130, R187). -/

namespace Sys2Proof.Machine

/-! ### What each flag says of the integers (R121 to R129, R187) -/

section Flags

variable (a b : U256)

theorem flagEq_iff : flagEq a b = true ↔ a.val = b.val := uEq_iff a b

theorem flagNe_eq_not : flagNe a b = !flagEq a b := rfl

theorem flagNe_iff : flagNe a b = true ↔ a.val ≠ b.val := by
  rw [flagNe_eq_not, Bool.not_eq_true', ← Bool.not_eq_true, flagEq_iff]

theorem flagLt_iff : flagLt a b = true ↔ a.val < b.val := uLt_iff a b

theorem flagGt_iff : flagGt a b = true ↔ a.val > b.val := uGt_iff a b

theorem flagLe_iff : flagLe a b = true ↔ a.val ≤ b.val := uLe_iff a b

theorem flagGe_iff : flagGe a b = true ↔ a.val ≥ b.val := uGe_iff a b

theorem flagLand_iff : flagLand a b = true ↔ a.val ≠ 0 ∧ b.val ≠ 0 := by
  rw [flagLand, Bool.and_eq_true, uNonzero_iff, uNonzero_iff]

theorem flagLor_iff : flagLor a b = true ↔ a.val ≠ 0 ∨ b.val ≠ 0 := by
  rw [flagLor, Bool.or_eq_true, uNonzero_iff, uNonzero_iff]

/-- `LNOT` is `EQ` with `ZERO` (R129). -/
theorem flagLnot_iff : flagLnot a = true ↔ a.val = 0 := uEq_iff a .ZERO

/-- `TST` is the test that `LAND` and `LOR` make of each operand (R187). -/
theorem flagTst_iff : flagTst a = true ↔ a.val ≠ 0 := uNonzero_iff a

end Flags

/-! ### The commands -/

/-- A command that answers a flag answers the truth of what the flag says, and changes nothing else (R52, R120). -/
theorem answer_of_flag_iff {flag : Bool} {p : Prop} [Decidable p] (h : flag = true ↔ p) (data : List Byte) (s : State) :
    answer flag data s = .next (s.afterAnswer (decide p) data) := by
  have hflag : flag = decide p := by rw [Bool.eq_iff_iff, h, decide_eq_true_iff]
  rw [hflag]
  rfl

/-- Settles O40. -/
theorem comparisonFlags : Obligations.ComparisonFlags :=
  fun _ _ s =>
    ⟨answer_of_flag_iff (flagEq_iff _ _) [] s, answer_of_flag_iff (flagNe_iff _ _) [] s,
      answer_of_flag_iff (flagLt_iff _ _) [] s, answer_of_flag_iff (flagGt_iff _ _) [] s,
      answer_of_flag_iff (flagLe_iff _ _) [] s, answer_of_flag_iff (flagGe_iff _ _) [] s⟩

/-- Settles O41. -/
theorem logicalFlags : Obligations.LogicalFlags :=
  fun _ _ s =>
    ⟨answer_of_flag_iff (flagLand_iff _ _) [] s, answer_of_flag_iff (flagLor_iff _ _) [] s,
      answer_of_flag_iff (flagLnot_iff _) [] s, answer_of_flag_iff (flagTst_iff _) [] s⟩

/-! ### The laws of the order (R130) -/

/-- The order of values is total: exactly one of `LT`, `EQ`, `GT` holds. -/
theorem flag_trichotomy (a b : U256) :
    (flagLt a b = true ∧ flagEq a b = false ∧ flagGt a b = false) ∨
    (flagLt a b = false ∧ flagEq a b = true ∧ flagGt a b = false) ∨
    (flagLt a b = false ∧ flagEq a b = false ∧ flagGt a b = true) := by
  simp only [← Bool.not_eq_true, flagLt_iff, flagEq_iff, flagGt_iff]
  rcases lt_trichotomy a.val b.val with hlt | heq | hgt
  · exact .inl ⟨hlt, hlt.ne, hlt.asymm⟩
  · exact .inr (.inl ⟨heq.not_lt, heq, heq.not_gt⟩)
  · exact .inr (.inr ⟨hgt.asymm, hgt.ne', hgt⟩)

theorem flagLe_eq_or (a b : U256) : flagLe a b = (flagLt a b || flagEq a b) := by
  rw [Bool.eq_iff_iff, Bool.or_eq_true, flagLe_iff, flagLt_iff, flagEq_iff]
  exact le_iff_lt_or_eq

theorem flagGe_eq_or (a b : U256) : flagGe a b = (flagGt a b || flagEq a b) := by
  rw [Bool.eq_iff_iff, Bool.or_eq_true, flagGe_iff, flagGt_iff, flagEq_iff]
  exact le_iff_lt_or_eq.trans (or_congr_right eq_comm)

theorem flagLt_trans {a b c : U256} (hab : flagLt a b = true) (hbc : flagLt b c = true) : flagLt a c = true := by
  rw [flagLt_iff] at *
  exact hab.trans hbc

/-- Settles O42. -/
theorem orderLaws : Obligations.OrderLaws :=
  ⟨flag_trichotomy, flagNe_eq_not, flagLe_eq_or, flagGe_eq_or, fun _ _ _ => flagLt_trans, flagEq_iff⟩

end Sys2Proof.Machine
end

section
/-! PROOF. The bitwise commands (O43; spec R141 to R144): each works limb by limb, and so bit by bit on the value. -/

namespace Sys2Proof.Machine

theorem vbit_mk (u l : Limb) (i : Nat) : U256.vbit ⟨u, l⟩ i = if i < 128 then l.getLsbD i else u.getLsbD (i - 128) := rfl

/-- A function of limbs that acts on each bit acts on each bit of the 256-bit value when it is applied to both limbs (R7, R140). -/
theorem val_limbwise (limbOp : Limb → Limb → Limb) {bitOp : Bool → Bool → Bool} {natOp : Nat → Nat → Nat}
    (hlimb : ∀ x y k, (limbOp x y).getLsbD k = bitOp (x.getLsbD k) (y.getLsbD k))
    (hnat : ∀ m n k, (natOp m n).testBit k = bitOp (m.testBit k) (n.testBit k)) (a b : U256) :
    U256.val ⟨limbOp a.upper b.upper, limbOp a.lower b.lower⟩ = natOp a.val b.val := by
  refine Nat.eq_of_testBit_eq fun i => ?_
  rw [hnat, ← vbit_eq_testBit, ← vbit_eq_testBit, ← vbit_eq_testBit, vbit_mk, vbit_mk, vbit_mk]
  split
  · exact hlimb a.lower b.lower i
  · exact hlimb a.upper b.upper (i - 128)

theorem uAnd_val (a b : U256) : (uAnd a b).val = a.val &&& b.val :=
  val_limbwise lAnd (fun _ _ _ => BitVec.getLsbD_and) Nat.testBit_and a b

theorem uOr_val (a b : U256) : (uOr a b).val = a.val ||| b.val :=
  val_limbwise lOr (fun _ _ _ => BitVec.getLsbD_or) Nat.testBit_or a b

theorem uXor_val (a b : U256) : (uXor a b).val = a.val ^^^ b.val :=
  val_limbwise lXor (fun _ _ _ => BitVec.getLsbD_xor) Nat.testBit_xor a b

/-- Each limb is subtracted from all ones, so nothing is borrowed from the upper limb (R144). -/
theorem uNot_val (a : U256) : (uNot a).val = 2 ^ 256 - 1 - a.val := by
  have hu := a.upper.isLt
  have hl := a.lower.isLt
  rw [uNot, val_mk, lNot_toNat, lNot_toNat, U256.val]
  omega

/-- Settles O43. -/
theorem bitwiseResults : Obligations.BitwiseResults :=
  fun _ ra b s =>
    ⟨⟨uAnd (s.src ra) (s.operandB b), uAnd_val _ _, rfl⟩, ⟨uOr (s.src ra) (s.operandB b), uOr_val _ _, rfl⟩,
      ⟨uXor (s.src ra) (s.operandB b), uXor_val _ _, rfl⟩, ⟨uNot (s.src ra), uNot_val _, rfl⟩⟩

end Sys2Proof.Machine
end

section
/-! PROOF. The shift commands (O44 to O46; spec R150 to R156, C2): the limb that bits cross into is 128 consecutive bits of the whole
value. -/

namespace Sys2Proof.Machine

/-! ### The two limbs of a number -/

theorem val_div_two_pow_128 (a : U256) : a.val / 2 ^ 128 = a.upper.toNat := by
  have hl := a.lower.isLt
  rw [U256.val]
  omega

theorem val_mod_two_pow_128 (a : U256) : a.val % 2 ^ 128 = a.lower.toNat := by
  have hl := a.lower.isLt
  rw [U256.val]
  omega

/-- A value whose limbs are the two halves of a number is that number mod `2^256`. -/
theorem val_of_halves {v : U256} {n : Nat} (hu : v.upper.toNat = n / 2 ^ 128 % 2 ^ 128) (hl : v.lower.toNat = n % 2 ^ 128) :
    v.val = n % 2 ^ 256 := by
  rw [U256.val, hu, hl]
  omega

theorem lOr_comm (x y : Limb) : lOr x y = lOr y x := BitVec.or_comm x y

/-- Two limbs shifted against each other by amounts that sum to 128, as R153 and R154 do it, give the 128 bits of the value that
begin at bit `m`. -/
theorem funnel_toNat (a : U256) {n m : Fin 128} (hnm : n.val + m.val = 128) :
    (lOr (lShl a.upper n) (lShr a.lower m)).toNat = a.val / 2 ^ m.val % 2 ^ 128 := by
  have hpow : 2 ^ 128 = 2 ^ n.val * 2 ^ m.val := by rw [← Nat.pow_add, hnm]
  have hlow : a.lower.toNat / 2 ^ m.val < 2 ^ n.val :=
    Nat.div_lt_of_lt_mul (by rw [Nat.mul_comm, ← hpow]; exact a.lower.isLt)
  have hup : a.upper.toNat * 2 ^ n.val % 2 ^ 128 = 2 ^ n.val * (a.upper.toNat % 2 ^ m.val) := by
    rw [hpow, Nat.mul_comm, Nat.mul_mod_mul_left]
  have hdiv : a.val / 2 ^ m.val = 2 ^ n.val * a.upper.toNat + a.lower.toNat / 2 ^ m.val := by
    rw [U256.val, hpow, ← Nat.mul_assoc, Nat.mul_comm _ (2 ^ m.val), Nat.mul_add_div (Nat.two_pow_pos _), Nat.mul_comm]
  have hmod : a.val / 2 ^ m.val % 2 ^ 128 = 2 ^ n.val * (a.upper.toNat % 2 ^ m.val) + a.lower.toNat / 2 ^ m.val := by
    rw [hdiv, hpow, Nat.mod_mul, Nat.mul_add_mod, Nat.mod_eq_of_lt hlow, Nat.mul_add_div (Nat.two_pow_pos _),
      Nat.div_eq_of_lt hlow, Nat.add_zero, Nat.add_comm]
  rw [lOr_toNat, lShl_toNat, lShr_toNat, hup, or_eq_add_of_dvd (Nat.dvd_mul_right ..) hlow, hmod]

/-! ### The amount (R150, R155) -/

/-- A shift that gives zero for a big amount, and for any other a function of its low byte, gives that function of the whole amount
when it is below 256 (R150). -/
theorem shift_val {v b : U256} {f : Nat → Nat} (hbig : shiftBig b = true → v = ⟨0, 0⟩)
    (hsmall : ¬shiftBig b = true → v.val = f (shiftAmount b)) : v.val = if b.val < 256 then f b.val else 0 := by
  by_cases hb : shiftBig b = true
  · rw [if_neg (not_lt.mpr ((shiftBig_iff b).mp hb)), hbig hb]
    rfl
  · rw [if_pos (not_le.mp (mt (shiftBig_iff b).mpr hb)), hsmall hb, shiftBig_false (Bool.eq_false_iff.mpr hb)]

theorem uShl_of_big {b : U256} (hb : shiftBig b = true) (a : U256) : uShl a b = ⟨0, 0⟩ := if_pos hb

theorem uShr_of_big {b : U256} (hb : shiftBig b = true) (a : U256) : uShr a b = ⟨0, 0⟩ := if_pos hb

/-! ### Shift left (R153) -/

/-- The low 128 bits of a left shift come from the lower limb alone. -/
theorem lShl_lower_toNat (a : U256) (n : Fin 128) : (lShl a.lower n).toNat = a.val * 2 ^ n.val % 2 ^ 128 := by
  rw [lShl_toNat, ← val_mod_two_pow_128, Nat.mod_mul_mod]

/-- Shifted left by 128 or more, a value has nothing in its lower limb. -/
theorem val_of_shl_into_upper {a : U256} {x : Limb} {n : Nat} (hn : 128 ≤ n)
    (hx : x.toNat = a.val * 2 ^ (n - 128) % 2 ^ 128) : U256.val ⟨x, 0⟩ = a.val * 2 ^ n % 2 ^ 256 := by
  have hsplit : a.val * 2 ^ n = a.val * 2 ^ (n - 128) * 2 ^ 128 := by rw [Nat.mul_assoc, ← Nat.pow_add, Nat.sub_add_cancel hn]
  rw [hsplit]
  refine val_of_halves ?_ ?_
  · rw [hx, Nat.mul_div_cancel _ (Nat.two_pow_pos _)]
  · exact (Nat.mul_mod_left ..).symm

/-- The four arms of R153 for an amount below 256 compute one product. -/
theorem uShl_val_of_not_big {b : U256} (hb : ¬shiftBig b = true) (a : U256) :
    (uShl a b).val = a.val * 2 ^ shiftAmount b % 2 ^ 256 := by
  simp only [uShl, if_neg hb]
  split
  · next hzero => rw [hzero, Nat.pow_zero, Nat.mul_one, Nat.mod_eq_of_lt a.val_lt]
  split
  · next hlimb =>
    refine val_of_shl_into_upper hlimb.ge ?_
    rw [hlimb, Nat.sub_self, Nat.pow_zero, Nat.mul_one, val_mod_two_pow_128]
  split
  · next hlt =>
    have hpow : 2 ^ 128 = 2 ^ (128 - shiftAmount b) * 2 ^ shiftAmount b := by
      rw [← Nat.pow_add, Nat.sub_add_cancel hlt.le]
    have hdiv : a.val * 2 ^ shiftAmount b / 2 ^ 128 = a.val / 2 ^ (128 - shiftAmount b) := by
      rw [hpow, Nat.mul_div_mul_right _ _ (Nat.two_pow_pos _)]
    refine val_of_halves ?_ (lShl_lower_toNat a _)
    rw [funnel_toNat a (Nat.add_sub_cancel' hlt.le), hdiv]
  · next hge => exact val_of_shl_into_upper (not_lt.mp hge) (lShl_lower_toNat a _)

theorem uShl_val (a b : U256) : (uShl a b).val = if b.val < 256 then a.val * 2 ^ b.val % 2 ^ 256 else 0 :=
  shift_val (f := fun n => a.val * 2 ^ n % 2 ^ 256) (uShl_of_big · a) (uShl_val_of_not_big · a)

/-! ### Shift right (R154) -/

/-- Shifted right by 128 or more, a value has nothing in its upper limb. -/
theorem val_of_shr_into_lower {a : U256} {x : Limb} {n : Nat} (hn : 128 ≤ n)
    (hx : x.toNat = a.upper.toNat / 2 ^ (n - 128)) : U256.val ⟨0, x⟩ = a.val / 2 ^ n := by
  rw [val_of_upper_zero, hx, ← val_div_two_pow_128, Nat.div_div_eq_div_mul, ← Nat.pow_add, Nat.add_sub_cancel' hn]

/-- The four arms of R154 for an amount below 256 compute one quotient. -/
theorem uShr_val_of_not_big {b : U256} (hb : ¬shiftBig b = true) (a : U256) :
    (uShr a b).val = a.val / 2 ^ shiftAmount b := by
  simp only [uShr, if_neg hb]
  split
  · next hzero => rw [hzero, Nat.pow_zero, Nat.div_one]
  split
  · next hlimb =>
    refine val_of_shr_into_lower hlimb.ge ?_
    rw [hlimb, Nat.sub_self, Nat.pow_zero, Nat.div_one]
  split
  · next hlt =>
    rw [val_mk, lOr_comm, funnel_toNat a (Nat.sub_add_cancel hlt.le), lShr_toNat, ← val_div_two_pow_128,
      Nat.div_div_eq_div_mul, Nat.mul_comm (2 ^ 128), ← Nat.div_div_eq_div_mul, Nat.div_add_mod']
  · next hge => exact val_of_shr_into_lower (not_lt.mp hge) (lShr_toNat a.upper _)

theorem uShr_val (a b : U256) : (uShr a b).val = if b.val < 256 then a.val / 2 ^ b.val else 0 :=
  shift_val (f := fun n => a.val / 2 ^ n) (uShr_of_big · a) (uShr_val_of_not_big · a)

/-! ### The commands -/

theorem exec_shl (rd : Reg) (ra : Src) (b : OperandB) (s : State) :
    exec (.shl rd ra b) s = .next (s.afterWrite rd (uShl (s.src ra) (s.operandB b))) := rfl

theorem exec_shr (rd : Reg) (ra : Src) (b : OperandB) (s : State) :
    exec (.shr rd ra b) s = .next (s.afterWrite rd (uShr (s.src ra) (s.operandB b))) := rfl

/-- Settles O44, from the value of the datapath's left shift. -/
theorem shlResult : Obligations.ShlResult :=
  fun rd ra b s => ⟨_, uShl_val _ _, exec_shl rd ra b s⟩

/-- Settles O45, from the value of the datapath's right shift. -/
theorem shrResult : Obligations.ShrResult :=
  fun rd ra b s => ⟨_, uShr_val _ _, exec_shr rd ra b s⟩

/-- Settles O46: from 256 on the amount is big, whatever its low byte. -/
theorem shiftsSaturate : Obligations.ShiftsSaturate := by
  intro rd ra b s h
  have hb := (shiftBig_iff _).mpr h
  rw [exec_shl, exec_shr, uShl_of_big hb, uShr_of_big hb]
  exact ⟨rfl, rfl⟩

end Sys2Proof.Machine
end

section
/-! PROOF. The additive commands (O47, O48; spec R160 to R166): each writes the sum or the difference of the adder, whose dropped
carry or borrow is the reduction mod `2^256`. -/

namespace Sys2Proof.Machine

/-! ### The difference as an integer (R162, R164, R165) -/

/-- The dropped borrow is one `2^256`, so the difference is that of the integers mod `2^256`, below zero too (R160, R162). -/
theorem uSub_val_int (a b : U256) : ((uSub a b).val : Int) = ((a.val : Int) - (b.val : Int)) % 2 ^ 256 := by
  have hb := b.val_lt
  rw [uSub_val]
  omega

theorem uSub_one_val_int (a : U256) : ((uSub a .ONE).val : Int) = ((a.val : Int) - 1) % 2 ^ 256 := by
  rw [uSub_val_int, U256.val_ONE, Nat.cast_one]

/-- `0 - a` is the two's complement of `a` (R165). -/
theorem uSub_zero_left_val (a : U256) : (uSub .ZERO a).val = (2 ^ 256 - a.val) % 2 ^ 256 := by
  rw [uSub_val, U256.val_ZERO, Nat.add_zero]

/-! ### The commands -/

section Commands

variable (rd : Reg) (ra : Src) (b : OperandB) (s : State)

theorem exec_add : exec (.add rd ra b) s = .next (s.afterWrite rd (uAdd (s.src ra) (s.operandB b))) := rfl

theorem exec_sub : exec (.sub rd ra b) s = .next (s.afterWrite rd (uSub (s.src ra) (s.operandB b))) := rfl

theorem exec_inc : exec (.inc rd ra) s = .next (s.afterWrite rd (uAdd (s.src ra) .ONE)) := rfl

theorem exec_dec : exec (.dec rd ra) s = .next (s.afterWrite rd (uSub (s.src ra) .ONE)) := rfl

theorem exec_neg : exec (.neg rd ra) s = .next (s.afterWrite rd (uSub .ZERO (s.src ra))) := rfl

end Commands

/-- Settles O47, from the values of the adder's sum and difference. -/
theorem addSubResults : Obligations.AddSubResults :=
  fun rd ra b s => ⟨⟨_, uAdd_val _ _, exec_add rd ra b s⟩, ⟨_, uSub_val_int _ _, exec_sub rd ra b s⟩⟩

/-- Settles O48: `INC`, `DEC` and `NEG` are the adder with a constant operand, and `POS` does not use it. -/
theorem unaryAdditiveResults : Obligations.UnaryAdditiveResults :=
  fun rd ra s => ⟨⟨_, uAdd_val _ .ONE, exec_inc rd ra s⟩, ⟨_, uSub_one_val_int _, exec_dec rd ra s⟩,
    ⟨_, uSub_zero_left_val _, exec_neg rd ra s⟩, exec_pos rd ra s⟩

end Sys2Proof.Machine
end

section
/-! PROOF. The multiply command (O49; spec R170 to R174): it writes what the multiplier of R172 computes, whose value `uMul_val`
gives. -/

namespace Sys2Proof.Machine

/-- `MUL` writes the multiplier's result and ends with status `OK`, for both forms of operand b (R77, R171). -/
theorem exec_mul (rd : Reg) (ra : Src) (b : OperandB) (s : State) :
    exec (.mul rd ra b) s = .next (s.afterWrite rd (uMul (s.src ra) (s.operandB b))) := rfl

/-- Settles O49: the ten kept partial products denote the product mod `2^256`. -/
theorem mulResult : Obligations.MulResult :=
  fun rd ra b s => ⟨uMul (s.src ra) (s.operandB b), uMul_val _ _, exec_mul rd ra b s⟩

end Sys2Proof.Machine
end

section
/-! PROOF. The divide commands (O50; spec R175 to R179) and the laws of the divider in the machine's own arithmetic (O52; spec R182).
That the long division of R176 computes the exact quotient and remainder is `uDivmod_eq_some`. -/

namespace Sys2Proof.Machine

/-! ### The commands -/

section Commands

variable {s : State} {ra : Src} {b : OperandB} {q r : U256}

theorem exec_div_of_uDivmod (h : uDivmod (s.src ra) (s.operandB b) = some (q, r)) (rd : Reg) :
    exec (.div rd ra b) s = .next (s.afterWrite rd q) := by
  change execDiv rd ra b s = _
  rw [execDiv, h]
  rfl

theorem exec_mod_of_uDivmod (h : uDivmod (s.src ra) (s.operandB b) = some (q, r)) (rd : Reg) :
    exec (.mod rd ra b) s = .next (s.afterWrite rd r) := by
  change execMod rd ra b s = _
  rw [execMod, h]
  rfl

/-- `DIVMOD` is legal exactly for different destinations, and both results come from operands read before either write (R177, R226). -/
theorem exec_divmod_of_uDivmod (h : uDivmod (s.src ra) (s.operandB b) = some (q, r)) {rd re : Reg} (hd : rd ≠ re) :
    exec (.divmod rd re ra b) s = .next ((s.afterWrite rd q).afterWrite re r) := by
  have hwf : (Instr.divmod rd re ra b).wf = true := decide_eq_true hd
  change whenLegal (Instr.divmod rd re ra b).wf (execDivmodLegal rd re ra b) s = _
  rw [hwf, whenLegal_true, execDivmodLegal, h]
  rfl

end Commands

/-- Settles O50: the three commands write the parts of one pair, the divider's exact quotient and remainder. -/
theorem divideResults : Obligations.DivideResults := by
  intro ra b s hb
  obtain ⟨q, r, hqr, hq, hr⟩ := uDivmod_eq_some (s.src ra) (s.operandB b) hb
  exact ⟨q, r, hq, hr, exec_div_of_uDivmod hqr, exec_mod_of_uDivmod hqr, fun _ _ => exec_divmod_of_uDivmod hqr⟩

/-! ### The laws of the divider (R182) -/

/-- Quotient times divisor plus remainder stays below `2^256`, so the reductions of `mul` and `add` do not show (R161, R170). -/
theorem uAdd_uMul_of_quotient {a b q r : U256} (hq : q.val = a.val / b.val) (hr : r.val = a.val % b.val) :
    uAdd (uMul q b) r = a := by
  apply U256.val_inj.mp
  calc (uAdd (uMul q b) r).val
      = (q.val * b.val + r.val) % 2 ^ 256 := by rw [uAdd_val, uMul_val, Nat.mod_add_mod]
    _ = a.val % 2 ^ 256 := by rw [hq, hr, Nat.div_add_mod']
    _ = a.val := Nat.mod_eq_of_lt a.val_lt

/-- Settles O52: each law is the integers' own for the exact quotient and remainder, and the divider answers one pair. -/
theorem divisionLaws : Obligations.DivisionLaws := by
  intro a b hne
  have hb : b.val ≠ 0 := fun h => hne (U256.val_inj.mp h)
  obtain ⟨q, r, hqr, hq, hr⟩ := uDivmod_eq_some a b hb
  refine ⟨q, r, hqr, uAdd_uMul_of_quotient hq hr, (flagLt_iff r b).mpr ?remainder, (flagLe_iff q a).mpr ?quotient,
    fun q' r' h => ?unique⟩
  case remainder => exact hr.trans_lt (Nat.mod_lt a.val (Nat.pos_of_ne_zero hb))
  case quotient => exact hq.trans_le (Nat.div_le_self a.val b.val)
  case unique => exact Prod.mk.inj (Option.some.inj (h.symm.trans hqr))

end Sys2Proof.Machine
end

section
/-! PROOF. The conversion commands that return data (O54 to O56, O58; spec R186, R188, R189, R191, U1). -/

namespace Sys2Proof.Machine

/-! ### Casts (R186) -/

/-- A cast of `n` bytes keeps the lower limb mod `256^n`; the upper limb is not read. -/
theorem be_cvtData (w : CvtWidth) (a : U256) : be (cvtData w a) = a.lower.toNat % 256 ^ cvtBytes w := by
  have hpow : 2 ^ (8 * cvtBytes w) = 256 ^ cvtBytes w := Nat.pow_mul 2 8 (cvtBytes w)
  rw [cvtData, be_bytesBE, hpow, Nat.mod_mod]

/-- Settles O54. -/
theorem cvtResult : Obligations.CvtResult := by
  intro w ra s
  refine ⟨cvtData w (s.src ra), rfl, ?length, ?value⟩
  case length =>
    rw [cvtData_length]
    cases w <;> rfl
  case value => rw [cvtData_length, be_cvtData]

/-! ### Bit-length (R188, C1) -/

/-- The bit below the bit-length of a value is set; for a nonzero upper limb it is a bit of that limb (C1). -/
theorem vbit_uBits_pred {a : U256} (h : uBits a ≠ 0) : a.vbit (uBits a - 1) = true := by
  unfold uBits at h ⊢
  split
  · next hu =>
    have hbits : lBits a.upper ≠ 0 := lBits_ne_zero (bne_iff_ne.mp hu)
    have hpred : 128 + lBits a.upper - 1 - 128 = lBits a.upper - 1 := by omega
    rw [U256.vbit, if_neg (by omega), hpred]
    exact getLsbD_highestBit hbits
  · next hu =>
    rw [if_neg hu] at h
    have hle := lBits_le a.lower
    rw [U256.vbit, if_pos (by omega)]
    exact getLsbD_highestBit h

/-- The bit-length is the least `n` with `val < 2^n` (R188). -/
theorem uBits_le_of_val_lt {a : U256} {m : Nat} (h : a.val < 2 ^ m) : uBits a ≤ m := by
  by_contra hm
  have hset := vbit_uBits_pred (a := a) (by omega)
  rw [vbit_eq_testBit] at hset
  have hge : 2 ^ (uBits a - 1) ≤ a.val := Nat.ge_two_pow_of_testBit hset
  have hpow : 2 ^ m ≤ 2 ^ (uBits a - 1) := Nat.pow_le_pow_right Nat.two_pos (by omega)
  omega

theorem bytesBE_two (n : Nat) : bytesBE n 2 = [BitVec.ofNat 8 (n / 256), BitVec.ofNat 8 n] := by
  rw [bytesBE, bytesBE, bytesBE, pow_one, pow_zero, Nat.div_one]

theorem exec_bits (ra : Src) (s : State) :
    exec (.bits ra) s = .next (s.afterAnswer false (bytesBE (uBits (s.src ra)) 2)) := rfl

/-- Settles O55. -/
theorem bitsResult : Obligations.BitsResult := by
  intro ra s
  exact ⟨uBits (s.src ra), by rw [exec_bits, bytesBE_two], uBits_le _, val_lt_two_pow_uBits _,
    fun _ => uBits_le_of_val_lt⟩

/-! ### Texts (R189) -/

/-- The digits of a value as characters, the most significant first; zero has the one digit 0 (R189, D16). -/
theorem digitsOf_eq_map {base : Nat} (h2 : 2 ≤ base) (h36 : base ≤ 36) (a : U256) :
    digitsOf base a = (if a.val = 0 then [0] else (Nat.digits base a.val).reverse).map dchar := by
  rw [digitsOf]
  by_cases hzero : a.val = 0
  · have hnz : ¬uNonzero a = true := fun h => (uNonzero_iff a).mp h hzero
    rw [if_neg hnz, if_pos hzero]
    rfl
  · rw [if_pos ((uNonzero_iff a).mpr hzero), if_neg hzero, digitsLoop_eq h2 h36 a.val_lt, List.map_reverse]

/-- Settles O56: the text is the machine's own digits, padded by `formatText`. -/
theorem strResult : Obligations.StrResult := by
  intro ra base m s h2 h36
  exact ⟨_, digitsOf base (s.src ra), rfl, digitsOf_eq_map h2 h36 _, digitsOf_length base _, exec_str h2 h36 ra m s⟩

/-! ### Truncated exports (R191, U1) -/

/-- Leading zero bytes do not count in a big-endian number (R8). -/
theorem be_zero_cons (l : List Byte) : be (0 :: l) = be l := by
  simp [be_cons]

theorem dropWhile_zero_of_ne {b : Byte} (hb : b ≠ 0) (l : List Byte) :
    ((b :: l).dropWhile fun b => b == 0) = b :: l :=
  List.dropWhile_cons_of_neg (by simpa using hb)

theorem be_dropWhile_zero (l : List Byte) : be (l.dropWhile fun b => b == 0) = be l := by
  induction l with
  | nil => rfl
  | cons b l ih =>
    rcases eq_or_ne b 0 with rfl | hb
    · rw [be_zero_cons]
      exact ih
    · rw [dropWhile_zero_of_ne hb]

/-- A first byte other than 0 gives the number its full length. -/
theorem pow_le_be_cons {b : Byte} (hb : b ≠ 0) (l : List Byte) : 256 ^ l.length ≤ be (b :: l) := by
  have hpos : 1 ≤ b.toNat := Nat.one_le_iff_ne_zero.mpr fun h => hb (BitVec.eq_of_toNat_eq h)
  calc 256 ^ l.length ≤ b.toNat * 256 ^ l.length := Nat.le_mul_of_pos_left _ hpos
    _ ≤ be (b :: l) := by rw [be_cons]; exact Nat.le_add_right ..

/-- Without its leading zero bytes the image of a number other than 0 is not empty, and no shorter sequence denotes it. -/
theorem dropWhile_zero_shortest {l : List Byte} (h : be l ≠ 0) :
    1 ≤ (l.dropWhile fun b => b == 0).length ∧ 256 ^ ((l.dropWhile fun b => b == 0).length - 1) ≤ be l := by
  induction l with
  | nil => exact absurd be_nil h
  | cons b l ih =>
    rcases eq_or_ne b 0 with rfl | hb
    · rw [be_zero_cons] at h ⊢
      exact ih h
    · rw [dropWhile_zero_of_ne hb]
      exact ⟨Nat.le_add_left .., pow_le_be_cons hb l⟩

theorem exportTruncData_of_nonzero {a : U256} (h : a.val ≠ 0) (zeroLen : Nat) :
    exportTruncData zeroLen a = (bytesBE a.val 32).dropWhile fun b => b == 0 :=
  if_neg fun hzero => h (congrArg U256.val hzero)

theorem exportTruncData_of_zero {a : U256} (h : a.val = 0) (zeroLen : Nat) :
    exportTruncData zeroLen a = List.replicate zeroLen 0 :=
  if_pos (U256.val_inj.mp h)

/-- 32 bytes hold every value (R190). -/
theorem be_bytesBE_val (a : U256) : be (bytesBE a.val 32) = a.val := by
  have ha := a.val_lt
  rw [be_bytesBE]
  exact Nat.mod_eq_of_lt (by omega)

/-- The two settings of `TRUNC_ZERO_LEN` (U1). -/
theorem replicate_zeroLen (k : Fin 2) : List.replicate k.val (0 : Byte) = [] ∨ List.replicate k.val (0 : Byte) = [0] := by
  revert k; decide

/-- Settles O58: the parameter is used only as one of the two values of its type. -/
theorem exportTruncResult : Obligations.ExportTruncResult := by
  intro ra s
  refine ⟨exportTruncData Config.truncZeroLen.val (s.src ra), rfl, fun hne => ?nonzero, fun hzero => ?zero⟩
  case nonzero =>
    have himage := be_bytesBE_val (s.src ra)
    have hlen := List.length_dropWhile_le (fun b : Byte => b == 0) (bytesBE (s.src ra).val 32)
    obtain ⟨hpos, hshortest⟩ := dropWhile_zero_shortest (himage.trans_ne hne)
    rw [himage] at hshortest
    rw [bytesBE_length] at hlen
    rw [exportTruncData_of_nonzero hne]
    exact ⟨(be_dropWhile_zero _).trans himage, hpos, hlen, hshortest⟩
  case zero =>
    rw [exportTruncData_of_zero hzero]
    exact ⟨rfl, replicate_zeroLen Config.truncZeroLen⟩

end Sys2Proof.Machine
end

section
/-! PROOF. Errors (O17 to O19; spec R200 to R207) and runs that never stop (O11; spec R204, R206, R228): a command ends with `OK` or
with an error that is all it leaves behind. -/

namespace Sys2Proof.Machine

variable {i : Instr} {s t : State} {r : Response}

/-! ### A command ends with `OK` or with an error (R204, R206) -/

/-- However a command ends, its response is `OK`, or an error it may raise, which is then the whole of its effect. -/
theorem CommandEnd.ok_or_error {o : Host.Outcome State Fault Refusal} (h : CommandEnd i s o) :
    ∃ t r, o = .next t ∧ t.rsp = some r ∧ (r.status = .ok ∨ MayRaise i r.status ∧ t = s.afterError r.status) := by
  cases h with
  | write | writeTwo | flag | data => exact ⟨_, _, rfl, rfl, .inl rfl⟩
  | error e he => exact ⟨_, _, rfl, rfl, .inr ⟨he, rfl⟩⟩

/-- A response that is not `OK` is an error the command may raise, and nothing else has changed (R204). -/
theorem eq_afterError_of_exec (hexec : exec i s = .next t) (hrsp : t.rsp = some r) (hne : r.status ≠ .ok) :
    MayRaise i r.status ∧ t = s.afterError r.status := by
  obtain ⟨t', r', hnext, hrsp', hend⟩ := (exec_commandEnd i s).ok_or_error
  obtain rfl := Host.Outcome.next.inj (hexec.symm.trans hnext)
  obtain rfl := Option.some.inj (hrsp.symm.trans hrsp')
  exact hend.resolve_left hne

/-- Settles O17: the register file after the error is the one before it, and the next command depends on nothing else. -/
theorem errorsLeaveNoTrace : Obligations.ErrorsLeaveNoTrace := by
  intro i s t r hexec hrsp hne
  obtain ⟨-, rfl⟩ := eq_afterError_of_exec hexec hrsp hne
  exact ⟨rfl, fun j => exec_of_regs_eq j rfl⟩

/-! ### Which commands raise which error (R201, R202, R206, R207) -/

theorem mayRaise_invalidCharacter : MayRaise i .invalidCharacter ↔ i.opcode = .parse := Iff.rfl

theorem mayRaise_divisionByZero :
    MayRaise i .divisionByZero ↔ i.opcode = .divmod ∨ i.opcode = .div ∨ i.opcode = .mod := Iff.rfl

theorem not_mayRaise_illegalCommand (hwf : i.wf = true) : ¬MayRaise i .illegalCommand :=
  fun h => absurd (hwf.symm.trans h) (by decide)

theorem eq_parse_of_opcode (h : i.opcode = .parse) : ∃ rd text base, i = .parse rd text base := by
  cases i with
  | parse rd text base => exact ⟨rd, text, base, rfl⟩
  | _ => cases h

theorem eq_divide_of_opcode (h : i.opcode = .divmod ∨ i.opcode = .div ∨ i.opcode = .mod) :
    (∃ rd re ra b, i = .divmod rd re ra b) ∨ (∃ rd ra b, i = .div rd ra b) ∨ ∃ rd ra b, i = .mod rd ra b := by
  cases i with
  | divmod rd re ra b => exact .inl ⟨rd, re, ra, b, rfl⟩
  | div rd ra b => exact .inr (.inl ⟨rd, ra, b, rfl⟩)
  | mod rd ra b => exact .inr (.inr ⟨rd, ra, b, rfl⟩)
  | _ => simp [Instr.opcode] at h

/-- A well-formed command that may raise an error is `PARSE` or a divide command (R206). -/
theorem MayRaise.parse_or_divide {e : Status} (h : MayRaise i e) (hwf : i.wf = true) :
    (∃ rd text base, i = .parse rd text base) ∨ (∃ rd re ra b, i = .divmod rd re ra b) ∨
      (∃ rd ra b, i = .div rd ra b) ∨ ∃ rd ra b, i = .mod rd ra b := by
  cases e with
  | ok => exact h.elim
  | invalidCharacter => exact .inl (eq_parse_of_opcode (mayRaise_invalidCharacter.mp h))
  | divisionByZero => exact .inr (eq_divide_of_opcode (mayRaise_divisionByZero.mp h))
  | illegalCommand => exact absurd h (not_mayRaise_illegalCommand hwf)

/-- Settles O18: a decoded command is well-formed, so it has no other way to fail. -/
theorem otherCommandsAreTotal : Obligations.OtherCommandsAreTotal := by
  intro p i s hd hparse hdivmod hdiv hmod
  obtain ⟨-, hwf⟩ := payload_of_decode hd
  obtain ⟨t, r, hnext, hrsp, hok | ⟨hraise, -⟩⟩ := (exec_commandEnd i s).ok_or_error
  · exact ⟨t, r, hnext, hrsp, hok⟩
  · rcases hraise.parse_or_divide hwf with ⟨rd, text, base, hi⟩ | ⟨rd, re, ra, b, hi⟩ | ⟨rd, ra, b, hi⟩ | ⟨rd, ra, b, hi⟩
    · exact absurd hi (hparse rd text base)
    · exact absurd hi (hdivmod rd re ra b)
    · exact absurd hi (hdiv rd ra b)
    · exact absurd hi (hmod rd ra b)

/-- A row of the opcode table looks at the word and the payload length alone (R85, R207). -/
theorem row_admits_congr (row : OpRow) (w : BitVec 32) {pl pl' : List Byte} (h : pl.length = pl'.length) :
    row.admits ⟨w, pl⟩ = row.admits ⟨w, pl'⟩ := by
  rw [OpRow.admits, OpRow.admits, h]

/-- The opcode table decides which packets are legal, so the bytes of the payload do not (R85, R207). -/
theorem decodes_iff_of_length_eq (w : BitVec 32) {pl pl' : List Byte} (h : pl.length = pl'.length) :
    (∃ i, decode ⟨w, pl⟩ = .ok i) ↔ ∃ i, decode ⟨w, pl'⟩ = .ok i := by
  obtain ⟨hlegal, -⟩ := decoderMatchesOpcodeTable
  simp only [hlegal, row_admits_congr _ w h]

/-- Settles O19. -/
theorem illegalIsDecidedFirst : Obligations.IllegalIsDecidedFirst := by
  refine ⟨fun w pl pl' => decodes_iff_of_length_eq w, fun p e s hp hd => completePacket_of_decode_error hp hd s,
    fun p i s hd => ?_⟩
  obtain ⟨-, hwf⟩ := payload_of_decode hd
  obtain ⟨t, r, hnext, hrsp, hok | ⟨hraise, -⟩⟩ := (exec_commandEnd i s).ok_or_error
  · refine ⟨t, r, hnext, hrsp, ?_⟩
    simp [hok]
  · refine ⟨t, r, hnext, hrsp, fun he => ?_, fun he => ?_, fun he => ?_⟩ <;> rw [he] at hraise
    · exact not_mayRaise_illegalCommand hwf hraise
    · exact mayRaise_invalidCharacter.mp hraise
    · exact mayRaise_divisionByZero.mp hraise

/-! ### Runs (R204, R206, R228) -/

/-- With nothing in execution, soundness speaks of the port alone. -/
theorem sound_of_inExec_none (he : t.inExec = none) (hport : ∀ e ∈ t.port, e.sound = true) : t.sound :=
  ⟨hport, fun p hp => by simp [he] at hp⟩

/-- A packet that exists is answered, and leaves the port and nothing in execution. -/
theorem completePacket_sound {p : Packet} (hp : presentable p = true) (hport : ∀ e ∈ s.port, e.sound = true) :
    ∃ t, completePacket p s = .next t ∧ t.sound := by
  obtain ⟨r, -, hnext⟩ := completePacket_eq_applyPacket hp s
  exact ⟨_, hnext, sound_of_inExec_none rfl hport⟩

/-- From a sound state a step ends in a next state, which is sound again: one case for each thing a step can do. -/
theorem step_sound (h : s.sound) : ∃ t, step s = .next t ∧ t.sound := by
  obtain ⟨hport, hexec⟩ := h
  have htail {e : HostEvent} {rest : List HostEvent} (hs : s.port = e :: rest) :
      e.sound = true ∧ ∀ e' ∈ rest, e'.sound = true := by
    rw [hs] at hport
    exact List.forall_mem_cons.mp hport
  rcases step_cases s with ⟨rest, hs, hstep⟩ | ⟨p, -, he, hstep⟩ | ⟨-, -, hstep⟩ | ⟨p, rest, hs, -, hstep⟩ |
    ⟨p, rest, hs, -, hstep⟩ | ⟨rest, hs, he, hstep⟩ | ⟨rest, hs, -, -⟩
  · obtain ⟨-, hrest⟩ := htail hs
    exact ⟨_, hstep, sound_of_inExec_none rfl hrest⟩
  · rw [hstep]
    exact completePacket_sound (hexec p he) hport
  · exact ⟨s, hstep, hport, hexec⟩
  · obtain ⟨hp, hrest⟩ := htail hs
    rw [hstep]
    exact completePacket_sound hp hrest
  · obtain ⟨hp, hrest⟩ := htail hs
    refine ⟨_, hstep.trans (acceptPacket_of_presentable hp rest s), hrest, fun q hq => ?_⟩
    obtain rfl := Option.some.inj hq
    exact hp
  · obtain ⟨-, hrest⟩ := htail hs
    exact ⟨_, hstep, sound_of_inExec_none ((s.accepted_inExec rest).trans he) hrest⟩
  · obtain ⟨hsound, -⟩ := htail hs
    cases hsound

/-- Settles O11, by induction on the number of steps with soundness as the invariant. -/
theorem soundRunsNeverStop : Obligations.SoundRunsNeverStop := by
  intro n
  induction n with
  | zero => exact fun s _ => ⟨s, run_zero s⟩
  | succ n ih =>
    intro s hs
    obtain ⟨t, hstep, ht⟩ := step_sound hs
    obtain ⟨u, hrun⟩ := ih t ht
    exact ⟨u, (run_succ_next n hstep).trans hrun⟩

end Sys2Proof.Machine
end

section
/-! PROOF. The two errors of operands and texts, each raised exactly on its condition (O38, O51; spec R201, R202). -/

namespace Sys2Proof.Machine

/-! ### An error is no result -/

/-- A command that writes a register has not ended in an error (R204). -/
theorem afterWrite_ne_afterError (s s' : State) (rd : Reg) (v : U256) {e : Status} (he : e ≠ .ok) :
    s'.afterWrite rd v ≠ s.afterError e := by
  intro h
  have hrsp : some (⟨.ok, false, []⟩ : Response) = some ⟨e, false, []⟩ := congrArg State.rsp h
  exact he (congrArg Response.status (Option.some.inj hrsp)).symm

/-- An outcome that is the error under a condition and a write otherwise is the error exactly under that condition. -/
theorem eq_afterError_iff {o : Host.Outcome State Fault Refusal} {s : State} {e : Status} (he : e ≠ .ok) {p : Prop}
    (herror : p → o = .next (s.afterError e)) (hwrite : ¬p → ∃ s' rd v, o = .next (State.afterWrite s' rd v)) :
    o = .next (s.afterError e) ↔ p := by
  refine ⟨fun h => by_contra fun hp => ?_, herror⟩
  obtain ⟨s', rd, v, ho⟩ := hwrite hp
  exact afterWrite_ne_afterError s s' rd v he (Host.Outcome.next.inj (ho.symm.trans h))

/-! ### Invalid characters (R107, R201) -/

/-- The character stands for no digit of the base (R201). -/
def NotDigitOf (base : Nat) (c : Byte) : Prop := digit c = none ∨ ∃ d, digit c = some d ∧ base ≤ d

theorem hornerStep_eq_none (base : Nat) (v : U256) (c : Byte) : hornerStep base v c = none ↔ NotDigitOf base c := by
  rw [hornerStep, NotDigitOf]
  cases digit c with
  | none => simp
  | some d => simp

/-- Horner evaluation stops at the first character that is no digit of the base, and at nothing else (R107). -/
theorem horner_eq_none (base : Nat) (v : U256) (text : List Byte) :
    horner base v text = none ↔ ∃ c ∈ text, NotDigitOf base c := by
  induction text generalizing v with
  | nil => simp [horner]
  | cons c text ih =>
    have hstep := hornerStep_eq_none base v c
    rw [horner, List.exists_mem_cons_iff, ← hstep]
    cases hornerStep base v c with
    | none => simp
    | some w => simpa using ih w

/-- A legal `PARSE` of a text with no value raises the error and writes nothing (R107, R201). -/
theorem exec_parse_of_none {base : Nat} {text : List Byte} {rd : Reg} (hwf : (Instr.parse rd text base).wf = true)
    (h : parseText base text = none) (s : State) :
    exec (.parse rd text base) s = .next (s.afterError .invalidCharacter) := by
  change execParse rd text base s = _
  rw [execParse, hwf, whenLegal_true, execParseLegal, h]
  rfl

/-- `PARSE` of the empty text writes zero, or is no legal command; it never reads a character (R109, R201). -/
theorem exec_parse_nil_ne_invalidCharacter (rd : Reg) (base : Nat) (s : State) :
    exec (.parse rd [] base) s ≠ .next (s.afterError .invalidCharacter) := by
  intro h
  cases hwf : (Instr.parse rd [] base).wf with
  | true =>
    have hwrite := exec_parse hwf (parseText_nil base) s
    exact afterWrite_ne_afterError s s rd .ZERO (by decide) (Host.Outcome.next.inj (hwrite.symm.trans h))
  | false =>
    have hillegal := Host.Outcome.next.inj ((illFormedTermsAnswerIllegal _ s hwf).symm.trans h)
    simp [State.afterError] at hillegal

/-- Settles O38. -/
theorem invalidCharacterExactly : Obligations.InvalidCharacterExactly := by
  refine ⟨fun rd text base s h2 h36 hlen => ?exactly, fun i s t r hexec hrsp hstatus => ?only⟩
  case exactly =>
    have hwf := parse_wf h2 h36 rd hlen
    have hnone : parseText base text = none ↔ ∃ c ∈ text, NotDigitOf base c := horner_eq_none base .ZERO text
    refine eq_afterError_iff (by decide) (fun h => exec_parse_of_none hwf (hnone.mpr h) s) fun h => ?_
    obtain ⟨v, hv⟩ := Option.ne_none_iff_exists'.mp (mt hnone.mp h)
    exact ⟨s, rd, v, exec_parse hwf hv s⟩
  case only =>
    obtain ⟨hraise, ht⟩ := eq_afterError_of_exec hexec hrsp (by simp [hstatus])
    rw [hstatus] at hraise ht
    obtain ⟨rd, text, base, rfl⟩ := eq_parse_of_opcode (mayRaise_invalidCharacter.mp hraise)
    refine ⟨rd, text, base, rfl, ?_, ht⟩
    rintro rfl
    exact exec_parse_nil_ne_invalidCharacter rd base s (ht ▸ hexec)

/-! ### Division by zero (R176, R202) -/

section Divide

variable {s : State} {ra : Src} {b : OperandB}

theorem exec_div_of_zero (h : (s.operandB b).val = 0) (rd : Reg) :
    exec (.div rd ra b) s = .next (s.afterError .divisionByZero) := by
  change execDiv rd ra b s = _
  rw [execDiv, (uDivmod_eq_none _ _).mpr h]
  rfl

theorem exec_mod_of_zero (h : (s.operandB b).val = 0) (rd : Reg) :
    exec (.mod rd ra b) s = .next (s.afterError .divisionByZero) := by
  change execMod rd ra b s = _
  rw [execMod, (uDivmod_eq_none _ _).mpr h]
  rfl

theorem exec_divmod_of_zero (h : (s.operandB b).val = 0) {rd re : Reg} (hd : rd ≠ re) :
    exec (.divmod rd re ra b) s = .next (s.afterError .divisionByZero) := by
  have hwf : (Instr.divmod rd re ra b).wf = true := decide_eq_true hd
  change whenLegal (Instr.divmod rd re ra b).wf (execDivmodLegal rd re ra b) s = _
  rw [hwf, whenLegal_true, execDivmodLegal, (uDivmod_eq_none _ _).mpr h]
  rfl

end Divide

/-- Settles O51: for a zero operand b the divider has no result, and for any other `DivideResults` gives what is written. -/
theorem divisionByZeroExactly : Obligations.DivisionByZeroExactly := by
  refine ⟨fun rd ra b s => ⟨?div, ?mod⟩, fun rd re ra b s hd => ?divmod, fun i s t r hexec hrsp hstatus => ?only⟩
  case div =>
    refine eq_afterError_iff (by decide) (fun h => exec_div_of_zero h rd) fun h => ?_
    obtain ⟨q, _, -, -, hdiv, -, -⟩ := divideResults ra b s h
    exact ⟨s, rd, q, hdiv rd⟩
  case mod =>
    refine eq_afterError_iff (by decide) (fun h => exec_mod_of_zero h rd) fun h => ?_
    obtain ⟨_, r, -, -, -, hmod, -⟩ := divideResults ra b s h
    exact ⟨s, rd, r, hmod rd⟩
  case divmod =>
    refine eq_afterError_iff (by decide) (fun h => exec_divmod_of_zero h hd) fun h => ?_
    obtain ⟨q, r, -, -, -, -, hdivmod⟩ := divideResults ra b s h
    exact ⟨s.afterWrite rd q, re, r, hdivmod rd re hd⟩
  case only =>
    obtain ⟨hraise, ht⟩ := eq_afterError_of_exec hexec hrsp (by simp [hstatus])
    rw [hstatus] at hraise ht
    exact ⟨ht, eq_divide_of_opcode (mayRaise_divisionByZero.mp hraise)⟩

end Sys2Proof.Machine
end
